-- ==== Sys2Proof/Word.lean ====
section
/-! DEFINITION. The two bit vectors the block computes on: a stored byte (R11, R50) and a 16-bit command word or result (R28, R75). -/

namespace Sys2Proof

/-- One byte: "an unsigned 8-bit value in 0..255" (R11). -/
abbrev Byte := BitVec 8

/-- A 16-bit command word (R75), the result register's width (R28), and the width of a reading's two values (R31). -/
abbrev Word := BitVec 16

end Sys2Proof
end

