-- ==== Sys2Proof/Syntax.lean ====
section
/-! DEFINITION. The instructions: one constructor of `Instr` per row of spec/opcode_table.json (R77), their operands as R76 gives them, and the names the rules use for operations, directions and refusal reasons. -/

namespace Sys2Proof

/-- A link number as the 2-bit field of a command word holds it (R75, R76): link 0 is the control link, links 1..K the
sensor links (R21). Whether a number names a configured link is the configuration's business (WellFormed.lean). -/
abbrev LinkNo := Fin 4

/-- Ring direction (R12, R75): receive or transmit. -/
inductive Dir where
  | rx
  | tx
deriving DecidableEq, Repr

/-- The fifteen operations of the opcode map (R77). -/
inductive Op where
  | rinit | txw | rxrd | avl | rxpk | rxds | arm | sstep | drain | chk | stat | req
  | rxev | txrdy | txdone
deriving DecidableEq, Repr

/-- A command word, decoded: twelve host commands, then three environment events (R77). -/
inductive Instr where
  /-- Initialise ring (l, r) (R100). -/
  | rinit (l : LinkNo) (r : Dir)
  /-- Write byte b into the transmit ring of link l (R101). -/
  | txw (l : LinkNo) (b : Byte)
  /-- Read and consume one byte of the receive ring of link l (R102). -/
  | rxrd (l : LinkNo)
  /-- Read the number of bytes in ring (l, r) (R103). -/
  | avl (l : LinkNo) (r : Dir)
  /-- Read, without consuming, the byte d places after tail in the receive ring of link l (R104). -/
  | rxpk (l : LinkNo) (d : BitVec 9)
  /-- Discard n bytes from the receive ring of link l (R105). -/
  | rxds (l : LinkNo) (n : BitVec 9)
  /-- Arm the transmitter of link l (R136). -/
  | arm (l : LinkNo)
  /-- One pass of the synchroniser on sensor link l (R170). -/
  | sstep (l : LinkNo)
  /-- Run the synchroniser on sensor link l to exhaustion (R171). -/
  | drain (l : LinkNo)
  /-- Run the checksum validator on the window of the receive ring of link l (R153). -/
  | chk (l : LinkNo)
  /-- Read the link status register of link l (R137). -/
  | stat (l : LinkNo)
  /-- Queue the request frame on sensor link l and arm it; l = 0 is the broadcast (R191, R192). -/
  | req (l : LinkNo)
  /-- Event: byte b arrives on link l (R130). -/
  | rxev (l : LinkNo) (b : Byte)
  /-- Event: the transmitter of link l is ready for a byte (R132). -/
  | txrdy (l : LinkNo)
  /-- Event: the transmitter of link l reports transmission complete (R134). -/
  | txdone (l : LinkNo)
deriving DecidableEq, Repr

/-- The operation an instruction performs. -/
def Instr.op : Instr → Op
  | .rinit _ _ => .rinit
  | .txw _ _ => .txw
  | .rxrd _ => .rxrd
  | .avl _ _ => .avl
  | .rxpk _ _ => .rxpk
  | .rxds _ _ => .rxds
  | .arm _ => .arm
  | .sstep _ => .sstep
  | .drain _ => .drain
  | .chk _ => .chk
  | .stat _ => .stat
  | .req _ => .req
  | .rxev _ _ => .rxev
  | .txrdy _ => .txrdy
  | .txdone _ => .txdone

/-- The link operand, which every instruction has (R77). -/
def Instr.link : Instr → LinkNo
  | .rinit l _ => l
  | .txw l _ => l
  | .rxrd l => l
  | .avl l _ => l
  | .rxpk l _ => l
  | .rxds l _ => l
  | .arm l => l
  | .sstep l => l
  | .drain l => l
  | .chk l => l
  | .stat l => l
  | .req l => l
  | .rxev l _ => l
  | .txrdy l => l
  | .txdone l => l

/-- "kind" of the opcode map (R77): the three environment events. -/
def Op.isEvent : Op → Bool
  | .rxev => true
  | .txrdy => true
  | .txdone => true
  | _ => false

/-- The two operations whose link must be a sensor link, at least 1 (R76). -/
def Op.needsSensor : Op → Bool
  | .sstep => true
  | .drain => true
  | _ => false

/-- Why a command word is refused (R202). -/
inductive RefusalReason where
  | reservedOpcode
  | nonzeroReservedField
  | byteOperandTooWide
  | linkNotConfigured
  | linkNotSensor
  | eventInHostProgram
deriving DecidableEq, Repr

/-- The code of a reason (R202). -/
def RefusalReason.code : RefusalReason → Nat
  | .reservedOpcode => 1
  | .nonzeroReservedField => 2
  | .byteOperandTooWide => 3
  | .linkNotConfigured => 4
  | .linkNotSensor => 5
  | .eventInHostProgram => 6

end Sys2Proof
end

