-- ==== Sys2Proof/Config.lean ====
section
/-! DEFINITION. What is fixed for a whole run: the parameters of R8, the run semantics of R206, and the one family of free values, the storage bytes reset leaves unspecified (R39, R232, U1). -/

namespace Sys2Proof

/-- The two run semantics (R206): the trace alone orders host words and events, or the environment may take any enabled
event step between host steps and DRAIN iterations. -/
inductive Semantics where
  | closed
  | concurrent
deriving DecidableEq, Repr

/-- The configuration (R8): "A model takes each parameter as an argument". The ring capacity is held by its exponent, so
that every value of this type is a legal one. Log 1, log 2. -/
structure Config where
  /-- K, "number of sensor links enabled besides the control link": 0, 1, 2 or 3. -/
  sensorLinks : Fin 4
  /-- N = 2 ^ (4 + capExp), so a power of two with 16 ≤ N ≤ 65536. -/
  capExp : Fin 13
  /-- BAUD_DIV[l], which no rule reads; `none` where it is not given (D22). -/
  baudDiv : Vector (Option Nat) 4
  /-- POLL_INTERVAL_US, which no rule reads (D36). -/
  pollIntervalUs : Nat
  /-- SENSOR_COUNT, which no rule reads (D36). -/
  sensorCount : Nat
  /-- The run semantics (R206, D25). -/
  semantics : Semantics
deriving DecidableEq, Repr

/-- K, the number of sensor links besides the control link (R8). -/
def Config.K (c : Config) : Nat := c.sensorLinks.val

/-- N, the capacity of every ring buffer in bytes (R8, R23). -/
def Config.N (c : Config) : Nat := 2 ^ (4 + c.capExp.val)

/-- The size of RBMEM: 2 * (K + 1) * N bytes (R50). -/
def Config.storageSize (c : Config) : Nat := 2 * (c.K + 1) * c.N

/-- The defaults of R8: K = 3, N = 512, a polling interval of 10,000,000 and three sensors; no divisor is given. The closed
semantics, in which "every example, vector and program" of the spec runs, is the model's DESIGN CHOICE (log 2). -/
def Config.default : Config where
  sensorLinks := 3
  capExp := 5
  baudDiv := Vector.replicate 4 none
  pollIntervalUs := 10000000
  sensorCount := 3
  semantics := .closed

/-- FREE VALUE: the byte that draw `draw` of the unspecified storage puts at address `a` of RBMEM: "any byte, drawn per byte"
(R39, R232, U1, U2). It has no body: nothing can be proved of its value. Log 6. -/
opaque Config.freeStorage (draw : Nat) (a : Nat) : Byte

end Sys2Proof
end

