-- ==== Sys2Proof/WellFormed.lean ====
section
/-! DEFINITION. Which instructions are legal under a configuration (R76, R79): the operand types already bound every other field. -/

namespace Sys2Proof

/-- The link is configured, `SSTEP` and `DRAIN` name a sensor link, and an event stands only in a closed trace (R76, R79,
R206). -/
abbrev Instr.WellFormed (cfg : Config) (i : Instr) : Prop :=
  i.link.val ≤ cfg.K ∧ (i.op.needsSensor = true → i.link ≠ 0) ∧
    (i.op.isEvent = true → cfg.semantics = .closed)

end Sys2Proof
end

