-- ==== Sys2Proof/Decode.lean ====
section
/-! DEFINITION. Decoding (R75 to R80), total on every 16-bit word, refusing by reason; then the encoder, from the same tables. -/

namespace Sys2Proof

/-! The fields of format H (R75). -/

def opField (w : Word) : BitVec 4 := w.extractLsb' 12 4

def linkField (w : Word) : LinkNo := Fin.ofNat 4 (w.extractLsb' 10 2).toNat

def dirField (w : Word) : BitVec 1 := w.extractLsb' 9 1

def immField (w : Word) : BitVec 9 := w.extractLsb' 0 9

/-- The op field of each operation (R77); 0x0 is reserved. -/
def Op.code : Op → BitVec 4
  | .rinit => 0x1
  | .txw => 0x2
  | .rxrd => 0x3
  | .avl => 0x4
  | .rxpk => 0x5
  | .rxds => 0x6
  | .arm => 0x7
  | .sstep => 0x8
  | .drain => 0x9
  | .chk => 0xA
  | .stat => 0xB
  | .req => 0xC
  | .rxev => 0xD
  | .txrdy => 0xE
  | .txdone => 0xF

/-- The opcode map read the other way (R77). -/
def Op.ofCode (c : BitVec 4) : Option Op :=
  match c.toNat with
  | 0x1 => some .rinit
  | 0x2 => some .txw
  | 0x3 => some .rxrd
  | 0x4 => some .avl
  | 0x5 => some .rxpk
  | 0x6 => some .rxds
  | 0x7 => some .arm
  | 0x8 => some .sstep
  | 0x9 => some .drain
  | 0xA => some .chk
  | 0xB => some .stat
  | 0xC => some .req
  | 0xD => some .rxev
  | 0xE => some .txrdy
  | 0xF => some .txdone
  | _ => none

/-- The match value of each row (R78). -/
def Op.pattern : Op → Word
  | .rinit => 0x1000
  | .txw => 0x2000
  | .rxrd => 0x3000
  | .avl => 0x4000
  | .rxpk => 0x5000
  | .rxds => 0x6000
  | .arm => 0x7000
  | .sstep => 0x8000
  | .drain => 0x9000
  | .chk => 0xA000
  | .stat => 0xB000
  | .req => 0xC000
  | .rxev => 0xD000
  | .txrdy => 0xE000
  | .txdone => 0xF000

/-- The mask of each row (R78). -/
def Op.mask : Op → Word
  | .rinit => 0xF1FF
  | .txw => 0xF300
  | .rxrd => 0xF3FF
  | .avl => 0xF1FF
  | .rxpk => 0xF200
  | .rxds => 0xF200
  | .arm => 0xF3FF
  | .sstep => 0xF3FF
  | .drain => 0xF3FF
  | .chk => 0xF3FF
  | .stat => 0xF3FF
  | .req => 0xF3FF
  | .rxev => 0xF300
  | .txrdy => 0xF3FF
  | .txdone => 0xF3FF

/-- The operations whose operand is a byte (R76). -/
def Op.takesByte : Op → Bool
  | .txw => true
  | .rxev => true
  | _ => false

/-- r = RX = 0, r = TX = 1 (R12). -/
def Dir.ofBit (r : BitVec 1) : Dir := if r = 0 then .rx else .tx

def Dir.bit : Dir → BitVec 1
  | .rx => 0
  | .tx => 1

/-- The byte operand b = w[7:0] (R76). -/
def byteOperand (imm : BitVec 9) : Byte := imm.extractLsb' 0 8

/-- Operand assembly (R76): each operand straight from its field. -/
def assemble (op : Op) (l : LinkNo) (r : BitVec 1) (imm : BitVec 9) : Instr :=
  match op with
  | .rinit => .rinit l (Dir.ofBit r)
  | .txw => .txw l (byteOperand imm)
  | .rxrd => .rxrd l
  | .avl => .avl l (Dir.ofBit r)
  | .rxpk => .rxpk l imm
  | .rxds => .rxds l imm
  | .arm => .arm l
  | .sstep => .sstep l
  | .drain => .drain l
  | .chk => .chk l
  | .stat => .stat l
  | .req => .req l
  | .rxev => .rxev l (byteOperand imm)
  | .txrdy => .txrdy l
  | .txdone => .txdone l

/-- The last three checks of R79, in its order: link configured, sensor link, no event in a host program. -/
def Instr.refusal (cfg : Config) (i : Instr) : Option RefusalReason :=
  if i.link.val > cfg.K then some .linkNotConfigured
  else if i.op.needsSensor && i.link == 0 then some .linkNotSensor
  else if i.op.isEvent && cfg.semantics == .concurrent then some .eventInHostProgram
  else none

/-- `decode(w)` of R79: an instruction, or the first reason that applies. -/
def decode (cfg : Config) (w : Word) : Except RefusalReason Instr :=
  match Op.ofCode (opField w) with
  | none => .error .reservedOpcode
  | some op =>
    if w &&& op.mask ≠ op.pattern then
      if op.takesByte && dirField w == 0 && (w.extractLsb' 8 1 == 1) then
        .error .byteOperandTooWide
      else .error .nonzeroReservedField
    else
      match (assemble op (linkField w) (dirField w) (immField w)).refusal cfg with
      | some why => .error why
      | none => .ok (assemble op (linkField w) (dirField w) (immField w))

/-! The encoder. -/

/-- w = (op << 12) | (l << 10) | (r << 9) | imm9 (R75). -/
def packWord (op : BitVec 4) (l : LinkNo) (r : BitVec 1) (imm : BitVec 9) : Word :=
  op ++ (BitVec.ofNat 2 l.val ++ (r ++ imm))

/-- The direction bit: 0 where the operation has no direction (R75). -/
def Instr.dirBit : Instr → BitVec 1
  | .rinit _ r => r.bit
  | .avl _ r => r.bit
  | _ => 0

/-- The imm9 field: 0 where the operation has no operand (R75, R76). -/
def Instr.imm : Instr → BitVec 9
  | .txw _ b => b.setWidth 9
  | .rxpk _ d => d
  | .rxds _ n => n
  | .rxev _ b => b.setWidth 9
  | _ => 0

/-- The word of an instruction (R75, R77). -/
def encode (i : Instr) : Word := packWord i.op.code i.link i.dirBit i.imm

/-- The host's view of the decoder: the instruction read from a word whose low `nbits` bits are those of `w`, under the default
configuration. A command word is handed to the block whole (R53), so no byte order arises. Log 16. -/
def decodeTableWord (nbits w : Nat) : Option Instr :=
  match decode Config.default (BitVec.ofNat 16 (w % 2 ^ nbits)) with
  | .ok i => some i
  | .error _ => none

end Sys2Proof
end

