-- ==== Sys2Proof/Machine/State.lean ====
section
/-! DEFINITION. The state record (R20 to R39) as plain data, the reasons a step can stop, and the state after reset (R39, R230). -/

namespace Sys2Proof.Machine

/-- The two indices of one ring (R24, R25), each a natural number below N (R37). -/
structure Ring where
  /-- "next write slot" (R24). -/
  head : Nat
  /-- "next read slot" (R25). -/
  tail : Nat
deriving DecidableEq, Repr

/-- What one serial link owns (R22, R29, R30, R32). -/
structure Link where
  /-- RB(l, RX). -/
  rx : Ring
  /-- RB(l, TX). -/
  tx : Ring
  /-- txarm[l] (R29). -/
  txarm : Bool
  /-- txc[l] (R30). -/
  txc : Bool
  /-- wire[l], the bytes written to the transmit register, in order (R32). -/
  wire : List Byte
deriving DecidableEq, Repr

/-- One accepted reading (R31): channel u8, CO2 u16, temperature as an s16 bit pattern (R152). -/
structure Reading where
  channel : BitVec 8
  co2 : Word
  temp : Word
deriving DecidableEq, Repr

/-- Ring storage RBMEM (R50) as the bytes that have been written since reset: addresses strictly rising. An unlisted address has
no specified byte (R39), so no entry can equal what an unlisted address holds. Log 6. -/
abbrev Memory := List Host.Cell

/-- One choice of what comes next in the open semantics (R206): the host's next step, or one of the three events. -/
inductive Move where
  | host
  | byteArrived (l : LinkNo) (b : Byte)
  | txReady (l : LinkNo)
  | txComplete (l : LinkNo)
deriving DecidableEq, Repr

/-- The state record of R20, with the parameters of the run (R38) that a step reads and never writes (`cfg`, `trace`, `draw`) and
the open semantics' free order of moves (`env`). -/
structure State where
  /-- The configuration (R8, R38). Log 1. -/
  cfg : Config
  /-- The contents of the trace, "a parameter of the run" (R33, R38). Log 3. -/
  trace : List Word
  /-- The trace position (R33). -/
  tp : Nat
  /-- The links 0..3; those above K do not exist and stay as reset leaves them (R21). Log 9. -/
  links : Vector Link 4
  /-- Ring storage (R50). -/
  mem : Memory
  /-- The result register (R28). -/
  res : Word
  /-- The reading output (R31). -/
  readings : List Reading
  /-- The model's own: what the environment and the host do next in the open semantics. Log 11. -/
  env : List Move
  /-- The model's own: which draw of the unspecified storage bytes this run has (U1). Log 7. -/
  draw : Nat
deriving DecidableEq, Repr

/-- Why a run stops other than by a refusal. The block itself has no fault (R200). -/
inductive Fault where
  /-- Raised by the fetch when no word is left at tp and, in the open semantics, no event is chosen: the run has ended (R33,
  R216), and the state it was raised in is the end state. It is not an error of the block. Safe. Log 4. -/
  | runEnded
deriving DecidableEq, Repr

/-- Why a command word is refused. -/
inductive Refusal where
  /-- Raised only by an arm of exec for an instruction that has no meaning yet; no arm does so now. Safe. -/
  | notModelled (mnemonic : String)
  /-- Raised by the fetch for a word R79 refuses, and by a meaning called on an instruction the configuration does not admit: the
  word, its trace position and the reason (R201, R202). The spec's own behaviour. Safe. Log 5, log 10. -/
  | illegalCommand (w : Word) (tp : Nat) (why : RefusalReason)
deriving DecidableEq, Repr

/-- A ring with head = tail = 0 (R39). -/
def Ring.init : Ring := ⟨0, 0⟩

/-- A link after reset (R39). -/
def Link.init : Link := ⟨Ring.init, Ring.init, false, false, []⟩

/-- Reset under any configuration, trace, order of moves and draw (R39, R230). -/
def State.resetWith (cfg : Config) (trace : List Word) (env : List Move) (draw : Nat) : State where
  cfg := cfg
  trace := trace
  tp := 0
  links := Vector.replicate 4 Link.init
  mem := []
  res := 0
  readings := []
  env := env
  draw := draw

/-- The state right after reset under the defaults of R8, before a trace is loaded (log 2, log 3, log 7, log 11). -/
def State.reset : State := State.resetWith Config.default [] [] 0

end Sys2Proof.Machine
end

