-- ==== Sys2Proof/Machine/Operands.lean ====
section
/-! DEFINITION. Operand forms (R12, R50, R76): how a link, a direction and an index name a byte of RBMEM, how a byte, a distance and a count become numbers and results, and which links a broadcast means. -/

namespace Sys2Proof.Machine

/-- r = RX = 0, r = TX = 1 (R12, R50). -/
def dirIndex : Dir → Nat
  | .rx => 0
  | .tx => 1

/-- rbaddr(l, r, i) = (2 * l + r) * N + i (R50). -/
def rbaddr (cfg : Config) (l : LinkNo) (r : Dir) (i : Nat) : Nat :=
  (2 * l.val + dirIndex r) * cfg.N + i

/-- The address of slot i of a ring, the index "reduced modulo N" (R58, R54). Log 8. -/
def slotAddr (cfg : Config) (l : LinkNo) (r : Dir) (i : Nat) : Nat :=
  rbaddr cfg l r (i % cfg.N)

/-- zext_16 of a byte (R11), as RXRD and RXPK deliver it. -/
def zext16 (b : Byte) : Word := b.setWidth 16

/-- d or n = zext(w[8:0]), 0..511 (R76). -/
def countOperand (n : BitVec 9) : Nat := n.toNat

/-- The sensor links 1..K in increasing order (R192). -/
def sensorLinksOf (cfg : Config) : List LinkNo :=
  ([1, 2, 3] : List LinkNo).filter fun l => l.val ≤ cfg.K

end Sys2Proof.Machine
end

