-- ==== Sys2Proof/Machine/Ops.lean ====
section
/-! DEFINITION. The named operations over rings, storage and registers (R12, R13), the refusal of an illegal command, which is the one exceptional event the spec describes (R200, R201), and reset as a step (R230). -/

namespace Sys2Proof.Machine

/-! Ring indices (R13). -/

/-- avail = (head - tail) mod N, the non-negative remainder (R11, R13). -/
def Ring.avail (n : Nat) (q : Ring) : Nat :=
  (((q.head : Int) - (q.tail : Int)) % (n : Int)).toNat

/-- "buffer is empty iff head == tail" (R13). -/
def Ring.isEmpty (q : Ring) : Bool := q.head == q.tail

/-- "full iff (head+1) mod N == tail" (R13). -/
def Ring.isFull (n : Nat) (q : Ring) : Bool := (q.head + 1) % n == q.tail

/-- The producer's index update (R101). -/
def Ring.produce (n : Nat) (q : Ring) : Ring := { q with head := (q.head + 1) % n }

/-- The consumer's index update by k places (R102, R105). -/
def Ring.consume (n : Nat) (q : Ring) (k : Nat) : Ring := { q with tail := (q.tail + k) % n }

/-! Ring storage (R50, R56). -/

/-- The byte last written at a, if any. -/
def Memory.find : Memory → Nat → Option Byte
  | [], _ => none
  | (b, v) :: m, a => if b = a then some v else Memory.find m a

/-- Store v at a, keeping the addresses strictly rising. -/
def Memory.store : Memory → Nat → Byte → Memory
  | [], a, v => [(a, v)]
  | (b, u) :: m, a, v =>
    if a < b then (a, v) :: (b, u) :: m
    else if a = b then (a, v) :: m
    else (b, u) :: Memory.store m a v

/-- The canonical form: addresses strictly rising. -/
def Memory.wf : Memory → Bool
  | [] => true
  | [_] => true
  | (a, _) :: (b, v) :: m => decide (a < b) && Memory.wf ((b, v) :: m)

/-- What an unlisted address reads as: the free value of this run's draw (R39, R232, U1). Log 6. -/
def unlistedByte (draw : Nat) (a : Nat) : Byte := Config.freeStorage draw a

/-- MemRead(a, 1) (R50). -/
def State.readByte (s : State) (a : Nat) : Byte :=
  (Memory.find s.mem a).getD (unlistedByte s.draw a)

/-- MemWrite(a, 1, v) (R50). -/
def State.writeByte (s : State) (a : Nat) (v : Byte) : State :=
  { s with mem := Memory.store s.mem a v }

/-! Links and their rings (R21, R22). -/

def State.link (s : State) (l : LinkNo) : Link := s.links[l]

def State.modifyLink (s : State) (l : LinkNo) (f : Link → Link) : State :=
  { s with links := s.links.set l.val (f (s.link l)) }

def Link.ring (k : Link) : Dir → Ring
  | .rx => k.rx
  | .tx => k.tx

def Link.setRing (k : Link) (r : Dir) (q : Ring) : Link :=
  match r with
  | .rx => { k with rx := q }
  | .tx => { k with tx := q }

/-- RB(l, r) (R12). -/
def State.ring (s : State) (l : LinkNo) (r : Dir) : Ring := (s.link l).ring r

def State.setRing (s : State) (l : LinkNo) (r : Dir) (q : Ring) : State :=
  s.modifyLink l fun k => k.setRing r q

/-- avail(l, r) (R13). -/
def State.avail (s : State) (l : LinkNo) (r : Dir) : Nat := (s.ring l r).avail s.cfg.N

/-- full(l, r) (R13). -/
def State.full (s : State) (l : LinkNo) (r : Dir) : Bool := (s.ring l r).isFull s.cfg.N

/-- empty(l, r) (R13). -/
def State.empty (s : State) (l : LinkNo) (r : Dir) : Bool := (s.ring l r).isEmpty

/-- The byte in slot i of ring (l, r). -/
def State.readSlot (s : State) (l : LinkNo) (r : Dir) (i : Nat) : Byte :=
  s.readByte (slotAddr s.cfg l r i)

/-- contents(l, r): the avail(l, r) bytes from tail onward, in FIFO order (R27). -/
def State.contents (s : State) (l : LinkNo) (r : Dir) : List Byte :=
  (List.range (s.avail l r)).map fun k => s.readSlot l r ((s.ring l r).tail + k)

/-! What commands and events do to a ring. -/

/-- `writeByte(b)`: drop b when full, else store it at head and advance head (R101, R130). -/
def State.pushByte (s : State) (l : LinkNo) (r : Dir) (b : Byte) : State :=
  if s.full l r then s
  else
    (s.writeByte (slotAddr s.cfg l r (s.ring l r).head) b).setRing l r
      ((s.ring l r).produce s.cfg.N)

/-- `discard(n)`: tail ← (tail + n) mod N, with no check against avail (R105). -/
def State.consume (s : State) (l : LinkNo) (r : Dir) (n : Nat) : State :=
  s.setRing l r ((s.ring l r).consume s.cfg.N n)

/-- `peekAt(d)` on the receive ring of link l: a sentinel zero when d ≥ avail (R104). -/
def State.peek (s : State) (l : LinkNo) (d : Nat) : Byte :=
  if s.avail l .rx ≤ d then 0 else s.readSlot l .rx ((s.ring l .rx).tail + d)

/-- `init()` resets indices; storage bytes are not changed (R100). -/
def State.initRing (s : State) (l : LinkNo) (r : Dir) : State := s.setRing l r Ring.init

/-! Registers and outputs. -/

/-- res ← v (R12, R28). -/
def State.setRes (s : State) (v : Word) : State := { s with res := v }

/-- tp ← tp + 1 (R33). -/
def State.advance (s : State) : State := { s with tp := s.tp + 1 }

/-- emit(c, co2, t): append one reading (R12, R31); the channel is the link number (R170, D15). -/
def State.emit (s : State) (c : LinkNo) (co2 temp : Word) : State :=
  { s with readings := s.readings ++ [⟨BitVec.ofNat 8 c.val, co2, temp⟩] }

/-- wire[l] ← wire[l] ++ [b] (R12, R32). -/
def State.send (s : State) (l : LinkNo) (b : Byte) : State :=
  s.modifyLink l fun k => { k with wire := k.wire ++ [b] }

/-! The one exceptional event (R200, R201), and reset. -/

/-- raise IllegalCommand(w, reason): no component changes, tp stays, the run ends in the refused state with the record (w, tp,
reason) (R201, R202). Log 5. -/
def raiseIllegal (w : Word) (why : RefusalReason) (s : State) : Host.Outcome State Fault Refusal :=
  .refused (.illegalCommand w s.tp why)

/-- The effect t of instruction i, provided the configuration admits i; a link above K has no state to act on (R21, R79). Log 10. -/
def whenLegal (i : Instr) (s t : State) : Host.Outcome State Fault Refusal :=
  match i.refusal s.cfg with
  | some why => raiseIllegal (encode i) why s
  | none => .next t

/-- Reset as a step from outside (R230): every component at its reset value, the configuration and the trace as they are, the
unspecified storage drawn anew (U1: "drawn per byte, per ring and per reset"). No command word reaches it. Log 19. -/
def resetStep (s : State) : State := State.resetWith s.cfg s.trace s.env (s.draw + 1)

end Sys2Proof.Machine
end

