-- ==== Sys2Proof/Machine/Flags.lean ====
section
/-! DEFINITION. The flags txarm and txc (R29, R30, R35), the status register they make up (R36), and the flag bits CHK reports (R153). -/

namespace Sys2Proof.Machine

/-- LSTAT[l]: bit 0 = txarm[l], bit 1 = txc[l], bits 15:2 = 0 (R36, R137). -/
def Link.lstat (k : Link) : Word :=
  ((0 : BitVec 14) ++ BitVec.ofBool k.txc) ++ BitVec.ofBool k.txarm

/-- txc[l] ← 0; txarm[l] ← 1 (R136, R191). -/
def State.armLink (s : State) (l : LinkNo) : State :=
  s.modifyLink l fun k => { k with txc := false, txarm := true }

/-- txarm[l] ← 0: "disable transmit-ready interrupt and transmit enable" (R132). -/
def State.disarmLink (s : State) (l : LinkNo) : State :=
  s.modifyLink l fun k => { k with txarm := false }

/-- txc[l] ← 1 (R134). -/
def State.completeLink (s : State) (l : LinkNo) : State :=
  s.modifyLink l fun k => { k with txc := true }

/-- CHK's result: res[15:8] = cks, res[7:2] = 0, res[1] = sync_ok, res[0] = cks_ok (R153). -/
def chkWord (c : Byte) (syncOk cksOk : Bool) : Word :=
  c ++ ((0 : BitVec 6) ++ (BitVec.ofBool syncOk ++ BitVec.ofBool cksOk))

end Sys2Proof.Machine
end

