-- ==== Sys2Proof/Machine/RingBuffer.lean ====
section
/-! DEFINITION. Ring buffer commands (spec/40_ring_buffer.md): RINIT, TXW, RXRD, AVL, RXPK, RXDS. -/

namespace Sys2Proof.Machine

/-- RINIT l, r (R100). -/
def execRinit (l : LinkNo) (r : Dir) (s : State) : Host.Outcome State Fault Refusal :=
  whenLegal (.rinit l r) s (s.initRing l r).advance

/-- TXW l, b (R101): a full ring drops b silently. -/
def execTxw (l : LinkNo) (b : Byte) (s : State) : Host.Outcome State Fault Refusal :=
  whenLegal (.txw l b) s (s.pushByte l .tx b).advance

/-- `readByte()` into res: the sentinel zero, with tail unmoved, when the ring is empty (R102, D7). -/
def State.readIntoRes (s : State) (l : LinkNo) : State :=
  if s.empty l .rx then s.setRes 0
  else (s.consume l .rx 1).setRes (zext16 (s.readSlot l .rx (s.ring l .rx).tail))

/-- RXRD l (R102). -/
def execRxrd (l : LinkNo) (s : State) : Host.Outcome State Fault Refusal :=
  whenLegal (.rxrd l) s (s.readIntoRes l).advance

/-- AVL l, r (R103). -/
def execAvl (l : LinkNo) (r : Dir) (s : State) : Host.Outcome State Fault Refusal :=
  whenLegal (.avl l r) s (s.setRes (BitVec.ofNat 16 (s.avail l r))).advance

/-- RXPK l, d (R104). -/
def execRxpk (l : LinkNo) (d : BitVec 9) (s : State) : Host.Outcome State Fault Refusal :=
  whenLegal (.rxpk l d) s (s.setRes (zext16 (s.peek l (countOperand d)))).advance

/-- RXDS l, n (R105): not checked against avail. -/
def execRxds (l : LinkNo) (n : BitVec 9) (s : State) : Host.Outcome State Fault Refusal :=
  whenLegal (.rxds l n) s (s.consume l .rx (countOperand n)).advance

end Sys2Proof.Machine
end

