-- ==== Sys2Proof/Machine/SerialPort.lean ====
section
/-! DEFINITION. Serial port events and link control (spec/41_serial_port.md): RXEV, TXRDY, TXDONE, ARM, STAT. The effect of an event stands apart from its trace word, because in the open semantics the event happens without one (R204, R206). -/

namespace Sys2Proof.Machine

/-- A byte arrives on link l (R130): unconditional, dropped when the ring is full. -/
def State.byteArrives (s : State) (l : LinkNo) (b : Byte) : State := s.pushByte l .rx b

/-- The transmitter of link l is ready (R132): masked while disarmed, else one byte goes to the wire, or an empty ring disarms. -/
def State.transmitReady (s : State) (l : LinkNo) : State :=
  if (s.link l).txarm = false then s
  else if 0 < s.avail l .tx then
    (s.consume l .tx 1).send l (s.readSlot l .tx (s.ring l .tx).tail)
  else s.disarmLink l

/-- The transmitter of link l reports completion (R134). -/
def State.transmitComplete (s : State) (l : LinkNo) : State := s.completeLink l

/-- RXEV l, b as a word of a closed trace (R130). -/
def execRxev (l : LinkNo) (b : Byte) (s : State) : Host.Outcome State Fault Refusal :=
  whenLegal (.rxev l b) s (s.byteArrives l b).advance

/-- TXRDY l as a word of a closed trace (R132). -/
def execTxrdy (l : LinkNo) (s : State) : Host.Outcome State Fault Refusal :=
  whenLegal (.txrdy l) s (s.transmitReady l).advance

/-- TXDONE l as a word of a closed trace (R134). -/
def execTxdone (l : LinkNo) (s : State) : Host.Outcome State Fault Refusal :=
  whenLegal (.txdone l) s (s.transmitComplete l).advance

/-- ARM l (R136). -/
def execArm (l : LinkNo) (s : State) : Host.Outcome State Fault Refusal :=
  whenLegal (.arm l) s (s.armLink l).advance

/-- STAT l (R137). -/
def execStat (l : LinkNo) (s : State) : Host.Outcome State Fault Refusal :=
  whenLegal (.stat l) s (s.setRes (s.link l).lstat).advance

end Sys2Proof.Machine
end

