-- ==== Sys2Proof/Machine/FrameCodec.lean ====
section
/-! DEFINITION. Checksum validator and frame decoder (spec/42_frame_codec.md): pure functions of a 9-byte window (R150 to R152, R154), and CHK (R153). -/

namespace Sys2Proof.Machine

/-- The 9 bytes at offsets 0 to 8 of a frame (R70). -/
structure Window where
  b0 : Byte
  b1 : Byte
  b2 : Byte
  b3 : Byte
  b4 : Byte
  b5 : Byte
  b6 : Byte
  b7 : Byte
  b8 : Byte
deriving DecidableEq, Repr

/-- FRAME_LEN (R9). -/
def frameLen : Nat := 9

/-- SYNC_BYTE (R9). -/
def syncByte : Byte := 0xFF

/-- TEMP_OFFSET (R9). -/
def tempOffset : Int := 40

/-- The window whose offset k holds f k. -/
def windowOf (f : Nat → Byte) : Window := ⟨f 0, f 1, f 2, f 3, f 4, f 5, f 6, f 7, f 8⟩

/-- cks(w) = (0 - (w[1] + ... + w[7])) mod 256 (R150). -/
def cks (w : Window) : Byte :=
  BitVec.ofInt 8 (0 - ((w.b1.toNat + w.b2.toNat + w.b3.toNat + w.b4.toNat + w.b5.toNat +
    w.b6.toNat + w.b7.toNat : Nat) : Int))

/-- Checksum-valid: cks(w) == w[8] (R151). -/
def Window.cksOk (w : Window) : Bool := cks w == w.b8

/-- The sync test, which is the synchroniser's and not the codec's (R151, R170). -/
def Window.syncOk (w : Window) : Bool := w.b0 == syncByte

/-- co2 = (w[2] << 8) | w[3] (R152). -/
def Window.co2 (w : Window) : Word := (zext16 w.b2 <<< 8) ||| zext16 w.b3

/-- temp = w[4] - 40, an integer in -40..215 (R152). -/
def Window.temp (w : Window) : Int := (w.b4.toNat : Int) - tempOffset

/-- temp16 = (w[4] - 40) mod 65536 (R152). -/
def Window.temp16 (w : Window) : Word := BitVec.ofInt 16 w.temp

/-- decode(w) = if cks(w) == w[8] then Ok(co2, temp) else Fail (R152). -/
def decodeFrame (w : Window) : Option (Word × Word) :=
  if w.cksOk then some (w.co2, w.temp16) else none

/-- The window CHK sees: w[k] = peek(l, k), 0 beyond the contents (R153). -/
def State.peekWindow (s : State) (l : LinkNo) : Window := windowOf fun k => s.peek l k

/-- CHK l (R153). -/
def execChk (l : LinkNo) (s : State) : Host.Outcome State Fault Refusal :=
  whenLegal (.chk l) s
    (s.setRes (chkWord (cks (s.peekWindow l)) (s.peekWindow l).syncOk (s.peekWindow l).cksOk)).advance

end Sys2Proof.Machine
end

