-- ==== Sys2Proof/Machine/MessageSync.lean ====
section
/-! DEFINITION. The frame synchroniser (spec/43_message_sync.md): SSTEP, one pass of the loop body, and DRAIN, one iteration a step. -/

namespace Sys2Proof.Machine

/-- The outcome of one pass (R170). -/
inductive PassOutcome where
  | wait
  | nosync
  | badcks
  | accept
deriving DecidableEq, Repr

/-- The code of an outcome in res (R170, D9). -/
def passCode : PassOutcome → Word
  | .wait => 0
  | .nosync => 1
  | .badcks => 2
  | .accept => 3

/-- "window = peek bytes 0..8": w[k] is the byte at (tail + k) mod N (R170). -/
def State.syncWindow (s : State) (l : LinkNo) : Window :=
  windowOf fun k => s.readSlot l .rx ((s.ring l .rx).tail + k)

/-- One pass of the synchroniser on link l (R170). -/
def State.syncPass (s : State) (l : LinkNo) : State :=
  if s.avail l .rx < frameLen then s.setRes (passCode .wait)
  else if s.readSlot l .rx (s.ring l .rx).tail ≠ syncByte then
    (s.consume l .rx 1).setRes (passCode .nosync)
  else
    match decodeFrame (s.syncWindow l) with
    | none => (s.consume l .rx 1).setRes (passCode .badcks)
    | some (co2, temp) =>
      ((s.consume l .rx frameLen).emit l co2 temp).setRes (passCode .accept)

/-- SSTEP l (R170). -/
def execSstep (l : LinkNo) (s : State) : Host.Outcome State Fault Refusal :=
  whenLegal (.sstep l) s (s.syncPass l).advance

/-- One iteration of DRAIN: a pass, and tp moves on only when the pass answers WAIT (R171). -/
def State.drainPass (s : State) (l : LinkNo) : State :=
  if (s.syncPass l).res = passCode .wait then (s.syncPass l).advance else s.syncPass l

/-- DRAIN l (R171): one step is one iteration; tp stays on the word until the loop returns. -/
def execDrain (l : LinkNo) (s : State) : Host.Outcome State Fault Refusal :=
  whenLegal (.drain l) s (s.drainPass l)

end Sys2Proof.Machine
end

