-- ==== Sys2Proof/Machine/RequestEncoder.lean ====
section
/-! DEFINITION. The request encoder (spec/44_request_encoder.md): REQ on one sensor link and as a broadcast. -/

namespace Sys2Proof.Machine

/-- REQFRAME (R190). -/
def reqFrame : List Byte := [0xFF, 0x01, 0x86, 0x00, 0x00, 0x00, 0x00, 0x00, 0x79]

/-- Bytes written to the transmit ring of link l in order, each dropped if the ring is full (R101, R106). -/
def State.pushBytes (s : State) (l : LinkNo) (bs : List Byte) : State :=
  bs.foldl (fun t b => t.pushByte l .tx b) s

/-- The body of R191 on one sensor link: queue the frame, then arm. -/
def State.sendRequest (s : State) (l : LinkNo) : State := (s.pushBytes l reqFrame).armLink l

/-- The broadcast (R192): the body of R191 for l = 1, ..., K in increasing order; nothing when K = 0. -/
def State.requestAll (s : State) : State :=
  (sensorLinksOf s.cfg).foldl (fun t l => t.sendRequest l) s

/-- REQ l (R191), or the broadcast when l = 0 (R192). -/
def execReq (l : LinkNo) (s : State) : Host.Outcome State Fault Refusal :=
  whenLegal (.req l) s (if l = 0 then s.requestAll else s.sendRequest l).advance

end Sys2Proof.Machine
end

