-- ==== Sys2Proof/Machine/Dispatch.lean ====
section
/-! DEFINITION. One arm per instruction, each one call of its meaning. -/

namespace Sys2Proof.Machine

def exec (i : Instr) (s : State) : Host.Outcome State Fault Refusal :=
  match i with
  | .rinit l r => Sys2Proof.Machine.execRinit l r s
  | .txw l b => Sys2Proof.Machine.execTxw l b s
  | .rxrd l => Sys2Proof.Machine.execRxrd l s
  | .avl l r => Sys2Proof.Machine.execAvl l r s
  | .rxpk l d => Sys2Proof.Machine.execRxpk l d s
  | .rxds l n => Sys2Proof.Machine.execRxds l n s
  | .arm l => Sys2Proof.Machine.execArm l s
  | .sstep l => Sys2Proof.Machine.execSstep l s
  | .drain l => Sys2Proof.Machine.execDrain l s
  | .chk l => Sys2Proof.Machine.execChk l s
  | .stat l => Sys2Proof.Machine.execStat l s
  | .req l => Sys2Proof.Machine.execReq l s
  | .rxev l b => Sys2Proof.Machine.execRxev l b s
  | .txrdy l => Sys2Proof.Machine.execTxrdy l s
  | .txdone l => Sys2Proof.Machine.execTxdone l s

end Sys2Proof.Machine
end

