-- ==== Sys2Proof/Machine/Run.lean ====
section
/-! DEFINITION. Fetching a command word (R33, R216), the moves of the open semantics (R204, R206), and placing a word at the trace position. -/

namespace Sys2Proof.Machine

/-- The host's next step: the word at tp is decoded and run, or refused with its record (R201); with no word left the run has
ended (R216). In a closed trace the word may be an event. -/
def hostStep (s : State) : Host.Outcome State Fault Refusal :=
  match s.trace[s.tp]? with
  | none => .fault .runEnded
  | some w =>
    match decode s.cfg w with
    | .error why => raiseIllegal w why s
    | .ok i => exec i s

/-- Which moves may come next in the open semantics (R206): the host's while a word is left at tp, an arrival or a completion on
any configured link, and transmit-ready exactly while txarm[l] = 1 (R133, R203). Log 13. -/
def Move.enabled (m : Move) (s : State) : Bool :=
  match m with
  | .host => decide (s.tp < s.trace.length)
  | .byteArrived l _ => decide (l.val ≤ s.cfg.K)
  | .txReady l => decide (l.val ≤ s.cfg.K) && (s.link l).txarm
  | .txComplete l => decide (l.val ≤ s.cfg.K)

/-- What a move does. An event runs its handler as one step and leaves tp where it stood (R204). Log 12. -/
def performMove (m : Move) (s : State) : Host.Outcome State Fault Refusal :=
  match m with
  | .host => hostStep s
  | .byteArrived l b => .next (s.byteArrives l b)
  | .txReady l => .next (s.transmitReady l)
  | .txComplete l => .next (s.transmitComplete l)

/-- The first enabled choice of the list, and what is left after it; a choice that is not enabled is no step and is passed over.
With no choice left the host moves. Log 11. -/
def nextMove (s : State) : List Move → Move × List Move
  | [] => (.host, [])
  | m :: ms => if m.enabled s then (m, ms) else nextMove s ms

/-- One step of the open semantics (R206). -/
def openStep (s : State) : Host.Outcome State Fault Refusal :=
  performMove (nextMove s s.env).1 { s with env := (nextMove s s.env).2 }

/-- The trace with word w at position n; positions the trace does not reach are filled with the refused word 0x0000 (R80). -/
def placeWord : List Word → Nat → Word → List Word
  | [], 0, w => [w]
  | _ :: ws, 0, w => w :: ws
  | [], n + 1, w => 0 :: placeWord [] n w
  | x :: ws, n + 1, w => x :: placeWord ws n w

/-- The order of moves with the host's step put first where the semantics reads it. -/
def hostFirst (cfg : Config) (env : List Move) : List Move :=
  match cfg.semantics with
  | .closed => env
  | .concurrent => .host :: env

end Sys2Proof.Machine
end

