-- ==== Sys2Proof/Machine/Step.lean ====
section
/-! DEFINITION. One step of the machine under its run semantics (R206), and the host's way of placing the next word. -/

namespace Sys2Proof.Machine

/-- One step: the next word of a closed trace, or the next move of the open semantics (R206). -/
def step (s : State) : Host.Outcome State Fault Refusal :=
  match s.cfg.semantics with
  | .closed => hostStep s
  | .concurrent => openStep s

/-- s with the word whose low `nbits` bits are those of w at the trace position, which the very next step runs. Log 3, log 16. -/
def State.withFetchWord (s : State) (nbits w : Nat) : State :=
  { s with
    trace := placeWord s.trace s.tp (BitVec.ofNat 16 (w % 2 ^ nbits))
    env := hostFirst s.cfg s.env }

end Sys2Proof.Machine
end

