-- ==== Sys2Proof/Machine/Pseudo.lean ====
section
/-! DEFINITION. Pseudo-instructions (R83): each expands to real instructions, in order, and adds no behaviour. -/

namespace Sys2Proof.Machine

/-- The pseudo-instructions of R83. -/
inductive Pseudo where
  /-- WRS l, b0, ... (R106). -/
  | wrs (l : LinkNo) (bs : List Byte)
  /-- SEND l, b0, ...: WRS, then ARM. -/
  | send (l : LinkNo) (bs : List Byte)
  /-- INIT: both rings of every configured link, in increasing order. -/
  | init
  /-- RXS l, b0, ...: a burst of arrivals. -/
  | rxs (l : LinkNo) (bs : List Byte)
  /-- RXFRAME l, b1, ..., b7: a well-formed frame arriving. -/
  | rxframe (l : LinkNo) (b1 b2 b3 b4 b5 b6 b7 : Byte)
  /-- TXRUN l, k: k transmit-ready events. -/
  | txrun (l : LinkNo) (k : Nat)
deriving DecidableEq, Repr

/-- The well-formed frame with the given bytes at offsets 1 to 7 (R70, R73). -/
def frameOf (b1 b2 b3 b4 b5 b6 b7 : Byte) : Window :=
  ⟨syncByte, b1, b2, b3, b4, b5, b6, b7, cks ⟨syncByte, b1, b2, b3, b4, b5, b6, b7, 0⟩⟩

def Window.bytes (w : Window) : List Byte :=
  [w.b0, w.b1, w.b2, w.b3, w.b4, w.b5, w.b6, w.b7, w.b8]

/-- Every configured link 0..K in increasing order (R21). -/
def linksOf (cfg : Config) : List LinkNo :=
  ([0, 1, 2, 3] : List LinkNo).filter fun l => l.val ≤ cfg.K

/-- The expansion of R83. DESIGN CHOICE (log 18): with k = 0, which R83 neither allows nor forbids, WRS, RXS and TXRUN expand to no
word and SEND to ARM alone. -/
def Pseudo.expand (cfg : Config) : Pseudo → List Instr
  | .wrs l bs => bs.map (.txw l)
  | .send l bs => bs.map (.txw l) ++ [.arm l]
  | .init => (linksOf cfg).flatMap fun l => [.rinit l .rx, .rinit l .tx]
  | .rxs l bs => bs.map (.rxev l)
  | .rxframe l b1 b2 b3 b4 b5 b6 b7 => (frameOf b1 b2 b3 b4 b5 b6 b7).bytes.map (.rxev l)
  | .txrun l k => List.replicate k (.txrdy l)

end Sys2Proof.Machine
end

