-- ==== Sys2Proof/Safety.lean ====
section
/-! DEFINITION. The terms claims use: the invariants of a state, what a step leaves unchanged, sequences of instructions, and the infinite runs of the open semantics with their fairness. -/

namespace Sys2Proof.Machine

/-! Invariants. -/

/-- Both indices in 0..N-1 (R24, R25). -/
def Ring.Ok (n : Nat) (q : Ring) : Prop := q.head < n ∧ q.tail < n

/-- A reading the synchroniser can emit: channel 1..K (R31), temperature in -40..215 (R152). -/
def Reading.Ok (k : Nat) (x : Reading) : Prop :=
  1 ≤ x.channel.toNat ∧ x.channel.toNat ≤ k ∧ -40 ≤ x.temp.toInt ∧ x.temp.toInt ≤ 215

/-- What holds of every state a run reaches: indices in range (R24, R25), links above K as reset left them (R21), storage in
canonical form and inside RBMEM (R50), tp within the trace (R33), every reading in range (R31, R152). -/
structure State.Inv (s : State) : Prop where
  indices : ∀ l r, (s.ring l r).Ok s.cfg.N
  absent : ∀ l : LinkNo, s.cfg.K < l.val → s.link l = Link.init
  canonical : Memory.wf s.mem = true
  inside : ∀ c ∈ s.mem, c.1 < s.cfg.storageSize
  position : s.tp ≤ s.trace.length
  emitted : ∀ x ∈ s.readings, x.Ok s.cfg.K

/-- Every byte of every ring's contents has been written since reset, which the over-discard hazard of R234 breaks (R27, R34). -/
def State.Tidy (s : State) : Prop :=
  ∀ l r k, k < s.avail l r →
    (Memory.find s.mem (slotAddr s.cfg l r ((s.ring l r).tail + k))).isSome = true

/-- The over-discard of R234: RXDS with a count above avail. -/
def OverDiscards (i : Instr) (s : State) : Prop :=
  match i with
  | .rxds l n => s.avail l .rx < countOperand n
  | _ => False

/-- The next step executes the word at tp: always in a closed trace, and in the open semantics where the chosen move is the host's
(R206). -/
def HostStepsNext (s : State) : Prop := s.cfg.semantics = .concurrent → (nextMove s s.env).1 = .host

/-! Frames: what a step leaves unchanged. -/

/-- The parameters of the run and the model's own inputs (R38). -/
def SameParams (s t : State) : Prop :=
  t.cfg = s.cfg ∧ t.trace = s.trace ∧ t.env = s.env ∧ t.draw = s.draw

def SameBytes (s t : State) : Prop := ∀ a, t.readByte a = s.readByte a

/-- Every byte but those at the addresses listed. -/
def SameBytesBut (as : List Nat) (s t : State) : Prop := ∀ a, a ∉ as → t.readByte a = s.readByte a

def SameRings (s t : State) : Prop := ∀ k d, t.ring k d = s.ring k d

/-- Every ring's indices but those of ring (l, r). -/
def SameRingsBut (l : LinkNo) (r : Dir) (s t : State) : Prop :=
  ∀ k d, ¬(k = l ∧ d = r) → t.ring k d = s.ring k d

def SameFlags (s t : State) : Prop :=
  ∀ k, (t.link k).txarm = (s.link k).txarm ∧ (t.link k).txc = (s.link k).txc

def SameFlagsBut (l : LinkNo) (s t : State) : Prop :=
  ∀ k, k ≠ l → (t.link k).txarm = (s.link k).txarm ∧ (t.link k).txc = (s.link k).txc

def SameWires (s t : State) : Prop := ∀ k, (t.link k).wire = (s.link k).wire

def SameWiresBut (l : LinkNo) (s t : State) : Prop := ∀ k, k ≠ l → (t.link k).wire = (s.link k).wire

def SameReadings (s t : State) : Prop := t.readings = s.readings

def SameRes (s t : State) : Prop := t.res = s.res

/-- tp has moved to the next word (R33). -/
def NextPosition (s t : State) : Prop := t.tp = s.tp + 1

/-! Quantities of a ring. -/

/-- The free space N - 1 - avail(l, r) (R106, R191). -/
def State.free (s : State) (l : LinkNo) (r : Dir) : Nat := s.cfg.N - 1 - s.avail l r

/-- The addresses of the n slots from head onward, which n writes fill (R101, R191). -/
def State.slotsFromHead (s : State) (l : LinkNo) (r : Dir) (n : Nat) : List Nat :=
  (List.range n).map fun k => slotAddr s.cfg l r ((s.ring l r).head + k)

/-- The bytes an instruction offers to the transmit ring of link l (R101, R191); the broadcast offers none to link 0 (R192). -/
def offeredBytes (l : LinkNo) : Instr → List Byte
  | .txw k b => if k = l then [b] else []
  | .req k => if l ≠ 0 ∧ (k = l ∨ k = 0) then reqFrame else []
  | _ => []

/-- The window at offset k of a byte string (R71). -/
def windowAt (bs : List Byte) (k : Nat) : Window := windowOf fun j => bs.getD (k + j) 0

/-- The synchroniser accepts this window (R170, R173). -/
def Window.accepted (w : Window) : Prop := w.b0 = 0xFF ∧ cks w = w.b8

/-! Sequences of instructions. -/

/-- The instructions of a list in order, stopping at the first that does not answer a next state. -/
def execAll : List Instr → State → Host.Outcome State Fault Refusal
  | [], s => .next s
  | i :: is, s =>
    match exec i s with
    | .next t => execAll is t
    | .fault f => .fault f
    | .refused f => .refused f

/-! Infinite runs of the open semantics (R206, R207). -/

/-- The states f of a run and what happens between them: a move that is enabled where it is made, or nothing. "Nothing forces a byte to
arrive or a `TXDONE` to occur" (R207), so a run may come to rest; the form is the model's choice (log 20). -/
def IsOpenRun (f : Nat → State) (m : Nat → Option Move) : Prop :=
  ∀ n, (f n).cfg.semantics = .concurrent ∧
    match m n with
    | none => f (n + 1) = f n
    | some x => x.enabled (f n) = true ∧ performMove x (f n) = .next (f (n + 1))

/-- The fairness of R207: while the host has a word left a host step eventually occurs, and while txarm[l] stays 1 a transmit-ready
step of link l eventually occurs. -/
def IsFair (f : Nat → State) (m : Nat → Option Move) : Prop :=
  (∀ n, (∀ k, n ≤ k → (f k).tp < (f k).trace.length) → ∃ k, n ≤ k ∧ m k = some .host) ∧
  ∀ n l, l.val ≤ (f n).cfg.K → (∀ k, n ≤ k → ((f k).link l).txarm = true) →
    ∃ k, n ≤ k ∧ m k = some (.txReady l)

/-- The link an event of the open semantics belongs to; the host's step belongs to none. -/
def Move.linkOf : Move → Option LinkNo
  | .host => none
  | .byteArrived l _ => some l
  | .txReady l => some l
  | .txComplete l => some l

/-- The trace word of an event (R203); the host's step has none of its own. -/
def Move.word : Move → Option Instr
  | .host => none
  | .byteArrived l b => some (.rxev l b)
  | .txReady l => some (.txrdy l)
  | .txComplete l => some (.txdone l)

/-- The same state under the closed semantics, where the words of events are legal (R79, R206). -/
def State.asClosed (s : State) : State := { s with cfg := { s.cfg with semantics := .closed } }

/-- Instruction i takes s to t: as a word that is executed, or, for an event, as a move of the open semantics (R203, R206). -/
def Takes (i : Instr) (s t : State) : Prop :=
  exec i s = .next t ∨ ∃ m : Move, m.word = some i ∧ performMove m s = .next t

end Sys2Proof.Machine
end

