-- ==== Sys2Proof/Certificates/Slice0/Obligations.lean ====
section
/-! DEFINITION. The statements for the provers, from the numbered rules of spec/. -/

open Sys2Proof Sys2Proof.Machine

/-! ## Reset and invariants -/

/-- R39, R230, R231: what reset leaves in every component the spec gives it, for every configuration, trace, order of moves and draw,
and for reset as a step. That a storage byte is the free value of the draw is the model's form of "unspecified" (log 6, log 7), and
reset as a step of its own is DEDUCED (log 19); nothing is stated of the bytes' value. -/
def Obligations.ResetLeavesRuleValues : Prop :=
  ∀ s : State, ((∃ cfg trace env draw, s = State.resetWith cfg trace env draw) ∨ ∃ u, s = resetStep u) →
    (∀ l r, l.val ≤ s.cfg.K → (s.ring l r).head = 0 ∧ (s.ring l r).tail = 0) ∧
    (∀ l, l.val ≤ s.cfg.K → (s.link l).txarm = false ∧ (s.link l).txc = false ∧ (s.link l).lstat = 0 ∧
      (s.link l).wire = []) ∧
    s.res = 0 ∧ s.readings = [] ∧ s.tp = 0 ∧
    (∀ a, a < s.cfg.storageSize → s.readByte a = Config.freeStorage s.draw a) ∧
    (∀ l b, (Move.byteArrived l b).enabled s = true ↔ l.val ≤ s.cfg.K) ∧
    ∀ l, (Move.txReady l).enabled s = false

/-- The invariants hold at reset, under every configuration, trace, order of moves and draw (R39, R230). That links above K have a
place in State is the model's choice (log 9). -/
def Obligations.ResetMeetsInvariants : Prop :=
  ∀ cfg trace env draw, (State.resetWith cfg trace env draw).Inv ∧ (State.resetWith cfg trace env draw).Tidy

/-- Every step keeps the invariant: indices in 0..N-1 (R24, R25), links above K as reset left them (R21), storage canonical and
inside RBMEM (R50), tp within the trace (R33), readings in range (R31, R152). That links above K have a place in State, and
the form of storage, are the model's choices (log 9, log 6). -/
def Obligations.StepKeepsInvariant : Prop :=
  ∀ s t : State, s.Inv → step s = .next t → t.Inv

/-- No step writes the configuration, the trace or the draw; the order of moves is only consumed, and only in the open semantics
(R36, R38, R63). The fields env and draw are the model's choice (log 11, log 7). -/
def Obligations.StepKeepsParameters : Prop :=
  ∀ s t : State, step s = .next t →
    t.cfg = s.cfg ∧ t.trace = s.trace ∧ t.draw = s.draw ∧ t.env <:+ s.env ∧
      (s.cfg.semantics = .closed → t.env = s.env)

/-! ## Encoding -/

/-- Decoding the word of a legal instruction gives it back, every operand at every value (R75 to R79). -/
def Obligations.DecodeOfEncode : Prop :=
  ∀ (cfg : Config) (i : Instr), i.WellFormed cfg → decode cfg (encode i) = .ok i

/-- A word that decodes is the word of its instruction, which the configuration admits (R76, R79, R80). -/
def Obligations.EncodeOfDecode : Prop :=
  ∀ (cfg : Config) (w : Word) (i : Instr), decode cfg w = .ok i → encode i = w ∧ i.WellFormed cfg

/-- R75: the word is w = (op << 12) | (l << 10) | (r << 9) | imm9. -/
def Obligations.WordPacksItsFields : Prop :=
  ∀ i : Instr, encode i =
    (i.op.code.setWidth 16 <<< 12) ||| (BitVec.ofNat 16 i.link.val <<< 10) |||
      (i.dirBit.setWidth 16 <<< 9) ||| i.imm.setWidth 16

/-- R78, with R79 and R206: a word decodes as an operation exactly when it fits the row's match and mask (R78), its link check passes
(R76), and, for an event, the semantics is closed (R79, R206). -/
def Obligations.MatchMaskDecidesLegality : Prop :=
  ∀ (cfg : Config) (w : Word) (op : Op),
    (∃ i, decode cfg w = .ok i ∧ i.op = op) ↔
      (w &&& op.mask = op.pattern ∧ ((w >>> 10) &&& 3).toNat ≤ cfg.K ∧
        (op.needsSensor = true → ((w >>> 10) &&& 3).toNat ≠ 0) ∧
        (op.isEvent = true → cfg.semantics = .closed))

/-- R202: the words of each refusal reason, and the record of a refused word. -/
def Obligations.RefusalReasonsOfWords : Prop :=
  (∀ (cfg : Config) (w : Word),
    (decode cfg w = .error .reservedOpcode ↔ w.toNat < 0x1000) ∧
    (decode cfg w = .error .nonzeroReservedField ↔
      0x1000 ≤ w.toNat ∧ (∀ op : Op, w &&& op.mask ≠ op.pattern) ∧
        ¬(w &&& 0xF300 = 0x2100 ∨ w &&& 0xF300 = 0xD100)) ∧
    (decode cfg w = .error .byteOperandTooWide ↔ (w &&& 0xF300 = 0x2100 ∨ w &&& 0xF300 = 0xD100)) ∧
    (decode cfg w = .error .linkNotConfigured ↔
      (∃ op : Op, w &&& op.mask = op.pattern) ∧ cfg.K < ((w >>> 10) &&& 3).toNat) ∧
    (decode cfg w = .error .linkNotSensor ↔ (w = 0x8000 ∨ w = 0x9000)) ∧
    (decode cfg w = .error .eventInHostProgram ↔
      cfg.semantics = .concurrent ∧ ((w >>> 10) &&& 3).toNat ≤ cfg.K ∧
        ∃ op : Op, op.isEvent = true ∧ w &&& op.mask = op.pattern)) ∧
  ([RefusalReason.reservedOpcode, .nonzeroReservedField, .byteOperandTooWide, .linkNotConfigured,
    .linkNotSensor, .eventInHostProgram].map RefusalReason.code = [1, 2, 3, 4, 5, 6]) ∧
  ∀ (s : State) (w : Word) (why : RefusalReason), s.trace[s.tp]? = some w →
    decode s.cfg w = .error why → hostStep s = .refused (.illegalCommand w s.tp why)

/-- A few words written out from the encodings of the spec, with what they decode to (R82 and the vectors D-1 to D-23). -/
def Obligations.SampleWordsDecode : Prop :=
  decode Config.default 0x1600 = .ok (.rinit 1 .tx) ∧
  decode Config.default 0x2035 = .ok (.txw 0 0x35) ∧
  decode Config.default 0x55FF = .ok (.rxpk 1 511) ∧
  decode Config.default 0xC000 = .ok (.req 0) ∧
  decode Config.default 0xD4FF = .ok (.rxev 1 0xFF) ∧
  decode Config.default 0xE800 = .ok (.txrdy 2) ∧
  decode Config.default 0x2300 = .error .nonzeroReservedField ∧
  decode Config.default 0x8000 = .error .linkNotSensor

/-! ## The step -/

/-- A step runs the decoded instruction: the word at tp, in a closed trace or when the host moves next in the open semantics (the
list of moves is the model's choice, log 11). -/
def Obligations.StepRunsDecodedWord : Prop :=
  ∀ (s : State) (w : Word) (i : Instr), s.trace[s.tp]? = some w → decode s.cfg w = .ok i →
    (s.cfg.semantics = .closed → step s = exec i s) ∧
    ∀ ms, s.cfg.semantics = .concurrent → s.env = .host :: ms → step s = exec i { s with env := ms }

/-- R201: a refused word ends the run in the refused state with its record, however many steps are asked for. That the refused
state is the terminal outcome, and the list of moves, are the model's choices (log 5, log 11). -/
def Obligations.IllegalWordEndsTheRun : Prop :=
  ∀ (s : State) (w : Word) (why : RefusalReason), s.trace[s.tp]? = some w → decode s.cfg w = .error why →
    (s.cfg.semantics = .closed → ∀ k, Sys2Proof.core.run (k + 1) s = .refused (.illegalCommand w s.tp why)) ∧
    ∀ ms, s.cfg.semantics = .concurrent → s.env = .host :: ms →
      ∀ k, Sys2Proof.core.run (k + 1) s = .refused (.illegalCommand w s.tp why)

/-- R33, R216: a run stops without a refusal exactly when no word is left at tp and, in the open semantics, no event that may come
next is chosen. That the stop is named `runEnded`, and the list of moves, are the model's choices (log 4, log 11); that in the
open semantics events may still come after the host's last word is DEDUCED (log 13). -/
def Obligations.RunEndsWithTheTrace : Prop :=
  ∀ s : State, step s = .fault .runEnded ↔
    (s.trace.length ≤ s.tp ∧
      (s.cfg.semantics = .closed ∨ ∀ m ∈ s.env, m.enabled s = false))

/-- R79, R201: an instruction the configuration does not admit is refused by its meaning, with the first reason that applies
(log 10). -/
def Obligations.ExecRefusesInadmissible : Prop :=
  ∀ (s : State) (i : Instr),
    (s.cfg.K < i.link.val → exec i s = .refused (.illegalCommand (encode i) s.tp .linkNotConfigured)) ∧
    (i.link.val ≤ s.cfg.K → i.op.needsSensor = true → i.link = 0 →
      exec i s = .refused (.illegalCommand (encode i) s.tp .linkNotSensor)) ∧
    (i.link.val ≤ s.cfg.K → i.op.isEvent = true → s.cfg.semantics = .concurrent →
      exec i s = .refused (.illegalCommand (encode i) s.tp .eventInHostProgram))

/-- R200: a command word that decodes never faults. -/
def Obligations.DecodedWordNeverFaults : Prop :=
  ∀ (s : State) (w : Word) (i : Instr), decode s.cfg w = .ok i → ∃ t, exec i s = .next t

/-! ## Ring buffer commands -/

/-- R100: `RINIT l, r`. -/
def Obligations.RinitResetsIndices : Prop :=
  ∀ (s : State) (l : LinkNo) (r : Dir),
    encode (.rinit l r) &&& 0xF1FF = 0x1000 ∧
    ((Instr.rinit l r).WellFormed s.cfg → ∃ t, exec (.rinit l r) s = .next t ∧
      (t.ring l r).head = 0 ∧ (t.ring l r).tail = 0 ∧ t.contents l r = [] ∧
      SameRingsBut l r s t ∧ SameBytes s t ∧ SameFlags s t ∧ SameWires s t ∧ SameReadings s t ∧
      SameRes s t ∧ NextPosition s t ∧ SameParams s t)

/-- R101: `TXW l, b` stores at head and advances head, or drops b when the ring is full. -/
def Obligations.TxwStoresOrDrops : Prop :=
  ∀ (s : State) (l : LinkNo) (b : Byte),
    encode (.txw l b) &&& 0xF300 = 0x2000 ∧ (encode (.txw l b)).extractLsb' 0 8 = b ∧
    ((Instr.txw l b).WellFormed s.cfg → ∃ t, exec (.txw l b) s = .next t ∧
      (if ((s.ring l .tx).head + 1) % s.cfg.N = (s.ring l .tx).tail then
        SameRings s t ∧ SameBytes s t
      else
        (t.ring l .tx).head = ((s.ring l .tx).head + 1) % s.cfg.N ∧
        (t.ring l .tx).tail = (s.ring l .tx).tail ∧ SameRingsBut l .tx s t ∧
        t.readByte (slotAddr s.cfg l .tx (s.ring l .tx).head) = b ∧
        SameBytesBut [slotAddr s.cfg l .tx (s.ring l .tx).head] s t) ∧
      SameFlags s t ∧ SameWires s t ∧ SameReadings s t ∧ SameRes s t ∧ NextPosition s t ∧ SameParams s t)

/-- R102: `RXRD l` reads and consumes the oldest byte, or gives the sentinel zero with tail unmoved. -/
def Obligations.RxrdReadsOrGivesSentinel : Prop :=
  ∀ (s : State) (l : LinkNo),
    encode (.rxrd l) &&& 0xF3FF = 0x3000 ∧
    ((Instr.rxrd l).WellFormed s.cfg → ∃ t, exec (.rxrd l) s = .next t ∧
      (if (s.ring l .rx).head = (s.ring l .rx).tail then t.res = 0 ∧ SameRings s t
      else
        t.res = (s.readByte (slotAddr s.cfg l .rx (s.ring l .rx).tail)).setWidth 16 ∧
        (t.ring l .rx).head = (s.ring l .rx).head ∧
        (t.ring l .rx).tail = ((s.ring l .rx).tail + 1) % s.cfg.N ∧ SameRingsBut l .rx s t) ∧
      SameBytes s t ∧ SameFlags s t ∧ SameWires s t ∧ SameReadings s t ∧ NextPosition s t ∧ SameParams s t)

/-- R103: `AVL l, r` gives (head - tail) mod N, which 16 bits hold. -/
def Obligations.AvlCountsTheRing : Prop :=
  ∀ (s : State) (l : LinkNo) (r : Dir),
    encode (.avl l r) &&& 0xF1FF = 0x4000 ∧
    ((Instr.avl l r).WellFormed s.cfg → ∃ t, exec (.avl l r) s = .next t ∧
      (t.res.toNat : Int) = (((s.ring l r).head : Int) - (s.ring l r).tail) % s.cfg.N ∧
      t.res.toNat ≤ s.cfg.N - 1 ∧
      SameRings s t ∧ SameBytes s t ∧ SameFlags s t ∧ SameWires s t ∧ SameReadings s t ∧
      NextPosition s t ∧ SameParams s t)

/-- R104: `RXPK l, d` reads the byte d places after tail without consuming, or gives the sentinel zero. -/
def Obligations.RxpkPeeksWithoutConsuming : Prop :=
  ∀ (s : State) (l : LinkNo) (d : BitVec 9),
    encode (.rxpk l d) &&& 0xF200 = 0x5000 ∧ (encode (.rxpk l d)).extractLsb' 0 9 = d ∧
    ((Instr.rxpk l d).WellFormed s.cfg → ∃ t, exec (.rxpk l d) s = .next t ∧
      t.res = (if (((s.ring l .rx).head : Int) - (s.ring l .rx).tail) % s.cfg.N ≤ d.toNat then 0
        else (s.readByte (slotAddr s.cfg l .rx ((s.ring l .rx).tail + d.toNat))).setWidth 16) ∧
      SameRings s t ∧ SameBytes s t ∧ SameFlags s t ∧ SameWires s t ∧ SameReadings s t ∧
      NextPosition s t ∧ SameParams s t)

/-- R105: `RXDS l, n` moves tail by n modulo N, with no check against avail. -/
def Obligations.RxdsMovesTailUnchecked : Prop :=
  ∀ (s : State) (l : LinkNo) (n : BitVec 9),
    encode (.rxds l n) &&& 0xF200 = 0x6000 ∧ (encode (.rxds l n)).extractLsb' 0 9 = n ∧
    ((Instr.rxds l n).WellFormed s.cfg → ∃ t, exec (.rxds l n) s = .next t ∧
      (t.ring l .rx).tail = ((s.ring l .rx).tail + n.toNat) % s.cfg.N ∧
      (t.ring l .rx).head = (s.ring l .rx).head ∧ SameRingsBut l .rx s t ∧
      SameBytes s t ∧ SameFlags s t ∧ SameWires s t ∧ SameReadings s t ∧ SameRes s t ∧
      NextPosition s t ∧ SameParams s t)

/-- R234: after a discard of any n, avail is (avail - n) mod N: an over-discard makes the count wrap. -/
def Obligations.OverDiscardWrapsTheCount : Prop :=
  ∀ (s : State) (l : LinkNo) (n : BitVec 9), (Instr.rxds l n).WellFormed s.cfg →
    ∃ t, exec (.rxds l n) s = .next t ∧
      (t.avail l .rx : Int) = ((s.avail l .rx : Int) - n.toNat) % s.cfg.N ∧
      (s.avail l .rx < n.toNat → n.toNat ≤ s.cfg.N → s.avail l .rx < t.avail l .rx ∨ n.toNat = s.cfg.N)

/-! ## Serial port events and transmit control -/

/-- R130: `RXEV l, b` stores at head and advances head, or drops b silently when the ring is full. -/
def Obligations.RxevStoresOrDrops : Prop :=
  ∀ (s : State) (l : LinkNo) (b : Byte),
    encode (.rxev l b) &&& 0xF300 = 0xD000 ∧ (encode (.rxev l b)).extractLsb' 0 8 = b ∧
    ((Instr.rxev l b).WellFormed s.cfg → ∃ t, exec (.rxev l b) s = .next t ∧
      (if ((s.ring l .rx).head + 1) % s.cfg.N = (s.ring l .rx).tail then
        SameRings s t ∧ SameBytes s t
      else
        (t.ring l .rx).head = ((s.ring l .rx).head + 1) % s.cfg.N ∧
        (t.ring l .rx).tail = (s.ring l .rx).tail ∧ SameRingsBut l .rx s t ∧
        t.readByte (slotAddr s.cfg l .rx (s.ring l .rx).head) = b ∧
        SameBytesBut [slotAddr s.cfg l .rx (s.ring l .rx).head] s t) ∧
      SameFlags s t ∧ SameWires s t ∧ SameReadings s t ∧ SameRes s t ∧ NextPosition s t ∧ SameParams s t)

/-- R132: `TXRDY l` does nothing while disarmed, and is then no step of the open semantics; else it sends the oldest byte, or
disarms on an empty ring. -/
def Obligations.TxrdySendsOrDisarms : Prop :=
  ∀ (s : State) (l : LinkNo),
    encode (.txrdy l) &&& 0xF3FF = 0xE000 ∧
    ((s.link l).txarm = false → (Move.txReady l).enabled s = false) ∧
    ((Instr.txrdy l).WellFormed s.cfg → ∃ t, exec (.txrdy l) s = .next t ∧
      (if (s.link l).txarm = false then SameRings s t ∧ SameFlags s t ∧ SameWires s t
      else if 0 < (((s.ring l .tx).head : Int) - (s.ring l .tx).tail) % s.cfg.N then
        (t.link l).wire = (s.link l).wire ++ [s.readByte (slotAddr s.cfg l .tx (s.ring l .tx).tail)] ∧
        (t.ring l .tx).tail = ((s.ring l .tx).tail + 1) % s.cfg.N ∧
        (t.ring l .tx).head = (s.ring l .tx).head ∧ SameRingsBut l .tx s t ∧
        SameFlags s t ∧ SameWiresBut l s t
      else
        (t.link l).txarm = false ∧ (t.link l).txc = (s.link l).txc ∧
        SameFlagsBut l s t ∧ SameRings s t ∧ SameWires s t) ∧
      SameBytes s t ∧ SameReadings s t ∧ SameRes s t ∧ NextPosition s t ∧ SameParams s t)

/-- R134: `TXDONE l` sets txc[l]. -/
def Obligations.TxdoneSetsTransmitComplete : Prop :=
  ∀ (s : State) (l : LinkNo),
    encode (.txdone l) &&& 0xF3FF = 0xF000 ∧
    ((Instr.txdone l).WellFormed s.cfg → ∃ t, exec (.txdone l) s = .next t ∧
      (t.link l).txc = true ∧ (t.link l).txarm = (s.link l).txarm ∧ SameFlagsBut l s t ∧
      SameRings s t ∧ SameBytes s t ∧ SameWires s t ∧ SameReadings s t ∧ SameRes s t ∧
      NextPosition s t ∧ SameParams s t)

/-- R136: `ARM l` clears txc[l] and sets txarm[l], armed before or not. -/
def Obligations.ArmClearsAndArms : Prop :=
  ∀ (s : State) (l : LinkNo),
    encode (.arm l) &&& 0xF3FF = 0x7000 ∧
    ((Instr.arm l).WellFormed s.cfg → ∃ t, exec (.arm l) s = .next t ∧
      (t.link l).txc = false ∧ (t.link l).txarm = true ∧ SameFlagsBut l s t ∧
      SameRings s t ∧ SameBytes s t ∧ SameWires s t ∧ SameReadings s t ∧ SameRes s t ∧
      NextPosition s t ∧ SameParams s t)

/-- R137, R36: `STAT l` reads LSTAT[l]: bit 0 is txarm, bit 1 is txc, bits 15:2 are 0. -/
def Obligations.StatReadsLinkStatus : Prop :=
  ∀ (s : State) (l : LinkNo),
    encode (.stat l) &&& 0xF3FF = 0xB000 ∧
    ((Instr.stat l).WellFormed s.cfg → ∃ t, exec (.stat l) s = .next t ∧
      t.res.getLsbD 0 = (s.link l).txarm ∧ t.res.getLsbD 1 = (s.link l).txc ∧ t.res >>> 2 = 0 ∧
      SameFlags s t ∧ SameRings s t ∧ SameBytes s t ∧ SameWires s t ∧ SameReadings s t ∧
      NextPosition s t ∧ SameParams s t)

/-! ## Checksum validator and frame decoder -/

/-- R150: the checksum as the spec's formula over the integers. -/
def Obligations.ChecksumIsNegatedSum : Prop :=
  ∀ w : Window, ((cks w).toNat : Int) =
    (0 - ((w.b1.toNat : Int) + w.b2.toNat + w.b3.toNat + w.b4.toNat + w.b5.toNat + w.b6.toNat +
      w.b7.toNat)) % 256

/-- R151: valid exactly when cks(w) = w[8], equivalently when offsets 1 to 8 sum to 0 mod 256; offset 0 is not read. -/
def Obligations.ValidIffSumIsZero : Prop :=
  ∀ w : Window,
    ((decodeFrame w).isSome = true ↔ cks w = w.b8) ∧
    (cks w = w.b8 ↔ (w.b1.toNat + w.b2.toNat + w.b3.toNat + w.b4.toNat + w.b5.toNat + w.b6.toNat +
      w.b7.toNat + w.b8.toNat) % 256 = 0) ∧
    ∀ b : Byte, decodeFrame { w with b0 := b } = decodeFrame w

/-- R152: the fields of a valid window, and nothing from an invalid one. -/
def Obligations.DecodeExtractsFields : Prop :=
  ∀ w : Window,
    (cks w = w.b8 → ∃ co2 temp, decodeFrame w = some (co2, temp) ∧
      co2.toNat = w.b2.toNat * 256 + w.b3.toNat ∧
      temp.toInt = (w.b4.toNat : Int) - 40 ∧ (temp.toNat : Int) = ((w.b4.toNat : Int) - 40) % 65536) ∧
    (cks w ≠ w.b8 → decodeFrame w = none)

/-- R155: any single change at offsets 1 to 8 of a valid window is detected; a change of offset 0 fails the sync test. Two changes at
any two of the offsets 1 to 8 that cancel are not detected, nor is any reordering of offsets 1 to 7. -/
def Obligations.SingleCorruptionIsDetected : Prop :=
  (∀ (w : Window) (b : Byte), w.accepted →
    (b ≠ w.b0 → ¬Window.accepted { w with b0 := b }) ∧
    (b ≠ w.b1 → ¬Window.accepted { w with b1 := b }) ∧
    (b ≠ w.b2 → ¬Window.accepted { w with b2 := b }) ∧
    (b ≠ w.b3 → ¬Window.accepted { w with b3 := b }) ∧
    (b ≠ w.b4 → ¬Window.accepted { w with b4 := b }) ∧
    (b ≠ w.b5 → ¬Window.accepted { w with b5 := b }) ∧
    (b ≠ w.b6 → ¬Window.accepted { w with b6 := b }) ∧
    (b ≠ w.b7 → ¬Window.accepted { w with b7 := b }) ∧
    (b ≠ w.b8 → ¬Window.accepted { w with b8 := b })) ∧
  (∀ (f : Nat → Byte) (j k : Nat) (d : Byte), 1 ≤ j → j ≤ 8 → 1 ≤ k → k ≤ 8 → j ≠ k → (windowOf f).accepted →
    (windowOf fun n => if n = j then f n + d else if n = k then f n - d else f n).accepted) ∧
  ∀ w v : Window, w.accepted → v.b0 = w.b0 → v.b8 = w.b8 →
    [v.b1, v.b2, v.b3, v.b4, v.b5, v.b6, v.b7].Perm [w.b1, w.b2, w.b3, w.b4, w.b5, w.b6, w.b7] → v.accepted

/-- R153: `CHK l` reports the validator on the peeked window and consumes nothing. -/
def Obligations.ChkReportsTheValidator : Prop :=
  ∀ (s : State) (l : LinkNo),
    encode (.chk l) &&& 0xF3FF = 0xA000 ∧
    ((Instr.chk l).WellFormed s.cfg → ∃ t w, exec (.chk l) s = .next t ∧
      w = windowOf (fun k => if (((s.ring l .rx).head : Int) - (s.ring l .rx).tail) % s.cfg.N ≤ k then 0
        else s.readByte (slotAddr s.cfg l .rx ((s.ring l .rx).tail + k))) ∧
      t.res.extractLsb' 8 8 = cks w ∧ t.res.extractLsb' 2 6 = 0 ∧
      (t.res.getLsbD 1 = true ↔ w.b0 = 0xFF) ∧ (t.res.getLsbD 0 = true ↔ cks w = w.b8) ∧
      SameRings s t ∧ SameBytes s t ∧ SameFlags s t ∧ SameWires s t ∧ SameReadings s t ∧
      NextPosition s t ∧ SameParams s t)

/-! ## Frame synchroniser -/

/-- R170: `SSTEP l`, with the four outcomes in the rule's order. -/
def Obligations.SstepFollowsTheLoopBody : Prop :=
  ∀ (s : State) (l : LinkNo),
    encode (.sstep l) &&& 0xF3FF = 0x8000 ∧
    ((Instr.sstep l).WellFormed s.cfg → ∃ t w, exec (.sstep l) s = .next t ∧
      w = windowOf (fun k => s.readByte (slotAddr s.cfg l .rx ((s.ring l .rx).tail + k))) ∧
      (if (((s.ring l .rx).head : Int) - (s.ring l .rx).tail) % s.cfg.N < 9 then
        t.res = 0 ∧ SameRings s t ∧ SameReadings s t
      else if w.b0 ≠ 0xFF then
        t.res = 1 ∧ (t.ring l .rx).tail = ((s.ring l .rx).tail + 1) % s.cfg.N ∧
        (t.ring l .rx).head = (s.ring l .rx).head ∧ SameRingsBut l .rx s t ∧ SameReadings s t
      else if cks w ≠ w.b8 then
        t.res = 2 ∧ (t.ring l .rx).tail = ((s.ring l .rx).tail + 1) % s.cfg.N ∧
        (t.ring l .rx).head = (s.ring l .rx).head ∧ SameRingsBut l .rx s t ∧ SameReadings s t
      else
        t.res = 3 ∧ (t.ring l .rx).tail = ((s.ring l .rx).tail + 9) % s.cfg.N ∧
        (t.ring l .rx).head = (s.ring l .rx).head ∧ SameRingsBut l .rx s t ∧
        ∃ x : Reading, t.readings = s.readings ++ [x] ∧ x.channel.toNat = l.val ∧
          x.co2.toNat = w.b2.toNat * 256 + w.b3.toNat ∧
          (x.temp.toNat : Int) = ((w.b4.toNat : Int) - 40) % 65536) ∧
      SameBytes s t ∧ SameFlags s t ∧ SameWires s t ∧ NextPosition s t ∧ SameParams s t)

/-- R171: one step of `DRAIN l` is one SSTEP, and tp moves on exactly when that pass answers WAIT. -/
def Obligations.DrainStepIsOnePass : Prop :=
  ∀ (s : State) (l : LinkNo),
    encode (.drain l) &&& 0xF3FF = 0x9000 ∧
    ((Instr.drain l).WellFormed s.cfg → ∃ u, exec (.sstep l) s = .next u ∧
      exec (.drain l) s = .next (if u.res = 0 then u else { u with tp := s.tp }))

/-- R171 (a), (c): in a closed trace DRAIN returns after at most max(avail - 8, 0) + 1 iterations, with res = 0, at most 8 bytes
kept, and what is kept is the end of what was buffered. -/
def Obligations.DrainReturnsWithinBound : Prop :=
  ∀ (s : State) (l : LinkNo) (w : Word), s.cfg.semantics = .closed → s.trace[s.tp]? = some w →
    decode s.cfg w = .ok (.drain l) → (s.ring l .rx).Ok s.cfg.N →
    ∃ n t, 1 ≤ n ∧ n ≤ (s.avail l .rx - 8) + 1 ∧ Sys2Proof.core.run n s = .next t ∧
      t.tp = s.tp + 1 ∧ t.res = 0 ∧ t.avail l .rx ≤ 8 ∧ t.contents l .rx <:+ s.contents l .rx

/-- R172: a pass takes one byte or one accepted frame from the front of the contents, or waits. -/
def Obligations.PassConsumesOneByteOrOneFrame : Prop :=
  ∀ (s : State) (l : LinkNo), (Instr.sstep l).WellFormed s.cfg → (s.ring l .rx).Ok s.cfg.N →
    ∃ t, exec (.sstep l) s = .next t ∧ (t.ring l .rx).Ok s.cfg.N ∧
      (((s.contents l .rx).length < 9 ∧ t.contents l .rx = s.contents l .rx ∧ t.readings = s.readings) ∨
       (9 ≤ (s.contents l .rx).length ∧ ¬(windowAt (s.contents l .rx) 0).accepted ∧
         (∃ b, s.contents l .rx = b :: t.contents l .rx) ∧ t.readings = s.readings) ∨
       (∃ w : Window, w.accepted ∧ s.contents l .rx = w.bytes ++ t.contents l .rx ∧
         t.readings = s.readings ++ [⟨BitVec.ofNat 8 l.val, w.co2, w.temp16⟩]))

/-- R173, E8: a corrupted frame X followed by a valid frame V, with no window at offsets 1 to 8 accepted, is walked past byte by
byte, and DRAIN emits exactly V. -/
def Obligations.CorruptedFrameIsWalkedPast : Prop :=
  ∀ (s : State) (l : LinkNo) (w : Word) (X V : Window) (rest : List Byte),
    s.cfg.semantics = .closed → s.trace[s.tp]? = some w → decode s.cfg w = .ok (.drain l) →
    (s.ring l .rx).Ok s.cfg.N → s.contents l .rx = X.bytes ++ V.bytes ++ rest → rest.length ≤ 8 →
    (∀ k, k ≤ 8 → ¬(windowAt (X.bytes ++ V.bytes) k).accepted) → V.accepted →
    ∃ t, Sys2Proof.core.run 11 s = .next t ∧ t.tp = s.tp + 1 ∧ t.res = 0 ∧ t.contents l .rx = rest ∧
      t.readings = s.readings ++ [⟨BitVec.ofNat 8 l.val, V.co2, V.temp16⟩]

/-- R174: a pass on link l reads nothing but that link's receive ring: two states that agree on it have the same outcome, and
nothing else is written. -/
def Obligations.PassReadsOnlyItsOwnRing : Prop :=
  ∀ (s u : State) (l : LinkNo), (Instr.sstep l).WellFormed s.cfg → u.cfg = s.cfg →
    u.ring l .rx = s.ring l .rx →
    (∀ i, i < s.cfg.N → u.readByte (slotAddr s.cfg l .rx i) = s.readByte (slotAddr s.cfg l .rx i)) →
    ∃ s' u' new, exec (.sstep l) s = .next s' ∧ exec (.sstep l) u = .next u' ∧
      u'.res = s'.res ∧ u'.ring l .rx = s'.ring l .rx ∧
      s'.readings = s.readings ++ new ∧ u'.readings = u.readings ++ new ∧
      SameRingsBut l .rx u u' ∧ SameBytes u u' ∧ SameFlags u u' ∧ SameWires u u'

/-! ## Request encoder -/

/-- R190: the request frame, and that its checksum agrees with R150. -/
def Obligations.RequestFrameIsValid : Prop :=
  reqFrame = [0xFF, 0x01, 0x86, 0x00, 0x00, 0x00, 0x00, 0x00, 0x79] ∧
  cks (windowAt reqFrame 0) = 0x79 ∧ (windowAt reqFrame 0).accepted

/-- R191: `REQ l` queues as much of the frame as fits and arms the link. -/
def Obligations.ReqQueuesFrameAndArms : Prop :=
  ∀ (s : State) (l : LinkNo),
    encode (.req l) &&& 0xF3FF = 0xC000 ∧
    (l ≠ 0 → (Instr.req l).WellFormed s.cfg → (s.ring l .tx).Ok s.cfg.N →
      ∃ t, exec (.req l) s = .next t ∧
        t.contents l .tx = s.contents l .tx ++ reqFrame.take (s.free l .tx) ∧
        (t.ring l .tx).head = ((s.ring l .tx).head + min 9 (s.free l .tx)) % s.cfg.N ∧
        (t.ring l .tx).tail = (s.ring l .tx).tail ∧
        (t.link l).txc = false ∧ (t.link l).txarm = true ∧
        SameRingsBut l .tx s t ∧ SameFlagsBut l s t ∧
        SameBytesBut (s.slotsFromHead l .tx (min 9 (s.free l .tx))) s t ∧
        SameWires s t ∧ SameReadings s t ∧ SameRes s t ∧ NextPosition s t ∧ SameParams s t)

/-- R192: `REQ 0` does for every sensor link 1..K what R191 says, in one step, and leaves link 0 alone; with K = 0 it changes
nothing but tp. -/
def Obligations.ReqAllBroadcasts : Prop :=
  ∀ s : State, (∀ l, (s.ring l .tx).Ok s.cfg.N) →
    ∃ t, exec (.req 0) s = .next t ∧
      (∀ l : LinkNo, l ≠ 0 → l.val ≤ s.cfg.K →
        t.contents l .tx = s.contents l .tx ++ reqFrame.take (s.free l .tx) ∧
        (t.ring l .tx).head = ((s.ring l .tx).head + min 9 (s.free l .tx)) % s.cfg.N ∧
        (t.ring l .tx).tail = (s.ring l .tx).tail ∧
        (t.link l).txc = false ∧ (t.link l).txarm = true) ∧
      (∀ l : LinkNo, l = 0 ∨ s.cfg.K < l.val → t.link l = s.link l) ∧
      (∀ l, t.ring l .rx = s.ring l .rx) ∧
      SameBytesBut ((sensorLinksOf s.cfg).flatMap fun l =>
        s.slotsFromHead l .tx (min 9 (s.free l .tx))) s t ∧
      SameWires s t ∧ SameReadings s t ∧ SameRes s t ∧ NextPosition s t ∧ SameParams s t

/-- R192: the broadcast has the effect of REQ 1, ..., REQ K one after another, in one step. -/
def Obligations.ReqAllIsEachRequestInTurn : Prop :=
  ∀ s u : State, execAll ((sensorLinksOf s.cfg).map .req) s = .next u →
    exec (.req 0) s = .next { u with tp := s.tp + 1 }

/-! ## Rules of the whole machine -/

/-- R28: no other instruction writes res, and no event, as a word or as a move of the open semantics. -/
def Obligations.ResWrittenOnlyByValueCommands : Prop :=
  ∀ (s t : State) (i : Instr), Takes i s t →
    i.op ∉ [Op.rxrd, .avl, .rxpk, .sstep, .drain, .chk, .stat] → t.res = s.res

/-- R26: who may write which index, and whose writes reach storage, events as words and as moves of the open semantics. -/
def Obligations.ProducerConsumerDiscipline : Prop :=
  ∀ (s t : State) (i : Instr), Takes i s t →
    (∀ l, (t.ring l .rx).head ≠ (s.ring l .rx).head → i.op = .rxev ∨ i = .rinit l .rx) ∧
    (∀ l, (t.ring l .rx).tail ≠ (s.ring l .rx).tail →
      i.op = .rxrd ∨ i.op = .rxds ∨ i.op = .sstep ∨ i.op = .drain ∨ i = .rinit l .rx) ∧
    (∀ l, (t.ring l .tx).head ≠ (s.ring l .tx).head → i.op = .txw ∨ i.op = .req ∨ i = .rinit l .tx) ∧
    (∀ l, (t.ring l .tx).tail ≠ (s.ring l .tx).tail → i.op = .txrdy ∨ i = .rinit l .tx) ∧
    (∀ a, t.readByte a ≠ s.readByte a → i.op = .rxev ∨ i.op = .txw ∨ i.op = .req)

/-- R29, R30: what sets and what clears txarm and txc, events as words and as moves of the open semantics. -/
def Obligations.FlagsChangeOnlyByRule : Prop :=
  ∀ (s t : State) (i : Instr) (l : LinkNo), Takes i s t →
    ((s.link l).txarm = false → (t.link l).txarm = true → i.op = .arm ∨ i.op = .req) ∧
    ((s.link l).txarm = true → (t.link l).txarm = false → i = .txrdy l ∧ s.avail l .tx = 0) ∧
    ((s.link l).txc = false → (t.link l).txc = true → i = .txdone l) ∧
    ((s.link l).txc = true → (t.link l).txc = false → i.op = .arm ∨ i.op = .req)

/-- R31, R32: the outputs only grow, by at most one reading and one byte a step, readings by SSTEP and DRAIN, wires by
TXRDY, events as words and as moves of the open semantics. -/
def Obligations.OutputsOnlyGrow : Prop :=
  ∀ (s t : State) (i : Instr), Takes i s t →
    (t.readings = s.readings ∨ ((i.op = .sstep ∨ i.op = .drain) ∧ ∃ x, t.readings = s.readings ++ [x])) ∧
    ∀ l, (t.link l).wire = (s.link l).wire ∨
      (i = .txrdy l ∧ ∃ b, (t.link l).wire = (s.link l).wire ++ [b])

/-- R33: every word but DRAIN moves tp on by exactly 1; DRAIN does so exactly when its pass answers WAIT. -/
def Obligations.TracePositionAdvances : Prop :=
  ∀ (s t : State) (i : Instr), exec i s = .next t →
    (i.op ≠ .drain → t.tp = s.tp + 1) ∧
    (i.op = .drain → (t.res = 0 ∧ t.tp = s.tp + 1) ∨ (t.res ≠ 0 ∧ t.tp = s.tp))

/-- R50, R23: every slot of a configured ring lies in RBMEM at rbaddr, and no two rings share a byte (for indices below N; others are
log 8). -/
def Obligations.RingStorageIsDisjoint : Prop :=
  ∀ (cfg : Config) (l k : LinkNo) (r d : Dir) (i j : Nat), i < cfg.N → j < cfg.N →
    slotAddr cfg l r i = (2 * l.val + dirIndex r) * cfg.N + i ∧
    (l.val ≤ cfg.K → slotAddr cfg l r i < 2 * (cfg.K + 1) * cfg.N) ∧
    (slotAddr cfg l r i = slotAddr cfg k d j → l = k ∧ r = d ∧ i = j)

/-- R106: of a WRS with no event between, the first bytes that fit are stored in order and the rest dropped. -/
def Obligations.WrsStoresWhatFits : Prop :=
  ∀ (s : State) (l : LinkNo) (bs : List Byte), l.val ≤ s.cfg.K → (s.ring l .tx).Ok s.cfg.N →
    ∃ t, execAll ((Pseudo.wrs l bs).expand s.cfg) s = .next t ∧
      t.contents l .tx = s.contents l .tx ++ bs.take (s.cfg.N - 1 - s.avail l .tx) ∧
      t.tp = s.tp + bs.length ∧ SameFlags s t ∧ SameRes s t

/-- R108: k bytes arriving at an empty ring leave the first min(k, N - 1) of them. -/
def Obligations.OverflowDropsTheNewest : Prop :=
  ∀ (s : State) (l : LinkNo) (bs : List Byte), l.val ≤ s.cfg.K → s.cfg.semantics = .closed →
    (s.ring l .rx).Ok s.cfg.N → s.avail l .rx = 0 →
    ∃ t, execAll ((Pseudo.rxs l bs).expand s.cfg) s = .next t ∧
      t.contents l .rx = bs.take (s.cfg.N - 1) ∧ t.avail l .rx = min bs.length (s.cfg.N - 1)

/-- R102, R107, R60 (a): RXRD returns the oldest byte of the contents and leaves the others in order. -/
def Obligations.ReadReturnsTheOldestByte : Prop :=
  ∀ (s : State) (l : LinkNo) (b : Byte) (rest : List Byte), (Instr.rxrd l).WellFormed s.cfg →
    (s.ring l .rx).Ok s.cfg.N → s.contents l .rx = b :: rest →
    ∃ t, exec (.rxrd l) s = .next t ∧ t.res = b.setWidth 16 ∧ t.contents l .rx = rest ∧
      ∀ k d, ¬(k = l ∧ d = .rx) → t.contents k d = s.contents k d

/-- R107, R60 (a), R132: what a link has sent, followed by what its transmit ring holds, grows by exactly the bytes queued that
fit, in order, whatever the instruction, events as words and as moves of the open semantics (RINIT of that ring apart, which loses its contents, R100). -/
def Obligations.TransmitStreamIsQueuedBytes : Prop :=
  ∀ (s t : State) (i : Instr) (l : LinkNo), (s.ring l .tx).Ok s.cfg.N → i ≠ .rinit l .tx →
    Takes i s t →
    (t.link l).wire ++ t.contents l .tx =
      (s.link l).wire ++ s.contents l .tx ++
        (if l.val ≤ s.cfg.K then (offeredBytes l i).take (s.free l .tx) else [])

/-- R132 (a): k + 1 transmit-ready events on an armed link with k bytes queued send them all, in order, and disarm. -/
def Obligations.TransmitReadyRunDrains : Prop :=
  ∀ (s : State) (l : LinkNo), (Instr.txrdy l).WellFormed s.cfg → (s.ring l .tx).Ok s.cfg.N →
    (s.link l).txarm = true →
    ∃ t, execAll ((Pseudo.txrun l (s.avail l .tx + 1)).expand s.cfg) s = .next t ∧
      (t.link l).wire = (s.link l).wire ++ s.contents l .tx ∧ t.contents l .tx = [] ∧
      (t.link l).txarm = false ∧ (t.link l).txc = (s.link l).txc ∧ SameRes s t

/-! ## The open semantics -/

/-- R206, R130, R133, R134: the open semantics takes the first choice of the order that is enabled; a choice that is not is no step;
with none left the host moves. In every state the host's step is enabled exactly when a word is left at tp, an arrival of any byte
and a completion exactly on the configured links, and transmit-ready exactly while the configured link is armed. That the order is
held as a list is the model's choice (log 11); that events stay enabled after the host's last word is DEDUCED (log 13). -/
def Obligations.OpenStepTakesFirstEnabledMove : Prop :=
  ∀ s : State,
    (s.cfg.semantics = .concurrent →
      (∀ m ms, s.env = m :: ms → m.enabled s = true → step s = performMove m { s with env := ms }) ∧
      (∀ m ms, s.env = m :: ms → m.enabled s = false → step s = step { s with env := ms }) ∧
      (s.env = [] → step s = hostStep s)) ∧
    (Move.host.enabled s = true ↔ ∃ w, s.trace[s.tp]? = some w) ∧
    ∀ l : LinkNo,
      (∀ b, (Move.byteArrived l b).enabled s = true ↔ l.val ≤ s.cfg.K) ∧
      ((Move.txReady l).enabled s = true ↔ l.val ≤ s.cfg.K ∧ (s.link l).txarm = true) ∧
      ((Move.txComplete l).enabled s = true ↔ l.val ≤ s.cfg.K)

/-- R204, R206: an event of the open semantics runs as one step and leaves the host where it stood (that tp stays is DEDUCED, log
12). In either semantics, on a configured link, it has every effect its trace word has in a closed trace (R130, R132, R134), but
for tp: together with RxevStoresOrDrops, TxrdySendsOrDisarms and TxdoneSetsTransmitComplete this says what each event does. -/
def Obligations.EventLeavesTheHostWhereItStood : Prop :=
  ∀ (s : State) (m : Move) (i : Instr), m.word = some i →
    ∃ t, performMove m s = .next t ∧ t.tp = s.tp ∧ SameRes s t ∧ SameReadings s t ∧ SameParams s t ∧
      (i.link.val ≤ s.cfg.K → exec i s.asClosed = .next { t.asClosed with tp := t.tp + 1 })

/-- R206: events of different links commute: either order reaches the same state, and neither disables the other. -/
def Obligations.EventsOfDifferentLinksCommute : Prop :=
  ∀ (s : State) (m n : Move) (l k : LinkNo), m.linkOf = some l → n.linkOf = some k → l ≠ k →
    Memory.wf s.mem = true →
    ∃ a b c, performMove m s = .next a ∧ performMove n a = .next c ∧
      performMove n s = .next b ∧ performMove m b = .next c ∧
      n.enabled a = n.enabled s ∧ m.enabled b = m.enabled s

/-- R171 (b), R207, U6: a fair infinite run of the open semantics in which DRAIN never returns: tp stays on the word although the
host moves again and again. -/
def Obligations.DrainMayNeverReturn : Prop :=
  ∃ (cfg : Config) (f : Nat → State) (m : Nat → Option Move),
    f 0 = State.resetWith cfg [encode (.drain 1)] [] 0 ∧ IsOpenRun f m ∧ IsFair f m ∧
    (∀ n, (f n).tp = 0) ∧ ∀ n, ∃ k, n ≤ k ∧ m k = some .host

/-- R207: after the host's last word, a fair run sends every byte an armed link has queued, in order, and disarms it; and once every
link is disarmed it may rest for ever, with no arrival and no completion. That events still come after the host's last word is
DEDUCED from R206 and R216 (log 13); that resting is a point of a run at which nothing happens is the model's choice (log 20). -/
def Obligations.FairRunSendsQueuedBytes : Prop :=
  (∀ (f : Nat → State) (m : Nat → Option Move) (n : Nat) (l : LinkNo), IsOpenRun f m → IsFair f m →
    (f n).trace.length ≤ (f n).tp → l.val ≤ (f n).cfg.K → ((f n).ring l .tx).Ok (f n).cfg.N →
    ((f n).link l).txarm = true →
    ∃ k, n ≤ k ∧ ((f k).link l).wire = ((f n).link l).wire ++ (f n).contents l .tx ∧
      (f k).contents l .tx = [] ∧ ((f k).link l).txarm = false) ∧
  ∀ s : State, s.cfg.semantics = .concurrent → s.trace.length ≤ s.tp →
    (∀ l : LinkNo, l.val ≤ s.cfg.K → (s.link l).txarm = false) →
    IsOpenRun (fun _ => s) (fun _ => none) ∧ IsFair (fun _ => s) (fun _ => none)

/-! ## Unspecified storage -/

/-- R34, R232: while every byte of every ring's contents has been written, no instruction can tell one draw of the unspecified
storage from another. -/
def Obligations.StorageDrawIsUnobservable : Prop :=
  ∀ (s t : State) (i : Instr) (d : Nat), s.Tidy → (∀ l r, (s.ring l r).Ok s.cfg.N) →
    exec i s = .next t → exec i { s with draw := d } = .next { t with draw := d }

/-- R34, R234: a step keeps every ring's contents written, unless it executes an over-discarding RXDS. An event of the open semantics
keeps them whatever word waits at tp. -/
def Obligations.TidyUnlessOverDiscard : Prop :=
  ∀ s t : State, s.Inv → s.Tidy → step s = .next t →
    (HostStepsNext s → ∀ w i, s.trace[s.tp]? = some w → decode s.cfg w = .ok i → ¬OverDiscards i s) → t.Tidy
end

