-- ==== Sys2Proof/Laws/Memory.lean ====
section
/-! SUPPORT. Ring storage: a read after a write, the canonical form kept by every write, and writes to different addresses commuting. -/

namespace Sys2Proof.Machine

theorem Memory.find_store_same (m : Memory) (a : Nat) (v : Byte) :
    Memory.find (Memory.store m a v) a = some v := by
  induction m with
  | nil => simp [Memory.store, Memory.find]
  | cons c m ih =>
    obtain ⟨b, u⟩ := c
    simp only [Memory.store]
    split
    · simp [Memory.find]
    · split
      · simp [Memory.find]
      · next h1 h2 =>
        have : b ≠ a := fun e => h2 e.symm
        simp [Memory.find, this, ih]

theorem Memory.find_store_ne (m : Memory) {a b : Nat} (v : Byte) (h : b ≠ a) :
    Memory.find (Memory.store m a v) b = Memory.find m b := by
  induction m with
  | nil => simp [Memory.store, Memory.find, Ne.symm h]
  | cons c m ih =>
    obtain ⟨d, u⟩ := c
    simp only [Memory.store]
    split
    · simp [Memory.find, Ne.symm h]
    · split
      · next h1 h2 => subst h2; simp [Memory.find, Ne.symm h]
      · simp [Memory.find, ih]

/-- The addresses after a write are those before it and the one written. -/
theorem Memory.mem_store {m : Memory} {a : Nat} {v : Byte} {c : Host.Cell}
    (h : c ∈ Memory.store m a v) : c = (a, v) ∨ c ∈ m := by
  induction m with
  | nil => simpa [Memory.store] using h
  | cons d m ih =>
    obtain ⟨b, u⟩ := d
    simp only [Memory.store] at h
    split at h
    · simpa using h
    · split at h
      · rcases List.mem_cons.1 h with h | h
        · exact .inl h
        · exact .inr (List.mem_cons_of_mem _ h)
      · rcases List.mem_cons.1 h with h | h
        · exact .inr (h ▸ List.mem_cons_self ..)
        · exact (ih h).imp id (List.mem_cons_of_mem _)

theorem Memory.wf_cons {a : Nat} {v : Byte} {m : Memory} :
    Memory.wf ((a, v) :: m) = true ↔ (∀ c ∈ m, a < c.1) ∧ Memory.wf m = true := by
  induction m generalizing a v with
  | nil => simp [Memory.wf]
  | cons d m ih =>
    obtain ⟨b, u⟩ := d
    simp only [Memory.wf, Bool.and_eq_true, decide_eq_true_eq, List.mem_cons, forall_eq_or_imp]
    constructor
    · rintro ⟨h1, h2⟩
      exact ⟨⟨h1, fun c hc => Nat.lt_trans h1 ((ih.1 h2).1 c hc)⟩, h2⟩
    · rintro ⟨⟨h1, _⟩, h2⟩
      exact ⟨h1, h2⟩

/-- Every write keeps the canonical form. -/
theorem Memory.wf_store {m : Memory} (a : Nat) (v : Byte) (h : Memory.wf m = true) :
    Memory.wf (Memory.store m a v) = true := by
  induction m with
  | nil => simp [Memory.store, Memory.wf]
  | cons d m ih =>
    obtain ⟨b, u⟩ := d
    have hm := Memory.wf_cons.1 h
    simp only [Memory.store]
    split
    · next hab =>
      refine Memory.wf_cons.2 ⟨?_, h⟩
      intro c hc
      rcases List.mem_cons.1 hc with rfl | hc
      · exact hab
      · exact Nat.lt_trans hab (hm.1 c hc)
    · split
      · next hab => subst hab; exact Memory.wf_cons.2 hm
      · next h1 h2 =>
        refine Memory.wf_cons.2 ⟨?_, ih hm.2⟩
        intro c hc
        rcases Memory.mem_store hc with rfl | hc
        · exact Nat.lt_of_le_of_ne (Nat.le_of_not_lt h1) (Ne.symm h2)
        · exact hm.1 c hc

theorem Memory.find_none_of_lt {m : Memory} {a : Nat} (h : ∀ c ∈ m, a < c.1) : Memory.find m a = none := by
  induction m with
  | nil => rfl
  | cons d m ih =>
    obtain ⟨b, u⟩ := d
    have hb : a < b := h (b, u) (List.mem_cons_self ..)
    simp [Memory.find, Nat.ne_of_gt hb, ih fun c hc => h c (List.mem_cons_of_mem _ hc)]

/-- Two memories in canonical form that list the same bytes are the same data. -/
theorem Memory.ext {m n : Memory} (hm : Memory.wf m = true) (hn : Memory.wf n = true)
    (h : ∀ a, Memory.find m a = Memory.find n a) : m = n := by
  induction m generalizing n with
  | nil =>
    cases n with
    | nil => rfl
    | cons d n => obtain ⟨b, u⟩ := d; have := h b; simp [Memory.find] at this
  | cons c m ih =>
    obtain ⟨a, v⟩ := c
    have hm' := Memory.wf_cons.1 hm
    cases n with
    | nil => have := h a; simp [Memory.find] at this
    | cons d n =>
      obtain ⟨b, u⟩ := d
      have hn' := Memory.wf_cons.1 hn
      have ha := h a
      have hb := h b
      have hab : a = b := by
        rcases Nat.lt_trichotomy a b with hlt | he | hgt
        · simp [Memory.find, Nat.ne_of_gt hlt,
            Memory.find_none_of_lt fun c hc => Nat.lt_trans hlt (hn'.1 c hc)] at ha
        · exact he
        · simp [Memory.find, Nat.ne_of_gt hgt,
            Memory.find_none_of_lt fun c hc => Nat.lt_trans hgt (hm'.1 c hc)] at hb
      subst hab
      have hv : v = u := by simpa [Memory.find] using ha
      subst hv
      have : m = n := by
        refine ih hm'.2 hn'.2 fun x => ?_
        by_cases hx : a = x
        · subst hx
          rw [Memory.find_none_of_lt hm'.1, Memory.find_none_of_lt hn'.1]
        · simpa [Memory.find, hx] using h x
      rw [this]

/-- Writes to different addresses of a memory in canonical form commute. -/
theorem Memory.store_comm {m : Memory} {a b : Nat} (v u : Byte) (h : Memory.wf m = true) (hab : a ≠ b) :
    Memory.store (Memory.store m a v) b u = Memory.store (Memory.store m b u) a v := by
  refine Memory.ext (Memory.wf_store _ _ (Memory.wf_store _ _ h))
    (Memory.wf_store _ _ (Memory.wf_store _ _ h)) fun x => ?_
  by_cases hb : x = b
  · subst hb
    rw [Memory.find_store_same, Memory.find_store_ne _ _ (Ne.symm hab), Memory.find_store_same]
  · by_cases ha : x = a
    · subst ha
      rw [Memory.find_store_ne _ _ hb, Memory.find_store_same, Memory.find_store_same]
    · rw [Memory.find_store_ne _ _ hb, Memory.find_store_ne _ _ ha, Memory.find_store_ne _ _ ha,
        Memory.find_store_ne _ _ hb]

end Sys2Proof.Machine
end

