-- ==== Sys2Proof/Laws/Ring.lean ====
section
/-! SUPPORT. Index arithmetic (R13, R24, R25): avail, full and empty of a ring whose indices are in range, after each index update; and the addresses of RBMEM (R50). -/

namespace Sys2Proof

theorem Config.N_pos (c : Config) : 0 < c.N := Nat.two_pow_pos _

theorem Config.sixteen_le_N (c : Config) : 16 ≤ c.N := by
  have : 2 ^ 4 ≤ 2 ^ (4 + c.capExp.val) := Nat.pow_le_pow_right (by omega) (by omega)
  simpa [Config.N] using this

theorem Config.N_le (c : Config) : c.N ≤ 65536 := by
  have h := c.capExp.isLt
  have : 2 ^ (4 + c.capExp.val) ≤ 2 ^ 16 := Nat.pow_le_pow_right (by omega) (by omega)
  simpa [Config.N] using this

end Sys2Proof

namespace Sys2Proof.Machine

/-- (i + 1) mod N of an index in range. -/
theorem succ_mod {n i : Nat} (h : i < n) : (i + 1) % n = if i + 1 = n then 0 else i + 1 := by
  split
  · next e => rw [e, Nat.mod_self]
  · exact Nat.mod_eq_of_lt (by omega)

/-- (i + k) mod N of an index in range and a step of at most N. -/
theorem add_mod_of_le {n i k : Nat} (h : i < n) (hk : k ≤ n) :
    (i + k) % n = if n ≤ i + k then i + k - n else i + k := by
  split
  · rw [Nat.mod_eq_sub_mod ‹_›, Nat.mod_eq_of_lt (by omega)]
  · exact Nat.mod_eq_of_lt (by omega)

theorem Ring.avail_eq {n : Nat} {q : Ring} (h : q.Ok n) :
    q.avail n = if q.tail ≤ q.head then q.head - q.tail else q.head + n - q.tail := by
  obtain ⟨hh, ht⟩ := h
  unfold Ring.avail
  split
  · next hle =>
    rw [Int.emod_eq_of_lt (by omega) (by omega)]
    omega
  · next hle =>
    have : ((q.head : Int) - q.tail) % n = ((q.head : Int) - q.tail + n) % n := by
      rw [Int.add_emod_right]
    rw [this, Int.emod_eq_of_lt (by omega) (by omega)]
    omega

theorem Ring.avail_lt {n : Nat} (hn : 0 < n) (q : Ring) : q.avail n < n := by
  unfold Ring.avail
  have h1 := Int.emod_nonneg ((q.head : Int) - q.tail) (b := (n : Int)) (by omega)
  have h2 := Int.emod_lt_of_pos ((q.head : Int) - q.tail) (b := (n : Int)) (by omega)
  omega

theorem Ring.isEmpty_iff {n : Nat} {q : Ring} (h : q.Ok n) : q.isEmpty = true ↔ q.avail n = 0 := by
  rw [Ring.avail_eq h]
  obtain ⟨hh, ht⟩ := h
  simp only [Ring.isEmpty, beq_iff_eq]
  split <;> omega

theorem Ring.isFull_iff {n : Nat} {q : Ring} (h : q.Ok n) : q.isFull n = true ↔ q.avail n = n - 1 := by
  rw [Ring.avail_eq h]
  obtain ⟨hh, ht⟩ := h
  simp only [Ring.isFull, beq_iff_eq, succ_mod hh]
  split <;> split <;> omega

theorem Ring.produce_ok {n : Nat} {q : Ring} (h : q.Ok n) : (q.produce n).Ok n :=
  ⟨Nat.mod_lt _ (Nat.lt_of_le_of_lt (Nat.zero_le _) h.1), h.2⟩

theorem Ring.consume_ok {n : Nat} {q : Ring} (k : Nat) (h : q.Ok n) : (q.consume n k).Ok n :=
  ⟨h.1, Nat.mod_lt _ (Nat.lt_of_le_of_lt (Nat.zero_le _) h.1)⟩

theorem Ring.init_ok {n : Nat} (hn : 0 < n) : Ring.init.Ok n := ⟨hn, hn⟩

theorem Ring.avail_produce {n : Nat} {q : Ring} (h : q.Ok n) (hf : q.isFull n = false) :
    (q.produce n).avail n = q.avail n + 1 := by
  have h' := Ring.produce_ok h
  have hne : ¬ q.avail n = n - 1 := fun e => by simp [(Ring.isFull_iff h).2 e] at hf
  rw [Ring.avail_eq h] at hne
  rw [Ring.avail_eq h', Ring.avail_eq h]
  obtain ⟨hh, ht⟩ := h
  have e : (q.produce n).head = if q.head + 1 = n then 0 else q.head + 1 := succ_mod hh
  have e' : (q.produce n).tail = q.tail := rfl
  rw [e, e']
  split at hne <;> split <;> split <;> omega

theorem Ring.avail_consume {n k : Nat} {q : Ring} (h : q.Ok n) (hk : k ≤ q.avail n) :
    (q.consume n k).avail n = q.avail n - k := by
  have h' := Ring.consume_ok k h
  have hlt := Ring.avail_lt (Nat.lt_of_le_of_lt (Nat.zero_le _) h.1) q
  rw [Ring.avail_eq h']
  rw [Ring.avail_eq h] at hk hlt ⊢
  obtain ⟨hh, ht⟩ := h
  have e : (q.consume n k).tail = if n ≤ q.tail + k then q.tail + k - n else q.tail + k :=
    add_mod_of_le ht (by omega)
  have e' : (q.consume n k).head = q.head := rfl
  rw [e, e']
  split at hk <;> split <;> split <;> omega

@[simp] theorem Ring.avail_init (n : Nat) : Ring.init.avail n = 0 := by simp [Ring.init, Ring.avail]

/-! Addresses (R50): each slot lies inside RBMEM, and slots of different rings or different indices differ. -/

theorem slotAddr_mod (cfg : Config) (l : LinkNo) (r : Dir) (i : Nat) :
    slotAddr cfg l r (i % cfg.N) = slotAddr cfg l r i := by
  simp [slotAddr]

theorem slotAddr_congr {cfg : Config} (l : LinkNo) (r : Dir) {i j : Nat} (h : i % cfg.N = j % cfg.N) :
    slotAddr cfg l r i = slotAddr cfg l r j := by
  simp [slotAddr, h]

theorem dirIndex_lt (r : Dir) : dirIndex r < 2 := by cases r <;> decide

theorem dirIndex_inj {r d : Dir} (h : dirIndex r = dirIndex d) : r = d := by
  cases r <;> cases d <;> first | rfl | simp [dirIndex] at h

theorem slotAddr_lt {cfg : Config} {l : LinkNo} (h : l.val ≤ cfg.K) (r : Dir) (i : Nat) :
    slotAddr cfg l r i < cfg.storageSize := by
  have hm : i % cfg.N < cfg.N := Nat.mod_lt _ cfg.N_pos
  have hd := dirIndex_lt r
  have : (2 * l.val + dirIndex r + 1) * cfg.N ≤ 2 * (cfg.K + 1) * cfg.N :=
    Nat.mul_le_mul_right _ (by omega)
  have e : (2 * l.val + dirIndex r + 1) * cfg.N = (2 * l.val + dirIndex r) * cfg.N + cfg.N :=
    Nat.succ_mul ..
  unfold slotAddr rbaddr Config.storageSize
  omega

theorem slotAddr_inj {cfg : Config} {l k : LinkNo} {r d : Dir} {i j : Nat}
    (h : slotAddr cfg l r i = slotAddr cfg k d j) : l = k ∧ r = d ∧ i % cfg.N = j % cfg.N := by
  have hi : i % cfg.N < cfg.N := Nat.mod_lt _ cfg.N_pos
  have hj : j % cfg.N < cfg.N := Nat.mod_lt _ cfg.N_pos
  unfold slotAddr rbaddr at h
  have key : 2 * l.val + dirIndex r = 2 * k.val + dirIndex d := by
    have h1 : ((2 * l.val + dirIndex r) * cfg.N + i % cfg.N) / cfg.N = 2 * l.val + dirIndex r := by
      rw [Nat.mul_comm, Nat.mul_add_div cfg.N_pos, Nat.div_eq_of_lt hi, Nat.add_zero]
    have h2 : ((2 * k.val + dirIndex d) * cfg.N + j % cfg.N) / cfg.N = 2 * k.val + dirIndex d := by
      rw [Nat.mul_comm, Nat.mul_add_div cfg.N_pos, Nat.div_eq_of_lt hj, Nat.add_zero]
    rw [← h1, ← h2, h]
  have hr := dirIndex_lt r
  have hd := dirIndex_lt d
  rw [key] at h
  exact ⟨Fin.ext (by omega), dirIndex_inj (by omega), by omega⟩

theorem slotAddr_ne {cfg : Config} {l k : LinkNo} {r d : Dir} (h : ¬(k = l ∧ d = r)) (i j : Nat) :
    slotAddr cfg k d j ≠ slotAddr cfg l r i := fun e =>
  h ⟨(slotAddr_inj e).1, (slotAddr_inj e).2.1⟩

end Sys2Proof.Machine
end

