-- ==== Sys2Proof/Laws/State.lean ====
section
/-! SUPPORT. One lemma per field of `State` per elementary update, and the two lemmas of reading a link back; every later proof cites these and unfolds no record update. -/

namespace Sys2Proof.Machine

variable (s : State)

@[simp] theorem State.setRes_cfg (v : Word) : (s.setRes v).cfg = s.cfg := rfl
@[simp] theorem State.setRes_trace (v : Word) : (s.setRes v).trace = s.trace := rfl
@[simp] theorem State.setRes_tp (v : Word) : (s.setRes v).tp = s.tp := rfl
@[simp] theorem State.setRes_links (v : Word) : (s.setRes v).links = s.links := rfl
@[simp] theorem State.setRes_mem (v : Word) : (s.setRes v).mem = s.mem := rfl
@[simp] theorem State.setRes_res (v : Word) : (s.setRes v).res = v := rfl
@[simp] theorem State.setRes_readings (v : Word) : (s.setRes v).readings = s.readings := rfl
@[simp] theorem State.setRes_env (v : Word) : (s.setRes v).env = s.env := rfl
@[simp] theorem State.setRes_draw (v : Word) : (s.setRes v).draw = s.draw := rfl

@[simp] theorem State.advance_cfg : (s.advance).cfg = s.cfg := rfl
@[simp] theorem State.advance_trace : (s.advance).trace = s.trace := rfl
@[simp] theorem State.advance_tp : (s.advance).tp = s.tp + 1 := rfl
@[simp] theorem State.advance_links : (s.advance).links = s.links := rfl
@[simp] theorem State.advance_mem : (s.advance).mem = s.mem := rfl
@[simp] theorem State.advance_res : (s.advance).res = s.res := rfl
@[simp] theorem State.advance_readings : (s.advance).readings = s.readings := rfl
@[simp] theorem State.advance_env : (s.advance).env = s.env := rfl
@[simp] theorem State.advance_draw : (s.advance).draw = s.draw := rfl

@[simp] theorem State.emit_cfg (c : LinkNo) (x y : Word) : (s.emit c x y).cfg = s.cfg := rfl
@[simp] theorem State.emit_trace (c : LinkNo) (x y : Word) : (s.emit c x y).trace = s.trace := rfl
@[simp] theorem State.emit_tp (c : LinkNo) (x y : Word) : (s.emit c x y).tp = s.tp := rfl
@[simp] theorem State.emit_links (c : LinkNo) (x y : Word) : (s.emit c x y).links = s.links := rfl
@[simp] theorem State.emit_mem (c : LinkNo) (x y : Word) : (s.emit c x y).mem = s.mem := rfl
@[simp] theorem State.emit_res (c : LinkNo) (x y : Word) : (s.emit c x y).res = s.res := rfl
@[simp] theorem State.emit_readings (c : LinkNo) (x y : Word) : (s.emit c x y).readings = s.readings ++ [⟨BitVec.ofNat 8 c.val, x, y⟩] := rfl
@[simp] theorem State.emit_env (c : LinkNo) (x y : Word) : (s.emit c x y).env = s.env := rfl
@[simp] theorem State.emit_draw (c : LinkNo) (x y : Word) : (s.emit c x y).draw = s.draw := rfl

@[simp] theorem State.modifyLink_cfg (l : LinkNo) (f : Link → Link) : (s.modifyLink l f).cfg = s.cfg := rfl
@[simp] theorem State.modifyLink_trace (l : LinkNo) (f : Link → Link) : (s.modifyLink l f).trace = s.trace := rfl
@[simp] theorem State.modifyLink_tp (l : LinkNo) (f : Link → Link) : (s.modifyLink l f).tp = s.tp := rfl
@[simp] theorem State.modifyLink_links (l : LinkNo) (f : Link → Link) : (s.modifyLink l f).links = s.links.set l.val (f (s.link l)) := rfl
@[simp] theorem State.modifyLink_mem (l : LinkNo) (f : Link → Link) : (s.modifyLink l f).mem = s.mem := rfl
@[simp] theorem State.modifyLink_res (l : LinkNo) (f : Link → Link) : (s.modifyLink l f).res = s.res := rfl
@[simp] theorem State.modifyLink_readings (l : LinkNo) (f : Link → Link) : (s.modifyLink l f).readings = s.readings := rfl
@[simp] theorem State.modifyLink_env (l : LinkNo) (f : Link → Link) : (s.modifyLink l f).env = s.env := rfl
@[simp] theorem State.modifyLink_draw (l : LinkNo) (f : Link → Link) : (s.modifyLink l f).draw = s.draw := rfl

@[simp] theorem State.writeByte_cfg (a : Nat) (v : Byte) : (s.writeByte a v).cfg = s.cfg := rfl
@[simp] theorem State.writeByte_trace (a : Nat) (v : Byte) : (s.writeByte a v).trace = s.trace := rfl
@[simp] theorem State.writeByte_tp (a : Nat) (v : Byte) : (s.writeByte a v).tp = s.tp := rfl
@[simp] theorem State.writeByte_links (a : Nat) (v : Byte) : (s.writeByte a v).links = s.links := rfl
@[simp] theorem State.writeByte_mem (a : Nat) (v : Byte) : (s.writeByte a v).mem = Memory.store s.mem a v := rfl
@[simp] theorem State.writeByte_res (a : Nat) (v : Byte) : (s.writeByte a v).res = s.res := rfl
@[simp] theorem State.writeByte_readings (a : Nat) (v : Byte) : (s.writeByte a v).readings = s.readings := rfl
@[simp] theorem State.writeByte_env (a : Nat) (v : Byte) : (s.writeByte a v).env = s.env := rfl
@[simp] theorem State.writeByte_draw (a : Nat) (v : Byte) : (s.writeByte a v).draw = s.draw := rfl

/-! Reading a link. -/

@[simp] theorem State.setRes_link (v : Word) (l : LinkNo) : (s.setRes v).link l = s.link l := rfl

@[simp] theorem State.advance_link (l : LinkNo) : s.advance.link l = s.link l := rfl

@[simp] theorem State.emit_link (c l : LinkNo) (x y : Word) : (s.emit c x y).link l = s.link l := rfl

@[simp] theorem State.writeByte_link (a : Nat) (v : Byte) (l : LinkNo) :
    (s.writeByte a v).link l = s.link l := rfl

@[simp] theorem State.modifyLink_link_same (l : LinkNo) (f : Link → Link) :
    (s.modifyLink l f).link l = f (s.link l) := by
  simp [State.modifyLink, State.link]

theorem State.modifyLink_link_ne {l k : LinkNo} (f : Link → Link) (h : k ≠ l) :
    (s.modifyLink l f).link k = s.link k := by
  have hv : l.val ≠ k.val := fun e => h (Fin.ext e.symm)
  simp [State.modifyLink, State.link, hv]

theorem State.modifyLink_link (l k : LinkNo) (f : Link → Link) :
    (s.modifyLink l f).link k = if k = l then f (s.link l) else s.link k := by
  split
  · next h => subst h; simp
  · next h => exact s.modifyLink_link_ne f h

/-! A ring inside its link. -/

@[simp] theorem Link.setRing_ring_same (k : Link) (r : Dir) (q : Ring) : (k.setRing r q).ring r = q := by
  cases r <;> rfl

theorem Link.setRing_ring_ne (k : Link) {r d : Dir} (q : Ring) (h : d ≠ r) :
    (k.setRing r q).ring d = k.ring d := by
  cases r <;> cases d <;> first | rfl | exact absurd rfl h

@[simp] theorem Link.setRing_txarm (k : Link) (r : Dir) (q : Ring) : (k.setRing r q).txarm = k.txarm := by
  cases r <;> rfl

@[simp] theorem Link.setRing_txc (k : Link) (r : Dir) (q : Ring) : (k.setRing r q).txc = k.txc := by
  cases r <;> rfl

@[simp] theorem Link.setRing_wire (k : Link) (r : Dir) (q : Ring) : (k.setRing r q).wire = k.wire := by
  cases r <;> rfl

/-! Two states with the same fields, and two links with the same rings, flags and wire, are equal. -/

theorem State.links_ext {s t : State} (h : ∀ l, t.link l = s.link l) : t.links = s.links := by
  apply Vector.ext
  intro i hi
  exact h ⟨i, hi⟩

end Sys2Proof.Machine
end

