-- ==== Sys2Proof/Laws/Ops.lean ====
section
/-! SUPPORT. What each shared operation over rings, flags and outputs changes and what it leaves, said once. -/

namespace Sys2Proof.Machine

variable (s : State)

/-! The operations on a link touch no field but `links`. -/

@[simp] theorem State.setRing_cfg (l : LinkNo) (r : Dir) (q : Ring) : (s.setRing l r q).cfg = s.cfg := rfl
@[simp] theorem State.setRing_trace (l : LinkNo) (r : Dir) (q : Ring) : (s.setRing l r q).trace = s.trace := rfl
@[simp] theorem State.setRing_tp (l : LinkNo) (r : Dir) (q : Ring) : (s.setRing l r q).tp = s.tp := rfl
@[simp] theorem State.setRing_mem (l : LinkNo) (r : Dir) (q : Ring) : (s.setRing l r q).mem = s.mem := rfl
@[simp] theorem State.setRing_res (l : LinkNo) (r : Dir) (q : Ring) : (s.setRing l r q).res = s.res := rfl
@[simp] theorem State.setRing_readings (l : LinkNo) (r : Dir) (q : Ring) : (s.setRing l r q).readings = s.readings := rfl
@[simp] theorem State.setRing_env (l : LinkNo) (r : Dir) (q : Ring) : (s.setRing l r q).env = s.env := rfl
@[simp] theorem State.setRing_draw (l : LinkNo) (r : Dir) (q : Ring) : (s.setRing l r q).draw = s.draw := rfl

@[simp] theorem State.consume_cfg (l : LinkNo) (r : Dir) (n : Nat) : (s.consume l r n).cfg = s.cfg := rfl
@[simp] theorem State.consume_trace (l : LinkNo) (r : Dir) (n : Nat) : (s.consume l r n).trace = s.trace := rfl
@[simp] theorem State.consume_tp (l : LinkNo) (r : Dir) (n : Nat) : (s.consume l r n).tp = s.tp := rfl
@[simp] theorem State.consume_mem (l : LinkNo) (r : Dir) (n : Nat) : (s.consume l r n).mem = s.mem := rfl
@[simp] theorem State.consume_res (l : LinkNo) (r : Dir) (n : Nat) : (s.consume l r n).res = s.res := rfl
@[simp] theorem State.consume_readings (l : LinkNo) (r : Dir) (n : Nat) : (s.consume l r n).readings = s.readings := rfl
@[simp] theorem State.consume_env (l : LinkNo) (r : Dir) (n : Nat) : (s.consume l r n).env = s.env := rfl
@[simp] theorem State.consume_draw (l : LinkNo) (r : Dir) (n : Nat) : (s.consume l r n).draw = s.draw := rfl

@[simp] theorem State.initRing_cfg (l : LinkNo) (r : Dir) : (s.initRing l r).cfg = s.cfg := rfl
@[simp] theorem State.initRing_trace (l : LinkNo) (r : Dir) : (s.initRing l r).trace = s.trace := rfl
@[simp] theorem State.initRing_tp (l : LinkNo) (r : Dir) : (s.initRing l r).tp = s.tp := rfl
@[simp] theorem State.initRing_mem (l : LinkNo) (r : Dir) : (s.initRing l r).mem = s.mem := rfl
@[simp] theorem State.initRing_res (l : LinkNo) (r : Dir) : (s.initRing l r).res = s.res := rfl
@[simp] theorem State.initRing_readings (l : LinkNo) (r : Dir) : (s.initRing l r).readings = s.readings := rfl
@[simp] theorem State.initRing_env (l : LinkNo) (r : Dir) : (s.initRing l r).env = s.env := rfl
@[simp] theorem State.initRing_draw (l : LinkNo) (r : Dir) : (s.initRing l r).draw = s.draw := rfl

@[simp] theorem State.armLink_cfg (l : LinkNo) : (s.armLink l).cfg = s.cfg := rfl
@[simp] theorem State.armLink_trace (l : LinkNo) : (s.armLink l).trace = s.trace := rfl
@[simp] theorem State.armLink_tp (l : LinkNo) : (s.armLink l).tp = s.tp := rfl
@[simp] theorem State.armLink_mem (l : LinkNo) : (s.armLink l).mem = s.mem := rfl
@[simp] theorem State.armLink_res (l : LinkNo) : (s.armLink l).res = s.res := rfl
@[simp] theorem State.armLink_readings (l : LinkNo) : (s.armLink l).readings = s.readings := rfl
@[simp] theorem State.armLink_env (l : LinkNo) : (s.armLink l).env = s.env := rfl
@[simp] theorem State.armLink_draw (l : LinkNo) : (s.armLink l).draw = s.draw := rfl

@[simp] theorem State.disarmLink_cfg (l : LinkNo) : (s.disarmLink l).cfg = s.cfg := rfl
@[simp] theorem State.disarmLink_trace (l : LinkNo) : (s.disarmLink l).trace = s.trace := rfl
@[simp] theorem State.disarmLink_tp (l : LinkNo) : (s.disarmLink l).tp = s.tp := rfl
@[simp] theorem State.disarmLink_mem (l : LinkNo) : (s.disarmLink l).mem = s.mem := rfl
@[simp] theorem State.disarmLink_res (l : LinkNo) : (s.disarmLink l).res = s.res := rfl
@[simp] theorem State.disarmLink_readings (l : LinkNo) : (s.disarmLink l).readings = s.readings := rfl
@[simp] theorem State.disarmLink_env (l : LinkNo) : (s.disarmLink l).env = s.env := rfl
@[simp] theorem State.disarmLink_draw (l : LinkNo) : (s.disarmLink l).draw = s.draw := rfl

@[simp] theorem State.completeLink_cfg (l : LinkNo) : (s.completeLink l).cfg = s.cfg := rfl
@[simp] theorem State.completeLink_trace (l : LinkNo) : (s.completeLink l).trace = s.trace := rfl
@[simp] theorem State.completeLink_tp (l : LinkNo) : (s.completeLink l).tp = s.tp := rfl
@[simp] theorem State.completeLink_mem (l : LinkNo) : (s.completeLink l).mem = s.mem := rfl
@[simp] theorem State.completeLink_res (l : LinkNo) : (s.completeLink l).res = s.res := rfl
@[simp] theorem State.completeLink_readings (l : LinkNo) : (s.completeLink l).readings = s.readings := rfl
@[simp] theorem State.completeLink_env (l : LinkNo) : (s.completeLink l).env = s.env := rfl
@[simp] theorem State.completeLink_draw (l : LinkNo) : (s.completeLink l).draw = s.draw := rfl

@[simp] theorem State.send_cfg (l : LinkNo) (b : Byte) : (s.send l b).cfg = s.cfg := rfl
@[simp] theorem State.send_trace (l : LinkNo) (b : Byte) : (s.send l b).trace = s.trace := rfl
@[simp] theorem State.send_tp (l : LinkNo) (b : Byte) : (s.send l b).tp = s.tp := rfl
@[simp] theorem State.send_mem (l : LinkNo) (b : Byte) : (s.send l b).mem = s.mem := rfl
@[simp] theorem State.send_res (l : LinkNo) (b : Byte) : (s.send l b).res = s.res := rfl
@[simp] theorem State.send_readings (l : LinkNo) (b : Byte) : (s.send l b).readings = s.readings := rfl
@[simp] theorem State.send_env (l : LinkNo) (b : Byte) : (s.send l b).env = s.env := rfl
@[simp] theorem State.send_draw (l : LinkNo) (b : Byte) : (s.send l b).draw = s.draw := rfl

/-! A push touches `links` and `mem` alone. -/

@[simp] theorem State.pushByte_cfg (l : LinkNo) (r : Dir) (b : Byte) :
    (s.pushByte l r b).cfg = s.cfg := by
  unfold State.pushByte; split <;> rfl

@[simp] theorem State.pushByte_trace (l : LinkNo) (r : Dir) (b : Byte) :
    (s.pushByte l r b).trace = s.trace := by
  unfold State.pushByte; split <;> rfl

@[simp] theorem State.pushByte_tp (l : LinkNo) (r : Dir) (b : Byte) :
    (s.pushByte l r b).tp = s.tp := by
  unfold State.pushByte; split <;> rfl

@[simp] theorem State.pushByte_res (l : LinkNo) (r : Dir) (b : Byte) :
    (s.pushByte l r b).res = s.res := by
  unfold State.pushByte; split <;> rfl

@[simp] theorem State.pushByte_readings (l : LinkNo) (r : Dir) (b : Byte) :
    (s.pushByte l r b).readings = s.readings := by
  unfold State.pushByte; split <;> rfl

@[simp] theorem State.pushByte_env (l : LinkNo) (r : Dir) (b : Byte) :
    (s.pushByte l r b).env = s.env := by
  unfold State.pushByte; split <;> rfl

@[simp] theorem State.pushByte_draw (l : LinkNo) (r : Dir) (b : Byte) :
    (s.pushByte l r b).draw = s.draw := by
  unfold State.pushByte; split <;> rfl

/-! Reading storage. -/

@[simp] theorem State.setRes_readByte (v : Word) (a : Nat) : (s.setRes v).readByte a = s.readByte a := rfl

@[simp] theorem State.advance_readByte (a : Nat) : s.advance.readByte a = s.readByte a := rfl

@[simp] theorem State.emit_readByte (c : LinkNo) (x y : Word) (a : Nat) :
    (s.emit c x y).readByte a = s.readByte a := rfl

@[simp] theorem State.modifyLink_readByte (l : LinkNo) (f : Link → Link) (a : Nat) :
    (s.modifyLink l f).readByte a = s.readByte a := rfl

@[simp] theorem State.setRing_readByte (l : LinkNo) (r : Dir) (q : Ring) (a : Nat) :
    (s.setRing l r q).readByte a = s.readByte a := rfl

@[simp] theorem State.consume_readByte (l : LinkNo) (r : Dir) (n a : Nat) :
    (s.consume l r n).readByte a = s.readByte a := rfl

@[simp] theorem State.writeByte_readByte_same (a : Nat) (v : Byte) : (s.writeByte a v).readByte a = v := by
  simp [State.readByte, State.writeByte, Memory.find_store_same]

theorem State.writeByte_readByte_ne {a b : Nat} (v : Byte) (h : b ≠ a) :
    (s.writeByte a v).readByte b = s.readByte b := by
  simp [State.readByte, State.writeByte, Memory.find_store_ne _ _ h]

/-! Rings, flags and wires after an update of one link. -/

theorem State.modifyLink_ring (l k : LinkNo) (d : Dir) (f : Link → Link) :
    (s.modifyLink l f).ring k d = if k = l then (f (s.link l)).ring d else s.ring k d := by
  unfold State.ring
  rw [State.modifyLink_link]
  split <;> rfl

@[simp] theorem State.setRing_ring_same (l : LinkNo) (r : Dir) (q : Ring) :
    (s.setRing l r q).ring l r = q := by
  simp [State.ring, State.setRing]

theorem State.setRing_ring_ne {l k : LinkNo} {r d : Dir} (q : Ring) (h : ¬(k = l ∧ d = r)) :
    (s.setRing l r q).ring k d = s.ring k d := by
  unfold State.setRing
  rw [State.modifyLink_ring]
  split
  · next e => subst e; exact Link.setRing_ring_ne _ _ fun hd => h ⟨rfl, hd⟩
  · rfl

theorem State.setRing_ring (l k : LinkNo) (r d : Dir) (q : Ring) :
    (s.setRing l r q).ring k d = if k = l ∧ d = r then q else s.ring k d := by
  split
  · next h => obtain ⟨rfl, rfl⟩ := h; simp
  · next h => exact s.setRing_ring_ne q h

@[simp] theorem State.setRing_txarm (l k : LinkNo) (r : Dir) (q : Ring) :
    ((s.setRing l r q).link k).txarm = (s.link k).txarm := by
  unfold State.setRing; rw [State.modifyLink_link]; split
  · next h => subst h; simp
  · rfl

@[simp] theorem State.setRing_txc (l k : LinkNo) (r : Dir) (q : Ring) :
    ((s.setRing l r q).link k).txc = (s.link k).txc := by
  unfold State.setRing; rw [State.modifyLink_link]; split
  · next h => subst h; simp
  · rfl

@[simp] theorem State.setRing_wire (l k : LinkNo) (r : Dir) (q : Ring) :
    ((s.setRing l r q).link k).wire = (s.link k).wire := by
  unfold State.setRing; rw [State.modifyLink_link]; split
  · next h => subst h; simp
  · rfl

theorem State.setRing_link_ne {l k : LinkNo} (r : Dir) (q : Ring) (h : k ≠ l) :
    (s.setRing l r q).link k = s.link k := s.modifyLink_link_ne _ h

@[simp] theorem State.setRes_ring (v : Word) (k : LinkNo) (d : Dir) : (s.setRes v).ring k d = s.ring k d := rfl

@[simp] theorem State.advance_ring (k : LinkNo) (d : Dir) : s.advance.ring k d = s.ring k d := rfl

@[simp] theorem State.emit_ring (c k : LinkNo) (x y : Word) (d : Dir) : (s.emit c x y).ring k d = s.ring k d := rfl

@[simp] theorem State.writeByte_ring (a : Nat) (v : Byte) (k : LinkNo) (d : Dir) :
    (s.writeByte a v).ring k d = s.ring k d := rfl

@[simp] theorem State.armLink_ring (l k : LinkNo) (d : Dir) : (s.armLink l).ring k d = s.ring k d := by
  unfold State.armLink; rw [State.modifyLink_ring]; split
  · next h => subst h; cases d <;> rfl
  · rfl

@[simp] theorem State.disarmLink_ring (l k : LinkNo) (d : Dir) : (s.disarmLink l).ring k d = s.ring k d := by
  unfold State.disarmLink; rw [State.modifyLink_ring]; split
  · next h => subst h; cases d <;> rfl
  · rfl

@[simp] theorem State.completeLink_ring (l k : LinkNo) (d : Dir) :
    (s.completeLink l).ring k d = s.ring k d := by
  unfold State.completeLink; rw [State.modifyLink_ring]; split
  · next h => subst h; cases d <;> rfl
  · rfl

@[simp] theorem State.send_ring (l k : LinkNo) (b : Byte) (d : Dir) : (s.send l b).ring k d = s.ring k d := by
  unfold State.send; rw [State.modifyLink_ring]; split
  · next h => subst h; cases d <;> rfl
  · rfl

/-! A push: dropped when full, else one byte stored at head and head moved (R101, R130). -/

theorem State.pushByte_full {l : LinkNo} {r : Dir} (b : Byte) (h : s.full l r = true) :
    s.pushByte l r b = s := by simp [State.pushByte, h]

theorem State.pushByte_room {l : LinkNo} {r : Dir} (b : Byte) (h : s.full l r = false) :
    s.pushByte l r b = (s.writeByte (slotAddr s.cfg l r (s.ring l r).head) b).setRing l r
      ((s.ring l r).produce s.cfg.N) := by simp [State.pushByte, h]

theorem State.pushByte_ring_ne {l k : LinkNo} {r d : Dir} (b : Byte) (h : ¬(k = l ∧ d = r)) :
    (s.pushByte l r b).ring k d = s.ring k d := by
  unfold State.pushByte
  split
  · rfl
  · rw [State.setRing_ring_ne _ _ h, State.writeByte_ring]

theorem State.pushByte_link_ne {l k : LinkNo} (r : Dir) (b : Byte) (h : k ≠ l) :
    (s.pushByte l r b).link k = s.link k := by
  unfold State.pushByte
  split
  · rfl
  · rw [State.setRing_link_ne _ _ _ h, State.writeByte_link]

@[simp] theorem State.pushByte_txarm (l k : LinkNo) (r : Dir) (b : Byte) :
    ((s.pushByte l r b).link k).txarm = (s.link k).txarm := by
  unfold State.pushByte; split <;> simp

@[simp] theorem State.pushByte_txc (l k : LinkNo) (r : Dir) (b : Byte) :
    ((s.pushByte l r b).link k).txc = (s.link k).txc := by
  unfold State.pushByte; split <;> simp

@[simp] theorem State.pushByte_wire (l k : LinkNo) (r : Dir) (b : Byte) :
    ((s.pushByte l r b).link k).wire = (s.link k).wire := by
  unfold State.pushByte; split <;> simp

theorem State.pushByte_readByte_ne {l : LinkNo} {r : Dir} (b : Byte) {a : Nat}
    (h : a ≠ slotAddr s.cfg l r (s.ring l r).head) : (s.pushByte l r b).readByte a = s.readByte a := by
  unfold State.pushByte
  split
  · rfl
  · rw [State.setRing_readByte, State.writeByte_readByte_ne _ _ h]

theorem State.pushByte_wf {l : LinkNo} {r : Dir} (b : Byte) (h : Memory.wf s.mem = true) :
    Memory.wf (s.pushByte l r b).mem = true := by
  unfold State.pushByte
  split
  · exact h
  · exact Memory.wf_store _ _ h

theorem State.pushByte_mem {l : LinkNo} {r : Dir} {b : Byte} {c : Host.Cell}
    (h : c ∈ (s.pushByte l r b).mem) : c ∈ s.mem ∨ c.1 = slotAddr s.cfg l r (s.ring l r).head := by
  unfold State.pushByte at h
  split at h
  · exact .inl h
  · rcases Memory.mem_store h with rfl | h
    · exact .inr rfl
    · exact .inl h

theorem State.consume_ring (l k : LinkNo) (r d : Dir) (n : Nat) :
    (s.consume l r n).ring k d =
      if k = l ∧ d = r then (s.ring l r).consume s.cfg.N n else s.ring k d := s.setRing_ring ..

@[simp] theorem State.consume_ring_same (l : LinkNo) (r : Dir) (n : Nat) :
    (s.consume l r n).ring l r = (s.ring l r).consume s.cfg.N n := s.setRing_ring_same ..

@[simp] theorem State.consume_txarm (l k : LinkNo) (r : Dir) (n : Nat) :
    ((s.consume l r n).link k).txarm = (s.link k).txarm := s.setRing_txarm ..

@[simp] theorem State.consume_txc (l k : LinkNo) (r : Dir) (n : Nat) :
    ((s.consume l r n).link k).txc = (s.link k).txc := s.setRing_txc ..

@[simp] theorem State.consume_wire (l k : LinkNo) (r : Dir) (n : Nat) :
    ((s.consume l r n).link k).wire = (s.link k).wire := s.setRing_wire ..

/-! The refusal of an instruction the configuration does not admit (R79). -/

theorem refusal_none_iff (cfg : Config) (i : Instr) : i.refusal cfg = none ↔ i.WellFormed cfg := by
  unfold Instr.refusal Instr.WellFormed
  by_cases h1 : i.link.val > cfg.K
  · simp [h1, Nat.not_le.2 h1]
  · by_cases h2 : (i.op.needsSensor && i.link == 0) = true
    · simp only [h1, if_false, h2, if_true]
      simp only [Bool.and_eq_true, beq_iff_eq] at h2
      simp [h2.1, h2.2]
    · by_cases h3 : (i.op.isEvent && cfg.semantics == .concurrent) = true
      · simp only [h1, if_false, h2, h3, if_true]
        simp only [Bool.and_eq_true, beq_iff_eq] at h3
        simp [h3.1, h3.2]
      · simp only [h1, if_false, h2, h3, if_false]
        simp only [Bool.and_eq_true, beq_iff_eq, not_and] at h2 h3
        refine ⟨fun _ => ⟨Nat.le_of_not_lt h1, h2, fun he => ?_⟩, fun _ => by simp⟩
        cases hs : cfg.semantics
        · rfl
        · exact absurd hs (h3 he)

theorem whenLegal_next {i : Instr} {s : State} (t : State) (h : i.WellFormed s.cfg) :
    whenLegal i s t = .next t := by
  simp [whenLegal, (refusal_none_iff s.cfg i).2 h]

/-- A meaning answers a next state only on an instruction the configuration admits, and then its effect. -/
theorem whenLegal_inv {i : Instr} {s t u : State} (h : whenLegal i s t = .next u) :
    i.WellFormed s.cfg ∧ u = t := by
  unfold whenLegal at h
  cases hr : i.refusal s.cfg with
  | none => rw [hr] at h; cases h; exact ⟨(refusal_none_iff _ _).1 hr, rfl⟩
  | some why => rw [hr] at h; cases h

end Sys2Proof.Machine
end

