-- ==== Sys2Proof/Laws/Contents.lean ====
section
/-! SUPPORT. The queue contents of a ring (R27) under each index update: a push appends or drops, a consume drops from the front, and nothing that happens to another ring shows. -/

namespace Sys2Proof.Machine

variable {s t : State} {l : LinkNo} {r : Dir}

@[simp] theorem State.contents_length (s : State) (l : LinkNo) (r : Dir) :
    (s.contents l r).length = s.avail l r := by simp [State.contents]

theorem State.contents_getElem {k : Nat} (h : k < (s.contents l r).length) :
    (s.contents l r)[k] = s.readSlot l r ((s.ring l r).tail + k) := by simp [State.contents]

/-- Contents depend on the configuration, the ring's indices and the bytes of its slots. -/
theorem State.contents_congr (hc : t.cfg = s.cfg) (hr : t.ring l r = s.ring l r)
    (hb : ∀ i, t.readByte (slotAddr s.cfg l r i) = s.readByte (slotAddr s.cfg l r i)) :
    t.contents l r = s.contents l r := by
  unfold State.contents State.avail State.readSlot
  rw [hc, hr]
  simp only [hb]

theorem State.avail_lt (s : State) (l : LinkNo) (r : Dir) : s.avail l r < s.cfg.N :=
  Ring.avail_lt s.cfg.N_pos _

theorem State.full_iff (h : (s.ring l r).Ok s.cfg.N) : s.full l r = true ↔ s.avail l r = s.cfg.N - 1 :=
  Ring.isFull_iff h

theorem State.full_false_iff (h : (s.ring l r).Ok s.cfg.N) :
    s.full l r = false ↔ s.avail l r < s.cfg.N - 1 := by
  have h1 := State.full_iff h
  have h2 := s.avail_lt l r
  cases hf : s.full l r
  · simp only [hf, Bool.false_eq_true, false_iff] at h1
    simp only [true_iff]; omega
  · simp only [hf, true_iff] at h1
    simp only [Bool.true_eq_false, false_iff]; omega

/-- The slot at head is none of the contents' slots (R60 (c)). -/
theorem Ring.head_not_in_contents {n k : Nat} {q : Ring} (h : q.Ok n) (hk : k < q.avail n) :
    (q.tail + k) % n ≠ q.head % n := by
  have hlt := Ring.avail_lt (Nat.lt_of_le_of_lt (Nat.zero_le _) h.1) q
  rw [Ring.avail_eq h] at hk hlt
  rw [Nat.mod_eq_of_lt h.1]
  obtain ⟨hh, ht⟩ := h
  rw [add_mod_of_le ht (by omega)]
  split at hk <;> split <;> omega

/-- The slot at head comes right after the contents' slots. -/
theorem Ring.tail_add_avail {n : Nat} {q : Ring} (h : q.Ok n) : (q.tail + q.avail n) % n = q.head % n := by
  rw [Ring.avail_eq h, Nat.mod_eq_of_lt h.1]
  obtain ⟨hh, ht⟩ := h
  split
  · rw [Nat.add_sub_cancel' ‹_›, Nat.mod_eq_of_lt hh]
  · rw [add_mod_of_le ht (by omega)]; split <;> omega

theorem State.pushByte_ok (b : Byte) (h : (s.ring l r).Ok s.cfg.N) :
    ((s.pushByte l r b).ring l r).Ok s.cfg.N := by
  unfold State.pushByte
  split
  · exact h
  · rw [State.setRing_ring_same]; exact Ring.produce_ok h

/-- A push into a ring with room appends its byte (R101, R130). -/
theorem State.pushByte_contents_room (b : Byte) (h : (s.ring l r).Ok s.cfg.N) (hf : s.full l r = false) :
    (s.pushByte l r b).contents l r = s.contents l r ++ [b] := by
  rw [s.pushByte_room b hf]
  unfold State.contents State.avail State.readSlot
  simp only [State.setRing_ring_same, State.setRing_cfg, State.writeByte_cfg, State.setRing_readByte]
  rw [Ring.avail_produce h hf, List.range_succ, List.map_append]
  congr 1
  · apply List.map_congr_left
    intro k hk
    rw [List.mem_range] at hk
    refine State.writeByte_readByte_ne _ _ fun e => ?_
    exact Ring.head_not_in_contents h hk (slotAddr_inj e).2.2
  · simp only [List.map_cons, List.map_nil, List.cons.injEq, and_true]
    have e : slotAddr s.cfg l r ((Ring.produce s.cfg.N (s.ring l r)).tail + (s.ring l r).avail s.cfg.N) =
        slotAddr s.cfg l r (s.ring l r).head := slotAddr_congr l r (Ring.tail_add_avail h)
    rw [e, State.writeByte_readByte_same]

/-- A push keeps the first N - 1 bytes of what was there and what it brought (R101, R108, R130). -/
theorem State.pushByte_contents (b : Byte) (h : (s.ring l r).Ok s.cfg.N) :
    (s.pushByte l r b).contents l r = (s.contents l r ++ [b]).take (s.cfg.N - 1) := by
  have hlen : (s.contents l r).length = s.avail l r := s.contents_length l r
  cases hf : s.full l r
  · rw [State.pushByte_contents_room b h hf, List.take_of_length_le]
    have := (State.full_false_iff h).1 hf
    simp only [List.length_append, List.length_cons, List.length_nil]; omega
  · have := (State.full_iff h).1 hf
    rw [s.pushByte_full b hf, List.take_append_of_le_length (by omega), List.take_of_length_le (by omega)]

/-- A push shows in no other ring. -/
theorem State.pushByte_contents_ne {k : LinkNo} {d : Dir} (b : Byte) (h : ¬(k = l ∧ d = r)) :
    (s.pushByte l r b).contents k d = s.contents k d :=
  State.contents_congr (s.pushByte_cfg l r b) (s.pushByte_ring_ne b h) fun i =>
    s.pushByte_readByte_ne b (slotAddr_ne h _ i)

/-- Consuming n buffered bytes drops them from the front (R102, R105). -/
theorem State.consume_contents {n : Nat} (h : (s.ring l r).Ok s.cfg.N) (hn : n ≤ s.avail l r) :
    (s.consume l r n).contents l r = (s.contents l r).drop n := by
  have ha : ((s.consume l r n)).avail l r = s.avail l r - n := by
    unfold State.avail
    rw [State.consume_ring_same, State.consume_cfg, Ring.avail_consume h hn]
  apply List.ext_getElem
  · simp [ha]
  · intro k h1 h2
    rw [State.contents_getElem, List.getElem_drop, State.contents_getElem]
    unfold State.readSlot
    rw [State.consume_readByte, State.consume_cfg, State.consume_ring_same]
    congr 1
    apply slotAddr_congr
    show ((s.ring l r).tail + n) % s.cfg.N + k ≡ _ [MOD s.cfg.N]
    have : (s.ring l r).tail + (n + k) = ((s.ring l r).tail + n) + k := by omega
    rw [this]
    exact (Nat.mod_modEq _ _).add_right k

theorem State.consume_contents_ne {k : LinkNo} {d : Dir} {n : Nat} (h : ¬(k = l ∧ d = r)) :
    (s.consume l r n).contents k d = s.contents k d :=
  State.contents_congr rfl (by rw [State.consume_ring, if_neg h]) fun _ => rfl

theorem State.consume_ok {k : LinkNo} {d : Dir} (n : Nat) (h : (s.ring k d).Ok s.cfg.N) :
    ((s.consume l r n).ring k d).Ok s.cfg.N := by
  rw [State.consume_ring]
  split
  · next e => obtain ⟨rfl, rfl⟩ := e; exact Ring.consume_ok n h
  · exact h

/-- Bytes queued one after another: the first that fit are kept, the rest dropped (R106, R108). -/
theorem State.pushes_contents (bs : List Byte) (h : (s.ring l r).Ok s.cfg.N) :
    (bs.foldl (fun u b => u.pushByte l r b) s).contents l r =
      (s.contents l r ++ bs).take (s.cfg.N - 1) := by
  induction bs generalizing s with
  | nil =>
    have := s.avail_lt l r
    have hl := s.contents_length l r
    simp only [List.foldl_nil, List.append_nil]
    rw [List.take_of_length_le (by omega)]
  | cons b bs ih =>
    rw [List.foldl_cons, ih (by rw [State.pushByte_cfg]; exact State.pushByte_ok b h),
      State.pushByte_contents b h, State.pushByte_cfg]
    have hN := s.cfg.sixteen_le_N
    rw [show s.contents l r ++ b :: bs = (s.contents l r ++ [b]) ++ bs by simp]
    rw [List.take_append, List.take_append (l₁ := s.contents l r ++ [b]), List.take_take, Nat.min_self]
    congr 1
    rw [List.length_take]
    by_cases hle : (s.contents l r ++ [b]).length ≤ s.cfg.N - 1
    · rw [Nat.min_eq_right hle]
    · have h1 : s.cfg.N - 1 - min (s.cfg.N - 1) (s.contents l r ++ [b]).length = 0 := by omega
      have h2 : s.cfg.N - 1 - (s.contents l r ++ [b]).length = 0 := by omega
      rw [h1, h2]

end Sys2Proof.Machine
end

