-- ==== Sys2Proof/Laws/Encoding.lean ====
section
/-! SUPPORT. The fields of a command word: packing and unpacking (R75), the match and mask test as a test of fields (R78), and what a successful decode says of its word. -/

namespace Sys2Proof

theorem toNat_append_add {m n : Nat} (x : BitVec m) (y : BitVec n) :
    (x ++ y).toNat = x.toNat * 2 ^ n + y.toNat := by
  rw [BitVec.toNat_append, ← Nat.shiftLeft_add_eq_or_of_lt y.isLt, Nat.shiftLeft_eq]

theorem packWord_toNat (op : BitVec 4) (l : LinkNo) (r : BitVec 1) (imm : BitVec 9) :
    (packWord op l r imm).toNat = op.toNat * 4096 + l.val * 1024 + r.toNat * 512 + imm.toNat := by
  have h : (packWord op l r imm).toNat =
      op.toNat * 2 ^ (2 + (1 + 9)) + ((BitVec.ofNat 2 l.val).toNat * 2 ^ (1 + 9) + (r.toNat * 2 ^ 9 + imm.toNat)) := by
    unfold packWord
    rw [← toNat_append_add, ← toNat_append_add, ← toNat_append_add]
  have hl : (BitVec.ofNat 2 l.val).toNat = l.val := by
    rw [BitVec.toNat_ofNat]; exact Nat.mod_eq_of_lt l.isLt
  rw [h, hl]; omega

theorem opField_toNat (w : Word) : (opField w).toNat = w.toNat / 4096 := by
  have := w.isLt
  simp only [opField, BitVec.extractLsb'_toNat, Nat.shiftRight_eq_div_pow]; omega

theorem linkField_val (w : Word) : (linkField w).val = w.toNat / 1024 % 4 := by
  simp only [linkField, BitVec.extractLsb'_toNat, Nat.shiftRight_eq_div_pow, Fin.ofNat]
  omega

theorem dirField_toNat (w : Word) : (dirField w).toNat = w.toNat / 512 % 2 := by
  simp only [dirField, BitVec.extractLsb'_toNat, Nat.shiftRight_eq_div_pow]

theorem immField_toNat (w : Word) : (immField w).toNat = w.toNat % 512 := by
  simp only [immField, BitVec.extractLsb'_toNat, Nat.shiftRight_eq_div_pow]; omega

theorem opField_packWord (op : BitVec 4) (l r imm) : opField (packWord op l r imm) = op := by
  apply BitVec.eq_of_toNat_eq
  have h1 := l.isLt; have h2 := r.isLt; have h3 := imm.isLt
  rw [opField_toNat, packWord_toNat]; omega

theorem linkField_packWord (op : BitVec 4) (l r imm) : linkField (packWord op l r imm) = l := by
  apply Fin.ext
  have h1 := l.isLt; have h2 := r.isLt; have h3 := imm.isLt
  rw [linkField_val, packWord_toNat]; omega

theorem dirField_packWord (op : BitVec 4) (l r imm) : dirField (packWord op l r imm) = r := by
  apply BitVec.eq_of_toNat_eq
  have h1 := l.isLt; have h2 := r.isLt; have h3 := imm.isLt
  rw [dirField_toNat, packWord_toNat]; omega

theorem immField_packWord (op : BitVec 4) (l r imm) : immField (packWord op l r imm) = imm := by
  apply BitVec.eq_of_toNat_eq
  have h1 := l.isLt; have h2 := r.isLt; have h3 := imm.isLt
  rw [immField_toNat, packWord_toNat]; omega

theorem packWord_fields (w : Word) : packWord (opField w) (linkField w) (dirField w) (immField w) = w := by
  apply BitVec.eq_of_toNat_eq
  have := w.isLt
  rw [packWord_toNat, opField_toNat, linkField_val, dirField_toNat, immField_toNat]; omega

theorem ofCode_code (op : Op) : Op.ofCode op.code = some op := by cases op <;> rfl

theorem code_ofCode {c : BitVec 4} {op : Op} (h : Op.ofCode c = some op) : op.code = c := by
  revert c op; decide +revert

theorem packWord_inj {o p : BitVec 4} {l k : LinkNo} {r q : BitVec 1} {i j : BitVec 9}
    (h : packWord o l r i = packWord p k q j) : o = p ∧ l = k ∧ r = q ∧ i = j :=
  ⟨by simpa [opField_packWord] using congrArg opField h,
   by simpa [linkField_packWord] using congrArg linkField h,
   by simpa [dirField_packWord] using congrArg dirField h,
   by simpa [immField_packWord] using congrArg immField h⟩

theorem packWord_and (o p : BitVec 4) (l : LinkNo) (r q : BitVec 1) (i j : BitVec 9) :
    packWord o l r i &&& packWord p 0 q j = packWord (o &&& p) 0 (r &&& q) (i &&& j) := by
  unfold packWord
  erw [BitVec.and_append, BitVec.and_append, BitVec.and_append]
  simp

/-- The must-be-zero part of a row's mask at the direction bit (R78). -/
def maskDir (op : Op) : BitVec 1 := dirField op.mask
/-- The must-be-zero part of a row's mask in imm9 (R78). -/
def maskImm (op : Op) : BitVec 9 := immField op.mask

theorem mask_eq (op : Op) : op.mask = packWord 0xF 0 (maskDir op) (maskImm op) := by
  cases op <;> decide

theorem pattern_eq (op : Op) : op.pattern = packWord op.code 0 0 0 := by
  cases op <;> decide

theorem packWord_fits (op : Op) (o : BitVec 4) (l : LinkNo) (r : BitVec 1) (i : BitVec 9) :
    packWord o l r i &&& op.mask = op.pattern ↔ o = op.code ∧ r &&& maskDir op = 0 ∧ i &&& maskImm op = 0 := by
  rw [mask_eq, pattern_eq, packWord_and]
  have hF : o &&& 0xF = o := by revert o; decide
  rw [hF]
  exact ⟨fun h => ⟨(packWord_inj h).1, (packWord_inj h).2.2⟩, fun ⟨h1, h2, h3⟩ => by rw [h1, h2, h3]⟩

theorem fits_iff (op : Op) (w : Word) :
    w &&& op.mask = op.pattern ↔ opField w = op.code ∧ dirField w &&& maskDir op = 0 ∧ immField w &&& maskImm op = 0 := by
  conv_lhs => rw [← packWord_fields w]
  exact packWord_fits ..

theorem and_no_mask (d : BitVec 9) {m : BitVec 9} (h : m = 0) : d &&& m = 0 := by
  rw [h]; exact BitVec.and_zero

theorem byte_imm (b : Byte) : (b.setWidth 9 : BitVec 9) &&& 0x100 = 0 := by revert b; decide

theorem byteOperand_setWidth (b : Byte) : byteOperand (b.setWidth 9) = b := by revert b; decide

theorem encode_fits (i : Instr) : encode i &&& i.op.mask = i.op.pattern := by
  refine (packWord_fits ..).2 ⟨rfl, ?_, ?_⟩
  · cases i with
    | rinit l r => show r.bit &&& maskDir .rinit = 0; cases r <;> decide
    | avl l r => show r.bit &&& maskDir .avl = 0; cases r <;> decide
    | _ => exact BitVec.zero_and
  · cases i with
    | txw l b => exact (show maskImm .txw = 0x100 by decide) ▸ byte_imm b
    | rxev l b => exact (show maskImm .rxev = 0x100 by decide) ▸ byte_imm b
    | rxpk l d => exact and_no_mask d (show maskImm .rxpk = 0 by decide)
    | rxds l n => exact and_no_mask n (show maskImm .rxds = 0 by decide)
    | _ => exact BitVec.zero_and

theorem assemble_encode (i : Instr) : assemble i.op i.link i.dirBit i.imm = i := by
  cases i with
  | rinit l r => cases r <;> rfl
  | avl l r => cases r <;> rfl
  | txw l b => exact congrArg (Instr.txw l) (byteOperand_setWidth b)
  | rxev l b => exact congrArg (Instr.rxev l) (byteOperand_setWidth b)
  | _ => rfl

theorem assemble_op (op : Op) (l r i) : (assemble op l r i).op = op := by cases op <;> rfl

theorem assemble_link (op : Op) (l r i) : (assemble op l r i).link = l := by cases op <;> rfl

theorem assemble_dirBit {op : Op} {l : LinkNo} {r : BitVec 1} {i : BitVec 9} (h : r &&& maskDir op = 0) : (assemble op l r i).dirBit = r := by
  revert r; cases op <;> simp only [assemble, Instr.dirBit] <;> decide

theorem assemble_imm {op : Op} {l : LinkNo} {r : BitVec 1} {i : BitVec 9} (h : i &&& maskImm op = 0) : (assemble op l r i).imm = i := by
  revert i; cases op <;> simp only [assemble, Instr.imm] <;> decide

theorem decode_inv {cfg w i} (h : decode cfg w = .ok i) : w &&& i.op.mask = i.op.pattern ∧ i = assemble i.op (linkField w) (dirField w) (immField w) ∧ i.WellFormed cfg := by
  unfold decode at h
  split at h
  · cases h
  · next op hop =>
    split at h
    · split at h <;> cases h
    · next hm =>
      split at h
      · cases h
      · next hr =>
        cases h
        rw [assemble_op]
        exact ⟨not_not.1 hm, rfl, (Machine.refusal_none_iff _ _).1 hr⟩

theorem decode_of_fits {cfg w} {op : Op} (h : w &&& op.mask = op.pattern) :
    decode cfg w = match (assemble op (linkField w) (dirField w) (immField w)).refusal cfg with
      | some why => .error why
      | none => .ok (assemble op (linkField w) (dirField w) (immField w)) := by
  unfold decode
  rw [((fits_iff _ _).1 h).1, ofCode_code]
  exact if_neg (not_not.2 h)

theorem linkBits (w : Word) : ((w >>> 10) &&& 3).toNat = (linkField w).val := by
  rw [linkField_val]
  have : ((w >>> 10) &&& 3).toNat = w.toNat / 1024 % 4 := by
    have h := Nat.and_two_pow_sub_one_eq_mod (w.toNat / 1024) 2
    simp only [BitVec.toNat_and, BitVec.toNat_ushiftRight, Nat.shiftRight_eq_div_pow]
    simpa using h
  exact this

end Sys2Proof
end

