-- ==== Sys2Proof/Laws/Exec.lean ====
section
/-! SUPPORT. Every meaning is its effect, guarded by the configuration: the inversion of `exec` that later proofs cite. -/

namespace Sys2Proof.Machine

/-- The effect of an instruction the configuration admits. -/
def effectOf (i : Instr) (s : State) : State :=
  match i with
  | .rinit l r => (s.initRing l r).advance
  | .txw l b => (s.pushByte l .tx b).advance
  | .rxrd l => (s.readIntoRes l).advance
  | .avl l r => (s.setRes (BitVec.ofNat 16 (s.avail l r))).advance
  | .rxpk l d => (s.setRes (zext16 (s.peek l (countOperand d)))).advance
  | .rxds l n => (s.consume l .rx (countOperand n)).advance
  | .arm l => (s.armLink l).advance
  | .sstep l => (s.syncPass l).advance
  | .drain l => s.drainPass l
  | .chk l =>
    (s.setRes (chkWord (cks (s.peekWindow l)) (s.peekWindow l).syncOk (s.peekWindow l).cksOk)).advance
  | .stat l => (s.setRes (s.link l).lstat).advance
  | .req l => (if l = 0 then s.requestAll else s.sendRequest l).advance
  | .rxev l b => (s.byteArrives l b).advance
  | .txrdy l => (s.transmitReady l).advance
  | .txdone l => (s.transmitComplete l).advance

theorem exec_eq (i : Instr) (s : State) : exec i s = whenLegal i s (effectOf i s) := by
  cases i <;> rfl

theorem exec_next {i : Instr} {s : State} (h : i.WellFormed s.cfg) : exec i s = .next (effectOf i s) := by
  rw [exec_eq, whenLegal_next _ h]

/-- If a meaning answers a next state, the configuration admits the instruction and the state is its effect. -/
theorem exec_inv {i : Instr} {s t : State} (h : exec i s = .next t) :
    i.WellFormed s.cfg ∧ t = effectOf i s := whenLegal_inv (exec_eq i s ▸ h)

/-- What one pass can do (R170). -/
theorem State.syncPass_cases (s : State) (l : LinkNo) :
    (s.avail l .rx < 9 ∧ s.syncPass l = s.setRes 0) ∨
    (9 ≤ s.avail l .rx ∧ (s.syncWindow l).b0 ≠ syncByte ∧
      s.syncPass l = (s.consume l .rx 1).setRes 1) ∨
    (9 ≤ s.avail l .rx ∧ (s.syncWindow l).b0 = syncByte ∧ cks (s.syncWindow l) ≠ (s.syncWindow l).b8 ∧
      s.syncPass l = (s.consume l .rx 1).setRes 2) ∨
    (9 ≤ s.avail l .rx ∧ (s.syncWindow l).b0 = syncByte ∧ cks (s.syncWindow l) = (s.syncWindow l).b8 ∧
      s.syncPass l = ((s.consume l .rx 9).emit l (s.syncWindow l).co2 (s.syncWindow l).temp16).setRes 3) := by
  have hb0 : s.readSlot l .rx (s.ring l .rx).tail = (s.syncWindow l).b0 := rfl
  unfold State.syncPass
  by_cases h1 : s.avail l .rx < frameLen
  · exact .inl ⟨h1, by rw [if_pos h1]; rfl⟩
  have h9 : 9 ≤ s.avail l .rx := Nat.le_of_not_lt h1
  refine .inr ?_
  rw [if_neg h1, hb0]
  by_cases h2 : (s.syncWindow l).b0 = syncByte
  · rw [if_neg (not_not.2 h2)]
    refine .inr ?_
    by_cases h3 : cks (s.syncWindow l) = (s.syncWindow l).b8
    · exact .inr ⟨h9, h2, h3, by simp [decodeFrame, Window.cksOk, h3]; rfl⟩
    · exact .inl ⟨h9, h2, h3, by simp [decodeFrame, Window.cksOk, h3]; rfl⟩
  · exact .inl ⟨h9, h2, by rw [if_pos h2]; rfl⟩

/-- What a transmit-ready event can do (R132). -/
theorem State.transmitReady_cases (s : State) (l : LinkNo) :
    ((s.link l).txarm = false ∧ s.transmitReady l = s) ∨
    ((s.link l).txarm = true ∧ 0 < s.avail l .tx ∧
      s.transmitReady l = (s.consume l .tx 1).send l (s.readSlot l .tx (s.ring l .tx).tail)) ∨
    ((s.link l).txarm = true ∧ s.avail l .tx = 0 ∧ s.transmitReady l = s.disarmLink l) := by
  unfold State.transmitReady
  cases (s.link l).txarm
  · exact .inl ⟨rfl, rfl⟩
  · by_cases h : 0 < s.avail l .tx
    · exact .inr (.inl ⟨rfl, h, by simp [h]⟩)
    · exact .inr (.inr ⟨rfl, by omega, by simp [h]⟩)

end Sys2Proof.Machine
end

