-- ==== Sys2Proof/Laws/Request.lean ====
section
/-! SUPPORT. Bytes queued one after another on one transmit ring, the request of one link, and the broadcast (R106, R191, R192): what each changes and what it leaves. -/

namespace Sys2Proof.Machine

variable (s : State)

theorem State.pushBytes_cons (l : LinkNo) (b : Byte) (bs : List Byte) :
    s.pushBytes l (b :: bs) = (s.pushByte l .tx b).pushBytes l bs := rfl

@[simp] theorem State.pushBytes_cfg (l : LinkNo) (bs : List Byte) : (s.pushBytes l bs).cfg = s.cfg := by
  induction bs generalizing s with
  | nil => rfl
  | cons b bs ih => rw [State.pushBytes_cons, ih, State.pushByte_cfg]

@[simp] theorem State.pushBytes_trace (l : LinkNo) (bs : List Byte) : (s.pushBytes l bs).trace = s.trace := by
  induction bs generalizing s with
  | nil => rfl
  | cons b bs ih => rw [State.pushBytes_cons, ih, State.pushByte_trace]

@[simp] theorem State.pushBytes_tp (l : LinkNo) (bs : List Byte) : (s.pushBytes l bs).tp = s.tp := by
  induction bs generalizing s with
  | nil => rfl
  | cons b bs ih => rw [State.pushBytes_cons, ih, State.pushByte_tp]

@[simp] theorem State.pushBytes_res (l : LinkNo) (bs : List Byte) : (s.pushBytes l bs).res = s.res := by
  induction bs generalizing s with
  | nil => rfl
  | cons b bs ih => rw [State.pushBytes_cons, ih, State.pushByte_res]

@[simp] theorem State.pushBytes_readings (l : LinkNo) (bs : List Byte) : (s.pushBytes l bs).readings = s.readings := by
  induction bs generalizing s with
  | nil => rfl
  | cons b bs ih => rw [State.pushBytes_cons, ih, State.pushByte_readings]

@[simp] theorem State.pushBytes_env (l : LinkNo) (bs : List Byte) : (s.pushBytes l bs).env = s.env := by
  induction bs generalizing s with
  | nil => rfl
  | cons b bs ih => rw [State.pushBytes_cons, ih, State.pushByte_env]

@[simp] theorem State.pushBytes_draw (l : LinkNo) (bs : List Byte) : (s.pushBytes l bs).draw = s.draw := by
  induction bs generalizing s with
  | nil => rfl
  | cons b bs ih => rw [State.pushBytes_cons, ih, State.pushByte_draw]

@[simp] theorem State.pushBytes_txarm (l k : LinkNo) (bs : List Byte) :
    ((s.pushBytes l bs).link k).txarm = (s.link k).txarm := by
  induction bs generalizing s with
  | nil => rfl
  | cons b bs ih => rw [State.pushBytes_cons, ih, State.pushByte_txarm]

@[simp] theorem State.pushBytes_txc (l k : LinkNo) (bs : List Byte) :
    ((s.pushBytes l bs).link k).txc = (s.link k).txc := by
  induction bs generalizing s with
  | nil => rfl
  | cons b bs ih => rw [State.pushBytes_cons, ih, State.pushByte_txc]

@[simp] theorem State.pushBytes_wire (l k : LinkNo) (bs : List Byte) :
    ((s.pushBytes l bs).link k).wire = (s.link k).wire := by
  induction bs generalizing s with
  | nil => rfl
  | cons b bs ih => rw [State.pushBytes_cons, ih, State.pushByte_wire]

theorem State.pushBytes_ring_ne {l k : LinkNo} {d : Dir} (bs : List Byte) (h : ¬(k = l ∧ d = .tx)) :
    (s.pushBytes l bs).ring k d = s.ring k d := by
  induction bs generalizing s with
  | nil => rfl
  | cons b bs ih => rw [State.pushBytes_cons, ih, State.pushByte_ring_ne _ _ h]

theorem State.pushBytes_link_ne {l k : LinkNo} (bs : List Byte) (h : k ≠ l) :
    (s.pushBytes l bs).link k = s.link k := by
  induction bs generalizing s with
  | nil => rfl
  | cons b bs ih => rw [State.pushBytes_cons, ih, State.pushByte_link_ne _ _ _ h]

theorem State.pushBytes_ok {l k : LinkNo} {d : Dir} (bs : List Byte) (h : (s.ring k d).Ok s.cfg.N) :
    ((s.pushBytes l bs).ring k d).Ok s.cfg.N := by
  by_cases hk : k = l ∧ d = .tx
  · obtain ⟨rfl, rfl⟩ := hk
    induction bs generalizing s with
    | nil => exact h
    | cons b bs ih =>
      have hb : ((s.pushByte k .tx b).ring k .tx).Ok (s.pushByte k .tx b).cfg.N := by
        rw [State.pushByte_cfg]; exact State.pushByte_ok b h
      have := ih _ hb
      rw [State.pushByte_cfg] at this
      exact this
  · rw [State.pushBytes_ring_ne _ _ hk]; exact h

theorem State.pushBytes_wf (l : LinkNo) (bs : List Byte) (h : Memory.wf s.mem = true) :
    Memory.wf (s.pushBytes l bs).mem = true := by
  induction bs generalizing s with
  | nil => exact h
  | cons b bs ih => exact ih _ (s.pushByte_wf b h)

/-- A byte of storage that pushes on ring (l, TX) change lies in that ring. -/
theorem State.pushBytes_mem {l : LinkNo} {bs : List Byte} {c : Host.Cell} (h : c ∈ (s.pushBytes l bs).mem) :
    c ∈ s.mem ∨ ∃ i, c.1 = slotAddr s.cfg l .tx i := by
  induction bs generalizing s with
  | nil => exact .inl h
  | cons b bs ih =>
    rcases ih _ h with h | ⟨i, h⟩
    · rcases s.pushByte_mem h with h | h
      · exact .inl h
      · exact .inr ⟨_, h⟩
    · exact .inr ⟨i, by simpa using h⟩

theorem State.pushBytes_contents {l : LinkNo} (bs : List Byte) (h : (s.ring l .tx).Ok s.cfg.N) :
    (s.pushBytes l bs).contents l .tx = (s.contents l .tx ++ bs).take (s.cfg.N - 1) :=
  State.pushes_contents bs h

theorem State.pushBytes_contents_ne {l k : LinkNo} {d : Dir} (bs : List Byte) (h : ¬(k = l ∧ d = .tx)) :
    (s.pushBytes l bs).contents k d = s.contents k d := by
  induction bs generalizing s with
  | nil => rfl
  | cons b bs ih => rw [State.pushBytes_cons, ih, State.pushByte_contents_ne _ h]

/-- Where n bytes queued leave head: moved by as many as fit. -/
theorem State.pushBytes_head {l : LinkNo} (bs : List Byte) (h : (s.ring l .tx).Ok s.cfg.N) :
    ((s.pushBytes l bs).ring l .tx).head =
      ((s.ring l .tx).head + min bs.length (s.free l .tx)) % s.cfg.N := by
  induction bs generalizing s with
  | nil => rw [List.length_nil, Nat.zero_min, Nat.add_zero, Nat.mod_eq_of_lt h.1]; rfl
  | cons b bs ih =>
    have hb : ((s.pushByte l .tx b).ring l .tx).Ok (s.pushByte l .tx b).cfg.N := by
      rw [State.pushByte_cfg]; exact State.pushByte_ok b h
    rw [State.pushBytes_cons, ih _ hb]
    cases hf : s.full l .tx
    · have ha := (State.full_false_iff h).1 hf
      have hav : (s.pushByte l .tx b).avail l .tx = s.avail l .tx + 1 := by
        have := congrArg List.length (State.pushByte_contents_room b h hf)
        simpa using this
      have hh : ((s.pushByte l .tx b).ring l .tx).head = ((s.ring l .tx).head + 1) % s.cfg.N := by
        rw [s.pushByte_room b hf]; simp [Ring.produce]
      have hfree : (s.pushByte l .tx b).free l .tx = s.free l .tx - 1 := by
        unfold State.free; rw [hav, State.pushByte_cfg]; omega
      rw [hh, hfree, State.pushByte_cfg, Nat.mod_add_mod, List.length_cons]
      congr 1
      unfold State.free
      omega
    · have ha := (State.full_iff h).1 hf
      have hz : s.free l .tx = 0 := by unfold State.free; omega
      rw [s.pushByte_full b hf, hz, Nat.min_zero, Nat.min_zero]

/-! Pushes move no tail. -/

@[simp] theorem State.pushByte_tail (l k : LinkNo) (r d : Dir) (b : Byte) :
    ((s.pushByte l r b).ring k d).tail = (s.ring k d).tail := by
  unfold State.pushByte
  split
  · rfl
  · rw [State.setRing_ring]
    split
    · next h => rw [h.1, h.2]; rfl
    · rfl

@[simp] theorem State.pushBytes_tail (l k : LinkNo) (d : Dir) (bs : List Byte) :
    ((s.pushBytes l bs).ring k d).tail = (s.ring k d).tail := by
  induction bs generalizing s with
  | nil => rfl
  | cons b bs ih => rw [State.pushBytes_cons, ih, State.pushByte_tail]

/-- Bytes queued touch only the slots from head onward that they fill. -/
theorem State.pushBytes_readByte {l : LinkNo} (bs : List Byte) (h : (s.ring l .tx).Ok s.cfg.N) {a : Nat}
    (ha : a ∉ s.slotsFromHead l .tx (min bs.length (s.free l .tx))) :
    (s.pushBytes l bs).readByte a = s.readByte a := by
  induction bs generalizing s with
  | nil => rfl
  | cons b bs ih =>
    have hb : ((s.pushByte l .tx b).ring l .tx).Ok (s.pushByte l .tx b).cfg.N := by
      rw [State.pushByte_cfg]; exact State.pushByte_ok b h
    rw [State.pushBytes_cons]
    cases hf : s.full l .tx
    · have hav := (State.full_false_iff h).1 hf
      have hav' : (s.pushByte l .tx b).avail l .tx = s.avail l .tx + 1 := by
        have := congrArg List.length (State.pushByte_contents_room b h hf)
        simpa using this
      have hh : ((s.pushByte l .tx b).ring l .tx).head = ((s.ring l .tx).head + 1) % s.cfg.N := by
        rw [s.pushByte_room b hf]; simp [Ring.produce]
      have hmem : ∀ k, k < min (b :: bs).length (s.free l .tx) →
          a ≠ slotAddr s.cfg l .tx ((s.ring l .tx).head + k) := fun k hk e =>
        ha (List.mem_map.2 ⟨k, List.mem_range.2 hk, e.symm⟩)
      have hfree : (s.pushByte l .tx b).free l .tx = s.free l .tx - 1 := by
        unfold State.free; rw [hav', State.pushByte_cfg]; omega
      rw [ih _ hb]
      · refine s.pushByte_readByte_ne b ?_
        have := hmem 0 (by unfold State.free; simp only [List.length_cons]; omega)
        simpa using this
      · intro hc
        obtain ⟨k, hk, e⟩ := List.mem_map.1 hc
        rw [List.mem_range, hfree] at hk
        refine hmem (k + 1) (by simp only [List.length_cons]; omega) ?_
        rw [← e, hh, State.pushByte_cfg]
        apply slotAddr_congr
        rw [Nat.mod_add_mod]
        congr 1
        omega
    · rw [s.pushByte_full b hf]
      have hz : s.free l .tx = 0 := by
        have := (State.full_iff h).1 hf
        unfold State.free; omega
      exact ih s h (by rw [hz, Nat.min_zero]; simp [State.slotsFromHead])

/-! One request (R191). -/

@[simp] theorem State.sendRequest_cfg (l : LinkNo) : (s.sendRequest l).cfg = s.cfg := by
  rw [State.sendRequest, State.armLink_cfg, State.pushBytes_cfg]

@[simp] theorem State.sendRequest_trace (l : LinkNo) : (s.sendRequest l).trace = s.trace := by
  rw [State.sendRequest, State.armLink_trace, State.pushBytes_trace]

@[simp] theorem State.sendRequest_tp (l : LinkNo) : (s.sendRequest l).tp = s.tp := by
  rw [State.sendRequest, State.armLink_tp, State.pushBytes_tp]

@[simp] theorem State.sendRequest_res (l : LinkNo) : (s.sendRequest l).res = s.res := by
  rw [State.sendRequest, State.armLink_res, State.pushBytes_res]

@[simp] theorem State.sendRequest_readings (l : LinkNo) : (s.sendRequest l).readings = s.readings := by
  rw [State.sendRequest, State.armLink_readings, State.pushBytes_readings]

@[simp] theorem State.sendRequest_env (l : LinkNo) : (s.sendRequest l).env = s.env := by
  rw [State.sendRequest, State.armLink_env, State.pushBytes_env]

@[simp] theorem State.sendRequest_draw (l : LinkNo) : (s.sendRequest l).draw = s.draw := by
  rw [State.sendRequest, State.armLink_draw, State.pushBytes_draw]

theorem State.sendRequest_eq (l : LinkNo) : s.sendRequest l = (s.pushBytes l reqFrame).armLink l := by
  rw [State.sendRequest]

theorem State.armLink_link_ne {l k : LinkNo} (h : k ≠ l) : (s.armLink l).link k = s.link k :=
  s.modifyLink_link_ne _ h

@[simp] theorem State.armLink_readByte (l : LinkNo) (a : Nat) : (s.armLink l).readByte a = s.readByte a := rfl

@[simp] theorem State.armLink_wire (l k : LinkNo) : ((s.armLink l).link k).wire = (s.link k).wire := by
  unfold State.armLink
  rw [State.modifyLink_link]
  split
  · next h => subst h; rfl
  · rfl

theorem State.armLink_contents (l k : LinkNo) (d : Dir) : (s.armLink l).contents k d = s.contents k d :=
  State.contents_congr rfl (State.armLink_ring ..) fun _ => rfl

theorem State.sendRequest_link_ne {l k : LinkNo} (h : k ≠ l) : (s.sendRequest l).link k = s.link k := by
  rw [State.sendRequest_eq, State.armLink_link_ne _ h, State.pushBytes_link_ne _ _ h]

@[simp] theorem State.sendRequest_ring (l k : LinkNo) (d : Dir) :
    (s.sendRequest l).ring k d = (s.pushBytes l reqFrame).ring k d := by
  rw [State.sendRequest_eq, State.armLink_ring]

@[simp] theorem State.sendRequest_readByte (l : LinkNo) (a : Nat) :
    (s.sendRequest l).readByte a = (s.pushBytes l reqFrame).readByte a := by
  rw [State.sendRequest_eq, State.armLink_readByte]

@[simp] theorem State.sendRequest_mem (l : LinkNo) : (s.sendRequest l).mem = (s.pushBytes l reqFrame).mem := by
  rw [State.sendRequest_eq, State.armLink_mem]

theorem State.sendRequest_contents (l k : LinkNo) (d : Dir) :
    (s.sendRequest l).contents k d = (s.pushBytes l reqFrame).contents k d := by
  rw [State.sendRequest_eq, State.armLink_contents]

@[simp] theorem State.sendRequest_wire (l k : LinkNo) :
    ((s.sendRequest l).link k).wire = (s.link k).wire := by
  rw [State.sendRequest_eq, State.armLink_wire, State.pushBytes_wire]

@[simp] theorem State.sendRequest_txarm_same (l : LinkNo) : ((s.sendRequest l).link l).txarm = true := by
  rw [State.sendRequest_eq]; simp [State.armLink]

@[simp] theorem State.sendRequest_txc_same (l : LinkNo) : ((s.sendRequest l).link l).txc = false := by
  rw [State.sendRequest_eq]; simp [State.armLink]

/-! The broadcast (R192): what holds of a state and is kept by every request on a sensor link holds after it. -/

theorem mem_sensorLinksOf {cfg : Config} {l : LinkNo} : l ∈ sensorLinksOf cfg ↔ l ≠ 0 ∧ l.val ≤ cfg.K := by
  unfold sensorLinksOf
  rw [List.mem_filter, decide_eq_true_eq]
  have h : ∀ l : LinkNo, l ∈ ([1, 2, 3] : List LinkNo) ↔ l ≠ 0 := by decide
  rw [h]

theorem nodup_sensorLinksOf (cfg : Config) : (sensorLinksOf cfg).Nodup :=
  List.Nodup.filter _ (by decide)

theorem State.requestAll_induction {P : State → Prop} (h0 : P s)
    (step : ∀ (t : State) (l : LinkNo), l ≠ 0 → l.val ≤ s.cfg.K → P t → P (t.sendRequest l)) :
    P s.requestAll := by
  have key : ∀ ls : List LinkNo, (∀ l ∈ ls, l ≠ 0 ∧ l.val ≤ s.cfg.K) → ∀ t, P t →
      P (ls.foldl (fun t l => t.sendRequest l) t) := by
    intro ls
    induction ls with
    | nil => intro _ t h; exact h
    | cons l ls ih =>
      intro hl t h
      have hl0 := hl l (List.mem_cons_self ..)
      rw [List.foldl_cons]
      exact ih (fun k hk => hl k (List.mem_cons_of_mem _ hk)) (t.sendRequest l) (step t l hl0.1 hl0.2 h)
  rw [State.requestAll]
  exact key (sensorLinksOf s.cfg) (fun l hl => mem_sensorLinksOf.1 hl) s h0

@[simp] theorem State.requestAll_cfg : s.requestAll.cfg = s.cfg :=
  s.requestAll_induction (P := fun t => t.cfg = s.cfg) rfl fun t l _ _ h => by rw [State.sendRequest_cfg, h]

@[simp] theorem State.requestAll_trace : s.requestAll.trace = s.trace :=
  s.requestAll_induction (P := fun t => t.trace = s.trace) rfl fun t l _ _ h => by rw [State.sendRequest_trace, h]

@[simp] theorem State.requestAll_tp : s.requestAll.tp = s.tp :=
  s.requestAll_induction (P := fun t => t.tp = s.tp) rfl fun t l _ _ h => by rw [State.sendRequest_tp, h]

@[simp] theorem State.requestAll_res : s.requestAll.res = s.res :=
  s.requestAll_induction (P := fun t => t.res = s.res) rfl fun t l _ _ h => by rw [State.sendRequest_res, h]

@[simp] theorem State.requestAll_readings : s.requestAll.readings = s.readings :=
  s.requestAll_induction (P := fun t => t.readings = s.readings) rfl fun t l _ _ h => by rw [State.sendRequest_readings, h]

@[simp] theorem State.requestAll_env : s.requestAll.env = s.env :=
  s.requestAll_induction (P := fun t => t.env = s.env) rfl fun t l _ _ h => by rw [State.sendRequest_env, h]

@[simp] theorem State.requestAll_draw : s.requestAll.draw = s.draw :=
  s.requestAll_induction (P := fun t => t.draw = s.draw) rfl fun t l _ _ h => by rw [State.sendRequest_draw, h]

/-- Requests on links other than l leave link l alone. -/
theorem State.requests_link_of_notMem (ls : List LinkNo) {l : LinkNo} (h : l ∉ ls) :
    (ls.foldl (fun t k => t.sendRequest k) s).link l = s.link l := by
  induction ls generalizing s with
  | nil => rfl
  | cons k ls ih =>
    simp only [List.mem_cons, not_or] at h
    rw [List.foldl_cons, ih _ h.2, State.sendRequest_link_ne _ h.1]

end Sys2Proof.Machine
end

