-- ==== Sys2Proof/Laws/Frames.lean ====
section
/-! SUPPORT. What the shared operations leave unchanged: contents under a register update, and the frames of a synchroniser pass, a DRAIN iteration, a transmit-ready event, the broadcast, an event's move and the choice of the next move. -/

namespace Sys2Proof.Machine

variable (s : State)

/-! Contents (R27) see neither registers nor outputs. -/

@[simp] theorem State.advance_contents (l : LinkNo) (r : Dir) : s.advance.contents l r = s.contents l r :=
  State.contents_congr rfl rfl fun _ => rfl

@[simp] theorem State.setRes_contents (v : Word) (l : LinkNo) (r : Dir) :
    (s.setRes v).contents l r = s.contents l r := State.contents_congr rfl rfl fun _ => rfl

@[simp] theorem State.emit_contents (c : LinkNo) (x y : Word) (l : LinkNo) (r : Dir) :
    (s.emit c x y).contents l r = s.contents l r := State.contents_congr rfl rfl fun _ => rfl

@[simp] theorem State.send_contents (k : LinkNo) (b : Byte) (l : LinkNo) (r : Dir) :
    (s.send k b).contents l r = s.contents l r := State.contents_congr rfl (State.send_ring ..) fun _ => rfl

@[simp] theorem State.disarmLink_contents (k l : LinkNo) (r : Dir) :
    (s.disarmLink k).contents l r = s.contents l r := State.contents_congr rfl (State.disarmLink_ring ..) fun _ => rfl

@[simp] theorem State.completeLink_contents (k l : LinkNo) (r : Dir) :
    (s.completeLink k).contents l r = s.contents l r := State.contents_congr rfl (State.completeLink_ring ..) fun _ => rfl

/-! One pass of the synchroniser (R170): it touches res, one tail and the readings alone. -/

@[simp] theorem State.syncPass_cfg (l : LinkNo) : (s.syncPass l).cfg = s.cfg := by
  rcases s.syncPass_cases l with ⟨_, h⟩ | ⟨_, _, h⟩ | ⟨_, _, _, h⟩ | ⟨_, _, _, h⟩ <;> rw [h] <;> rfl

@[simp] theorem State.syncPass_trace (l : LinkNo) : (s.syncPass l).trace = s.trace := by
  rcases s.syncPass_cases l with ⟨_, h⟩ | ⟨_, _, h⟩ | ⟨_, _, _, h⟩ | ⟨_, _, _, h⟩ <;> rw [h] <;> rfl

@[simp] theorem State.syncPass_env (l : LinkNo) : (s.syncPass l).env = s.env := by
  rcases s.syncPass_cases l with ⟨_, h⟩ | ⟨_, _, h⟩ | ⟨_, _, _, h⟩ | ⟨_, _, _, h⟩ <;> rw [h] <;> rfl

@[simp] theorem State.syncPass_draw (l : LinkNo) : (s.syncPass l).draw = s.draw := by
  rcases s.syncPass_cases l with ⟨_, h⟩ | ⟨_, _, h⟩ | ⟨_, _, _, h⟩ | ⟨_, _, _, h⟩ <;> rw [h] <;> rfl

@[simp] theorem State.syncPass_tp (l : LinkNo) : (s.syncPass l).tp = s.tp := by
  rcases s.syncPass_cases l with ⟨_, h⟩ | ⟨_, _, h⟩ | ⟨_, _, _, h⟩ | ⟨_, _, _, h⟩ <;> rw [h] <;> rfl

@[simp] theorem State.syncPass_mem (l : LinkNo) : (s.syncPass l).mem = s.mem := by
  rcases s.syncPass_cases l with ⟨_, h⟩ | ⟨_, _, h⟩ | ⟨_, _, _, h⟩ | ⟨_, _, _, h⟩ <;> rw [h] <;> rfl

@[simp] theorem State.syncPass_readByte (l : LinkNo) (a : Nat) : (s.syncPass l).readByte a = s.readByte a := by
  unfold State.readByte; rw [State.syncPass_mem, State.syncPass_draw]

@[simp] theorem State.syncPass_txarm (l k : LinkNo) : ((s.syncPass l).link k).txarm = (s.link k).txarm := by
  rcases s.syncPass_cases l with ⟨_, h⟩ | ⟨_, _, h⟩ | ⟨_, _, _, h⟩ | ⟨_, _, _, h⟩ <;> rw [h] <;> simp

@[simp] theorem State.syncPass_txc (l k : LinkNo) : ((s.syncPass l).link k).txc = (s.link k).txc := by
  rcases s.syncPass_cases l with ⟨_, h⟩ | ⟨_, _, h⟩ | ⟨_, _, _, h⟩ | ⟨_, _, _, h⟩ <;> rw [h] <;> simp

@[simp] theorem State.syncPass_wire (l k : LinkNo) : ((s.syncPass l).link k).wire = (s.link k).wire := by
  rcases s.syncPass_cases l with ⟨_, h⟩ | ⟨_, _, h⟩ | ⟨_, _, _, h⟩ | ⟨_, _, _, h⟩ <;> rw [h] <;> simp

theorem State.syncPass_ring_ne {l k : LinkNo} {d : Dir} (hk : ¬(k = l ∧ d = .rx)) :
    (s.syncPass l).ring k d = s.ring k d := by
  rcases s.syncPass_cases l with ⟨_, h⟩ | ⟨_, _, h⟩ | ⟨_, _, _, h⟩ | ⟨_, _, _, h⟩ <;> rw [h] <;>
    simp [State.consume_ring, hk]

theorem State.syncPass_link_ne {l k : LinkNo} (hk : k ≠ l) : (s.syncPass l).link k = s.link k := by
  rcases s.syncPass_cases l with ⟨_, h⟩ | ⟨_, _, h⟩ | ⟨_, _, _, h⟩ | ⟨_, _, _, h⟩ <;> rw [h] <;>
    first | rfl | exact s.setRing_link_ne _ _ hk

@[simp] theorem State.syncPass_head (l k : LinkNo) (d : Dir) :
    ((s.syncPass l).ring k d).head = (s.ring k d).head := by
  by_cases hk : k = l ∧ d = .rx
  · obtain ⟨rfl, rfl⟩ := hk
    rcases s.syncPass_cases k with ⟨_, h⟩ | ⟨_, _, h⟩ | ⟨_, _, _, h⟩ | ⟨_, _, _, h⟩ <;> rw [h] <;>
      simp [Ring.consume]
  · rw [s.syncPass_ring_ne hk]

theorem State.syncPass_ok {l k : LinkNo} {d : Dir} (hok : (s.ring k d).Ok s.cfg.N) :
    ((s.syncPass l).ring k d).Ok s.cfg.N := by
  rcases s.syncPass_cases l with ⟨_, h⟩ | ⟨_, _, h⟩ | ⟨_, _, _, h⟩ | ⟨_, _, _, h⟩ <;> rw [h] <;>
    simp only [State.setRes_ring, State.emit_ring]
  · exact hok
  · exact State.consume_ok 1 hok
  · exact State.consume_ok 1 hok
  · exact State.consume_ok 9 hok

/-- One iteration of DRAIN is one pass, and tp moves on exactly when it waits (R171). -/
theorem State.drainPass_cases (l : LinkNo) :
    ((s.syncPass l).res = 0 ∧ s.drainPass l = (s.syncPass l).advance) ∨
    ((s.syncPass l).res ≠ 0 ∧ s.drainPass l = s.syncPass l) := by
  unfold State.drainPass
  by_cases h : (s.syncPass l).res = passCode .wait
  · rw [if_pos h]; exact .inl ⟨h, rfl⟩
  · rw [if_neg h]; exact .inr ⟨h, rfl⟩

/-! A transmit-ready event (R132). -/

@[simp] theorem State.transmitReady_cfg (l : LinkNo) : (s.transmitReady l).cfg = s.cfg := by
  rcases s.transmitReady_cases l with ⟨_, h⟩ | ⟨_, _, h⟩ | ⟨_, _, h⟩ <;> rw [h] <;> rfl

@[simp] theorem State.transmitReady_trace (l : LinkNo) : (s.transmitReady l).trace = s.trace := by
  rcases s.transmitReady_cases l with ⟨_, h⟩ | ⟨_, _, h⟩ | ⟨_, _, h⟩ <;> rw [h] <;> rfl

@[simp] theorem State.transmitReady_env (l : LinkNo) : (s.transmitReady l).env = s.env := by
  rcases s.transmitReady_cases l with ⟨_, h⟩ | ⟨_, _, h⟩ | ⟨_, _, h⟩ <;> rw [h] <;> rfl

@[simp] theorem State.transmitReady_draw (l : LinkNo) : (s.transmitReady l).draw = s.draw := by
  rcases s.transmitReady_cases l with ⟨_, h⟩ | ⟨_, _, h⟩ | ⟨_, _, h⟩ <;> rw [h] <;> rfl

@[simp] theorem State.transmitReady_tp (l : LinkNo) : (s.transmitReady l).tp = s.tp := by
  rcases s.transmitReady_cases l with ⟨_, h⟩ | ⟨_, _, h⟩ | ⟨_, _, h⟩ <;> rw [h] <;> rfl

@[simp] theorem State.transmitReady_mem (l : LinkNo) : (s.transmitReady l).mem = s.mem := by
  rcases s.transmitReady_cases l with ⟨_, h⟩ | ⟨_, _, h⟩ | ⟨_, _, h⟩ <;> rw [h] <;> rfl

@[simp] theorem State.transmitReady_res (l : LinkNo) : (s.transmitReady l).res = s.res := by
  rcases s.transmitReady_cases l with ⟨_, h⟩ | ⟨_, _, h⟩ | ⟨_, _, h⟩ <;> rw [h] <;> rfl

@[simp] theorem State.transmitReady_readings (l : LinkNo) : (s.transmitReady l).readings = s.readings := by
  rcases s.transmitReady_cases l with ⟨_, h⟩ | ⟨_, _, h⟩ | ⟨_, _, h⟩ <;> rw [h] <;> rfl

@[simp] theorem State.transmitReady_readByte (l : LinkNo) (a : Nat) :
    (s.transmitReady l).readByte a = s.readByte a := by
  unfold State.readByte; rw [State.transmitReady_mem, State.transmitReady_draw]

theorem State.transmitReady_ring_ne {l k : LinkNo} {d : Dir} (hk : ¬(k = l ∧ d = .tx)) :
    (s.transmitReady l).ring k d = s.ring k d := by
  rcases s.transmitReady_cases l with ⟨_, h⟩ | ⟨_, _, h⟩ | ⟨_, _, h⟩ <;> rw [h]
  · rw [State.send_ring, State.consume_ring, if_neg hk]
  · rw [State.disarmLink_ring]

theorem State.transmitReady_link_ne {l k : LinkNo} (hk : k ≠ l) : (s.transmitReady l).link k = s.link k := by
  rcases s.transmitReady_cases l with ⟨_, h⟩ | ⟨_, _, h⟩ | ⟨_, _, h⟩ <;> rw [h]
  · exact (State.modifyLink_link_ne _ _ hk).trans (s.setRing_link_ne _ _ hk)
  · exact s.modifyLink_link_ne _ hk

theorem State.transmitReady_ok {l k : LinkNo} {d : Dir} (hok : (s.ring k d).Ok s.cfg.N) :
    ((s.transmitReady l).ring k d).Ok s.cfg.N := by
  rcases s.transmitReady_cases l with ⟨_, h⟩ | ⟨_, _, h⟩ | ⟨_, _, h⟩ <;> rw [h]
  · exact hok
  · rw [State.send_ring]; exact State.consume_ok 1 hok
  · rw [State.disarmLink_ring]; exact hok

/-! The broadcast (R192). -/

@[simp] theorem State.requestAll_wire (k : LinkNo) : (s.requestAll.link k).wire = (s.link k).wire :=
  s.requestAll_induction (P := fun t => (t.link k).wire = (s.link k).wire) rfl fun t l _ _ h => by
    rw [State.sendRequest_wire, h]

@[simp] theorem State.requestAll_rx (k : LinkNo) : s.requestAll.ring k .rx = s.ring k .rx :=
  s.requestAll_induction (P := fun t => t.ring k .rx = s.ring k .rx) rfl fun t l _ _ h => by
    rw [State.sendRequest_ring, t.pushBytes_ring_ne _ (by simp), h]

@[simp] theorem State.requestAll_tail (k : LinkNo) (d : Dir) : (s.requestAll.ring k d).tail = (s.ring k d).tail :=
  s.requestAll_induction (P := fun t => (t.ring k d).tail = (s.ring k d).tail) rfl fun t l _ _ h => by
    rw [State.sendRequest_ring, State.pushBytes_tail, h]

theorem State.requestAll_ok {k : LinkNo} {d : Dir} (hok : (s.ring k d).Ok s.cfg.N) :
    (s.requestAll.ring k d).Ok s.cfg.N :=
  (s.requestAll_induction (P := fun t => t.cfg = s.cfg ∧ (t.ring k d).Ok s.cfg.N) ⟨rfl, hok⟩ fun t l _ _ h => by
    refine ⟨by rw [State.sendRequest_cfg, h.1], ?_⟩
    rw [State.sendRequest_ring, ← h.1]
    exact t.pushBytes_ok _ (by rw [h.1]; exact h.2)).2

/-! Words and moves (R203, R204, R206). -/

/-- An event's move does what its trace word's effect does, but for tp. -/
theorem performMove_effect {m : Move} {i : Instr} {t : State} (hm : m.word = some i) (h : performMove m s = .next t) :
    effectOf i s = t.advance := by
  cases m <;> cases hm <;> cases h <;> rfl

/-- What takes s to t is the effect of i: whole for a word, but for tp for a move. -/
theorem Takes.cases {s t : State} {i : Instr} (h : Takes i s t) :
    (i.WellFormed s.cfg ∧ t = effectOf i s) ∨ (i.op.isEvent = true ∧ effectOf i s = t.advance) := by
  rcases h with h | ⟨m, hm, h⟩
  · exact .inl (exec_inv h)
  · exact .inr ⟨by cases m <;> cases hm <;> rfl, performMove_effect s hm h⟩

/-! The choice of the next move (R206). -/

@[simp] theorem Move.enabled_env (m : Move) (e : List Move) :
    m.enabled { s with env := e } = m.enabled s := by cases m <;> rfl

theorem nextMove_enabled (ms : List Move) : (nextMove s ms).1 = .host ∨ (nextMove s ms).1.enabled s = true := by
  induction ms with
  | nil => exact .inl rfl
  | cons m ms ih =>
    unfold nextMove
    split
    · exact .inr ‹_›
    · exact ih

theorem nextMove_suffix (ms : List Move) : (nextMove s ms).2 <:+ ms := by
  induction ms with
  | nil => exact List.suffix_refl _
  | cons m ms ih =>
    unfold nextMove
    split
    · exact List.suffix_cons _ _
    · exact ih.trans (List.suffix_cons _ _)

@[simp] theorem nextMove_env (e ms : List Move) : nextMove { s with env := e } ms = nextMove s ms := by
  induction ms with
  | nil => rfl
  | cons m ms ih => unfold nextMove; rw [Move.enabled_env, ih]

end Sys2Proof.Machine
end

