-- ==== Sys2Proof/Laws/PerInstr.lean ====
section
/-! SUPPORT. Statements about every instruction as syntax, one lemma per constructor. -/

namespace Sys2Proof.Laws

/-- The word of an instruction fits its row's match and mask, and its link field is the instruction's link (R75, R78). -/
def FitsRow.Statement (i : Instr) : Prop :=
  encode i &&& i.op.mask = i.op.pattern ∧ linkField (encode i) = i.link

theorem fits_row (i : Instr) : FitsRow.Statement i :=
  ⟨Sys2Proof.encode_fits i, Sys2Proof.linkField_packWord _ _ _ _⟩

theorem FitsRow.rinit (l : LinkNo) (r : Dir) : FitsRow.Statement (.rinit l r) := fits_row _

theorem FitsRow.txw (l : LinkNo) (b : Byte) : FitsRow.Statement (.txw l b) := fits_row _

theorem FitsRow.rxrd (l : LinkNo) : FitsRow.Statement (.rxrd l) := fits_row _

theorem FitsRow.avl (l : LinkNo) (r : Dir) : FitsRow.Statement (.avl l r) := fits_row _

theorem FitsRow.rxpk (l : LinkNo) (d : BitVec 9) : FitsRow.Statement (.rxpk l d) := fits_row _

theorem FitsRow.rxds (l : LinkNo) (n : BitVec 9) : FitsRow.Statement (.rxds l n) := fits_row _

theorem FitsRow.arm (l : LinkNo) : FitsRow.Statement (.arm l) := fits_row _

theorem FitsRow.sstep (l : LinkNo) : FitsRow.Statement (.sstep l) := fits_row _

theorem FitsRow.drain (l : LinkNo) : FitsRow.Statement (.drain l) := fits_row _

theorem FitsRow.chk (l : LinkNo) : FitsRow.Statement (.chk l) := fits_row _

theorem FitsRow.stat (l : LinkNo) : FitsRow.Statement (.stat l) := fits_row _

theorem FitsRow.req (l : LinkNo) : FitsRow.Statement (.req l) := fits_row _

theorem FitsRow.rxev (l : LinkNo) (b : Byte) : FitsRow.Statement (.rxev l b) := fits_row _

theorem FitsRow.txrdy (l : LinkNo) : FitsRow.Statement (.txrdy l) := fits_row _

theorem FitsRow.txdone (l : LinkNo) : FitsRow.Statement (.txdone l) := fits_row _

end Sys2Proof.Laws
end

