-- ==== Sys2Proof/Machine/Asm.lean ====
section
/-! DEFINITION. The assembler syntax of R82 with the pseudo-instructions of R83: a line of text to instructions, and lines to the words of a trace. What R82 leaves open about the text is in log 18. -/

namespace Sys2Proof.Machine

/-- Spaces and tabs separate; they stand for nothing else. Log 18. -/
def isBlank (c : Char) : Bool := c == ' ' || c == '\t'

/-- Text after `;` is a comment (R82). -/
def stripComment (cs : List Char) : List Char := cs.takeWhile (· != ';')

def trim (cs : List Char) : List Char :=
  ((cs.dropWhile isBlank).reverse.dropWhile isBlank).reverse

/-- The pieces of a text between commas (R82). -/
def splitCommas : List Char → List (List Char)
  | [] => [[]]
  | c :: cs =>
    match splitCommas cs with
    | [] => [[c]]
    | p :: ps => if c == ',' then [] :: p :: ps else (c :: p) :: ps

def digitOf (base : Nat) (c : Char) : Option Nat :=
  let v :=
    if '0' ≤ c ∧ c ≤ '9' then c.toNat - '0'.toNat
    else if 'a' ≤ c ∧ c ≤ 'f' then c.toNat - 'a'.toNat + 10
    else if 'A' ≤ c ∧ c ≤ 'F' then c.toNat - 'A'.toNat + 10
    else base
  if v < base then some v else none

/-- The digits of a number, most significant first, added to what stands before them. -/
def digitsFrom (base : Nat) : Nat → List Char → Option Nat
  | acc, [] => some acc
  | acc, c :: cs =>
    match digitOf base c with
    | some d => digitsFrom base (acc * base + d) cs
    | none => none

/-- A byte, distance or count: "decimal or 0x hexadecimal" (R82). DESIGN CHOICE (log 18): leading zeros may stand here. -/
def parseNum : List Char → Option Nat
  | [] => none
  | '0' :: 'x' :: c :: cs => digitsFrom 16 0 (c :: cs)
  | c :: cs => digitsFrom 10 0 (c :: cs)

/-- "A link operand is a decimal 0..3" (R82): the one digit alone. DESIGN CHOICE (log 18): R82 does not say whether leading zeros may
stand there, and the model takes none, so `01` is no link. -/
def parseLink : List Char → Option LinkNo
  | ['0'] => some 0
  | ['1'] => some 1
  | ['2'] => some 2
  | ['3'] => some 3
  | _ => none

/-- "A direction operand is rx or tx" (R82). -/
def parseDir : List Char → Option Dir
  | ['r', 'x'] => some .rx
  | ['t', 'x'] => some .tx
  | _ => none

def parseByte (cs : List Char) : Option Byte :=
  match parseNum cs with
  | some v => if v < 256 then some (BitVec.ofNat 8 v) else none
  | none => none

def parseNine (cs : List Char) : Option (BitVec 9) :=
  match parseNum cs with
  | some v => if v < 512 then some (BitVec.ofNat 9 v) else none
  | none => none

/-- `REQ all` spells `REQ 0` (R82). -/
def parseReqLink : List Char → Option LinkNo
  | ['a', 'l', 'l'] => some 0
  | cs => parseLink cs

/-- The forms of R82. -/
def parseReal (mnemonic : List Char) (ops : List (List Char)) : Option Instr :=
  match mnemonic, ops with
  | ['R', 'I', 'N', 'I', 'T'], [a, b] => (parseLink a).bind fun l => (parseDir b).map (.rinit l)
  | ['T', 'X', 'W'], [a, b] => (parseLink a).bind fun l => (parseByte b).map (.txw l)
  | ['R', 'X', 'R', 'D'], [a] => (parseLink a).map .rxrd
  | ['A', 'V', 'L'], [a, b] => (parseLink a).bind fun l => (parseDir b).map (.avl l)
  | ['R', 'X', 'P', 'K'], [a, b] => (parseLink a).bind fun l => (parseNine b).map (.rxpk l)
  | ['R', 'X', 'D', 'S'], [a, b] => (parseLink a).bind fun l => (parseNine b).map (.rxds l)
  | ['A', 'R', 'M'], [a] => (parseLink a).map .arm
  | ['S', 'S', 'T', 'E', 'P'], [a] => (parseLink a).map .sstep
  | ['D', 'R', 'A', 'I', 'N'], [a] => (parseLink a).map .drain
  | ['C', 'H', 'K'], [a] => (parseLink a).map .chk
  | ['S', 'T', 'A', 'T'], [a] => (parseLink a).map .stat
  | ['R', 'E', 'Q'], [a] => (parseReqLink a).map .req
  | ['R', 'X', 'E', 'V'], [a, b] => (parseLink a).bind fun l => (parseByte b).map (.rxev l)
  | ['T', 'X', 'R', 'D', 'Y'], [a] => (parseLink a).map .txrdy
  | ['T', 'X', 'D', 'O', 'N', 'E'], [a] => (parseLink a).map .txdone
  | _, _ => none

/-- The forms of R83. DESIGN CHOICE (log 18): R83 does not say whether k may be 0, so `WRS l`, `SEND l` and `RXS l` with no byte
operand, and `TXRUN l, 0`, are forms of the syntax too. -/
def parsePseudo (mnemonic : List Char) (ops : List (List Char)) : Option Pseudo :=
  match mnemonic, ops with
  | ['W', 'R', 'S'], a :: bs => (parseLink a).bind fun l => (bs.mapM parseByte).map (.wrs l)
  | ['S', 'E', 'N', 'D'], a :: bs => (parseLink a).bind fun l => (bs.mapM parseByte).map (.send l)
  | ['I', 'N', 'I', 'T'], [] => some .init
  | ['R', 'X', 'S'], a :: bs => (parseLink a).bind fun l => (bs.mapM parseByte).map (.rxs l)
  | ['R', 'X', 'F', 'R', 'A', 'M', 'E'], a :: bs =>
    (parseLink a).bind fun l =>
      match bs.mapM parseByte with
      | some [b1, b2, b3, b4, b5, b6, b7] => some (.rxframe l b1 b2 b3 b4 b5 b6 b7)
      | _ => none
  | ['T', 'X', 'R', 'U', 'N'], [a, k] => (parseLink a).bind fun l => (parseNum k).map (.txrun l)
  | _, _ => none

/-- The operands of a line: none, or the texts between commas. -/
def operandsOf (cs : List Char) : List (List Char) :=
  if (trim cs).isEmpty then [] else (splitCommas cs).map trim

/-- One line: "one mnemonic followed by operands separated by commas" (R82). An empty line or a comment gives nothing to run; a
line that is none of the forms gives `none`. -/
def parseLine (cfg : Config) (line : List Char) : Option (List Instr) :=
  let text := trim (stripComment line)
  let mnemonic := text.takeWhile fun c => !isBlank c
  let ops := operandsOf (text.dropWhile fun c => !isBlank c)
  if text.isEmpty then some []
  else
    match parseReal mnemonic ops with
    | some i => some [i]
    | none => (parsePseudo mnemonic ops).map (·.expand cfg)

/-- The trace that a list of lines spells. -/
def assembleLines (cfg : Config) (lines : List (List Char)) : Option (List Word) :=
  (lines.mapM (parseLine cfg)).map fun iss => iss.flatten.map encode

/-! The other way: an instruction as R82 writes it. -/

/-- A number below 1000 in decimal digits. -/
def decimal (n : Nat) : List Char :=
  let digit (k : Nat) : Char := Char.ofNat ('0'.toNat + k % 10)
  if n < 10 then [digit n]
  else if n < 100 then [digit (n / 10), digit n]
  else [digit (n / 100), digit (n / 10), digit n]

def dirText : Dir → List Char
  | .rx => ['r', 'x']
  | .tx => ['t', 'x']

def withLink (m : List Char) (l : LinkNo) (rest : List Char) : List Char :=
  m ++ [' '] ++ decimal l.val ++ rest

def secondOperand (cs : List Char) : List Char := [',', ' '] ++ cs

/-- The line that spells an instruction (R82). -/
def instrText : Instr → List Char
  | .rinit l r => withLink ['R', 'I', 'N', 'I', 'T'] l (secondOperand (dirText r))
  | .txw l b => withLink ['T', 'X', 'W'] l (secondOperand (decimal b.toNat))
  | .rxrd l => withLink ['R', 'X', 'R', 'D'] l []
  | .avl l r => withLink ['A', 'V', 'L'] l (secondOperand (dirText r))
  | .rxpk l d => withLink ['R', 'X', 'P', 'K'] l (secondOperand (decimal d.toNat))
  | .rxds l n => withLink ['R', 'X', 'D', 'S'] l (secondOperand (decimal n.toNat))
  | .arm l => withLink ['A', 'R', 'M'] l []
  | .sstep l => withLink ['S', 'S', 'T', 'E', 'P'] l []
  | .drain l => withLink ['D', 'R', 'A', 'I', 'N'] l []
  | .chk l => withLink ['C', 'H', 'K'] l []
  | .stat l => withLink ['S', 'T', 'A', 'T'] l []
  | .req l => withLink ['R', 'E', 'Q'] l []
  | .rxev l b => withLink ['R', 'X', 'E', 'V'] l (secondOperand (decimal b.toNat))
  | .txrdy l => withLink ['T', 'X', 'R', 'D', 'Y'] l []
  | .txdone l => withLink ['T', 'X', 'D', 'O', 'N', 'E'] l []

end Sys2Proof.Machine
end

