-- ==== Sys2Proof/Tests/Slice0.lean ====
section
/-! SUPPORT. Tests on one word or one step, with the results spec/95_test_vectors.md gives (each names its vector), and a witness for the hypotheses of every statement. -/

namespace Sys2Proof.Tests

open Sys2Proof.Machine

/-! ## Small states -/

/-- A configuration with K = k and N = 2 ^ (4 + cap). -/
def cfgOf (k : Fin 4) (cap : Fin 13) (sem : Semantics) : Config :=
  { Config.default with sensorLinks := k, capExp := cap, semantics := sem }

/-- The reset state under K = k, N = 2 ^ (4 + cap), closed semantics, with a trace. -/
def start (k : Fin 4) (cap : Fin 13) (trace : List Word) : State :=
  State.resetWith (cfgOf k cap .closed) trace [] 0

/-- The same in the open semantics, with an order of moves. -/
def startOpen (k : Fin 4) (cap : Fin 13) (trace : List Word) (env : List Move) : State :=
  State.resetWith (cfgOf k cap .concurrent) trace env 0

/-- Both indices of a ring set. -/
def at_ (s : State) (l : LinkNo) (r : Dir) (head tail : Nat) : State := s.setRing l r ⟨head, tail⟩

/-- Bytes queued on a ring. -/
def load (s : State) (l : LinkNo) (r : Dir) (bs : List Byte) : State :=
  bs.foldl (fun t b => t.pushByte l r b) s

/-- An instruction answers a next state on which p holds. -/
def runs (i : Instr) (s : State) (p : State → Bool) : Bool :=
  match exec i s with
  | .next t => p t
  | _ => false

/-- A step answers a next state on which p holds. -/
def stepRuns (s : State) (p : State → Bool) : Bool :=
  match step s with
  | .next t => p t
  | _ => false

/-- A step ends in this refusal. -/
def stepRefused (s : State) (w : Word) (tp : Nat) (why : RefusalReason) : Bool :=
  match step s with
  | .refused f => f == .illegalCommand w tp why
  | _ => false

theorem runs_next {i : Instr} {s : State} {p : State → Bool} (h : runs i s p = true) :
    ∃ t, exec i s = .next t ∧ p t = true := by
  unfold runs at h
  split at h
  · exact ⟨_, ‹_›, h⟩
  · cases h

theorem stepRuns_next {s : State} {p : State → Bool} (h : stepRuns s p = true) :
    ∃ t, step s = .next t ∧ p t = true := by
  unfold stepRuns at h
  split at h
  · exact ⟨_, ‹_›, h⟩
  · cases h

/-- The word's decoding, as a Bool. -/
def decodes (cfg : Config) (w : Word) (i : Instr) : Bool :=
  match decode cfg w with
  | .ok j => j == i
  | .error _ => false

/-- The word's refusal, as a Bool. -/
def refuses (cfg : Config) (w : Word) (why : RefusalReason) : Bool :=
  match decode cfg w with
  | .ok _ => false
  | .error r => r == why

theorem decodes_ok {cfg : Config} {w : Word} {i : Instr} (h : decodes cfg w i = true) :
    decode cfg w = .ok i := by
  unfold decodes at h
  split at h
  · next e => rw [e, beq_iff_eq.1 h]
  · cases h

theorem refuses_error {cfg : Config} {w : Word} {why : RefusalReason} (h : refuses cfg w why = true) :
    decode cfg w = .error why := by
  unfold refuses at h
  split at h
  · cases h
  · next e => rw [e, beq_iff_eq.1 h]

/-! ## WellFormed: an ill-formed term for each check, which the check refuses -/

theorem test_wf_link_configured : ¬(Instr.arm 2).WellFormed (cfgOf 1 0 .closed) := by decide

theorem test_wf_sensor_link : ¬(Instr.sstep 0).WellFormed Config.default ∧
    ¬(Instr.drain 0).WellFormed Config.default := by decide

theorem test_wf_no_event_in_open : ¬(Instr.rxev 1 0).WellFormed (cfgOf 3 5 .concurrent) ∧
    ¬(Instr.txrdy 1).WellFormed (cfgOf 3 5 .concurrent) ∧
    ¬(Instr.txdone 1).WellFormed (cfgOf 3 5 .concurrent) := by decide

theorem test_wf_accepts : (Instr.drain 3).WellFormed Config.default ∧
    (Instr.req 0).WellFormed (cfgOf 0 0 .concurrent) := by decide

/-! ## Decoding: words written out bit by bit from R75 to R78: op, l, r, imm9 -/

-- op 0001, l 01, r 1, imm 000000000 (D-3)
theorem test_decode_rinit : decodes Config.default 0b0001011000000000 (.rinit 1 .tx) = true := by decide

-- op 0010, l 00, r 0, imm 0 00110101 (D-5)
theorem test_decode_txw : decodes Config.default 0b0010000000110101 (.txw 0 0x35) = true := by decide

-- op 0011, l 11, r 0, imm 000000000
theorem test_decode_rxrd : decodes Config.default 0b0011110000000000 (.rxrd 3) = true := by decide

-- op 0100, l 01, r 1, imm 000000000 (D-9)
theorem test_decode_avl : decodes Config.default 0b0100011000000000 (.avl 1 .tx) = true := by decide

-- op 0101, l 01, r 0, imm 111111111 (D-11)
theorem test_decode_rxpk : decodes Config.default 0b0101010111111111 (.rxpk 1 511) = true := by decide

-- op 0110, l 01, r 0, imm 000001001 (D-13)
theorem test_decode_rxds : decodes Config.default 0b0110010000001001 (.rxds 1 9) = true := by decide

-- op 0111, l 10, r 0, imm 000000000
theorem test_decode_arm : decodes Config.default 0b0111100000000000 (.arm 2) = true := by decide

-- op 1000, l 01, r 0, imm 000000000 (8400 of section 2.5)
theorem test_decode_sstep : decodes Config.default 0b1000010000000000 (.sstep 1) = true := by decide

-- op 1001, l 10, r 0, imm 000000000 (9800 of P6)
theorem test_decode_drain : decodes Config.default 0b1001100000000000 (.drain 2) = true := by decide

-- op 1010, l 01, r 0, imm 000000000 (A400 of section 2.4)
theorem test_decode_chk : decodes Config.default 0b1010010000000000 (.chk 1) = true := by decide

-- op 1011, l 10, r 0, imm 000000000 (B800 of S10)
theorem test_decode_stat : decodes Config.default 0b1011100000000000 (.stat 2) = true := by decide

-- op 1100, l 00, r 0, imm 000000000 (D-18)
theorem test_decode_req : decodes Config.default 0b1100000000000000 (.req 0) = true := by decide

-- op 1101, l 01, r 0, imm 0 11111111 (D-19)
theorem test_decode_rxev : decodes Config.default 0b1101010011111111 (.rxev 1 0xFF) = true := by decide

-- op 1110, l 10, r 0, imm 000000000 (D-21)
theorem test_decode_txrdy : decodes Config.default 0b1110100000000000 (.txrdy 2) = true := by decide

-- op 1111, l 10, r 0, imm 000000000 (F800 of S10)
theorem test_decode_txdone : decodes Config.default 0b1111100000000000 (.txdone 2) = true := by decide

-- D-1, D-2
theorem test_refuse_reserved_opcode : refuses Config.default 0x0000 .reservedOpcode = true ∧
    refuses Config.default 0x0FFF .reservedOpcode = true := by decide

-- D-4, D-7, D-8, D-12, D-22
theorem test_refuse_reserved_field : refuses Config.default 0x1001 .nonzeroReservedField = true ∧
    refuses Config.default 0x2300 .nonzeroReservedField = true ∧
    refuses Config.default 0x3200 .nonzeroReservedField = true ∧
    refuses Config.default 0x5600 .nonzeroReservedField = true ∧
    refuses Config.default 0xFC01 .nonzeroReservedField = true := by decide

-- D-6, D-20
theorem test_refuse_wide_byte : refuses Config.default 0x2100 .byteOperandTooWide = true ∧
    refuses Config.default 0xD1FF .byteOperandTooWide = true := by decide

-- D-14, D-17, D-23
theorem test_refuse_unconfigured : refuses (cfgOf 0 5 .closed) 0x7400 .linkNotConfigured = true ∧
    refuses (cfgOf 1 5 .closed) 0xC800 .linkNotConfigured = true ∧
    refuses (cfgOf 2 5 .closed) 0x8C00 .linkNotConfigured = true := by decide

-- D-15, D-16, D-19
theorem test_refuse_not_sensor_or_event : refuses Config.default 0x8000 .linkNotSensor = true ∧
    refuses Config.default 0x9000 .linkNotSensor = true ∧
    refuses (cfgOf 3 5 .concurrent) 0xD4FF .eventInHostProgram = true := by decide

theorem test_decode_table_word : decodeTableWord 16 0x5408 = some (.rxpk 1 8) := by decide

-- S13: the first word after reset
theorem test_fetch_word : stepRuns (State.reset.withFetchWord 16 0xB000)
    (fun t => t.res == 0 && t.tp == 1) = true := by decide

/-! ## One step each, from section 2 of spec/95_test_vectors.md -/

-- B1
theorem test_rinit : runs (.rinit 1 .rx) (at_ (start 3 5 []) 1 .rx 7 3)
    (fun t => t.ring 1 .rx == ⟨0, 0⟩ && t.avail 1 .rx == 0) = true := by decide

-- B3: head wraps, avail = 13
theorem test_txw_wraps : runs (.txw 0 0x41) (at_ (start 1 0 []) 0 .tx 15 3)
    (fun t => t.readByte 31 == 0x41 && t.ring 0 .tx == ⟨0, 3⟩ && t.avail 0 .tx == 13) = true := by decide

-- B5: full, dropped
theorem test_txw_full : runs (.txw 0 0x41) (at_ (start 1 0 []) 0 .tx 2 3)
    (fun t => t.ring 0 .tx == ⟨2, 3⟩ && t.mem.isEmpty) = true := by decide

-- B8: tail wraps
theorem test_rxrd_wraps : runs (.rxrd 1) (load (at_ (start 1 0 []) 1 .rx 15 15) 1 .rx [0x5A])
    (fun t => t.res == 0x005A && t.ring 1 .rx == ⟨0, 0⟩) = true := by decide

-- B6: empty, tail unmoved
theorem test_rxrd_empty : runs (.rxrd 1) ((at_ (start 3 5 []) 1 .rx 4 4).setRes 7)
    (fun t => t.res == 0 && t.ring 1 .rx == ⟨4, 4⟩) = true := by decide

-- B10, B12
theorem test_avl : runs (.avl 1 .rx) (at_ (start 3 5 []) 1 .rx 2 500) (fun t => t.res == 14) = true ∧
    runs (.avl 1 .rx) (at_ (start 1 0 []) 1 .rx 0 1) (fun t => t.res == 15) = true := by decide

-- B17: the peek goes past the index wrap
theorem test_rxpk_wraps : runs (.rxpk 1 2) (load (at_ (start 1 0 []) 1 .rx 14 14) 1 .rx [0x0A, 0x0B, 0x0C, 0x0D])
    (fun t => t.res == 0x000C && t.ring 1 .rx == ⟨2, 14⟩) = true := by decide

-- B14: d = avail
theorem test_rxpk_sentinel : runs (.rxpk 1 4) (load (start 3 5 []) 1 .rx [0xFF, 0x86, 0x01, 0x9A])
    (fun t => t.res == 0) = true := by decide

-- B18
theorem test_rxds : runs (.rxds 1 9) (at_ (start 3 5 []) 1 .rx 18 510)
    (fun t => t.ring 1 .rx == ⟨18, 7⟩ && t.avail 1 .rx == 11) = true := by decide

-- B21: the over-discard
theorem test_rxds_over : runs (.rxds 1 5) (at_ (start 1 0 []) 1 .rx 3 0)
    (fun t => t.ring 1 .rx == ⟨3, 5⟩ && t.avail 1 .rx == 14) = true := by decide

-- S8
theorem test_arm : runs (.arm 0) ((start 3 5 []).completeLink 0)
    (fun t => (t.link 0).txarm && !(t.link 0).txc) = true := by decide

-- Y11: the frame wraps, tail = 5
theorem test_sstep_accept : runs (.sstep 1)
    (load (at_ (start 1 5 []) 1 .rx 508 508) 1 .rx [0xFF, 0x86, 0x00, 0x34, 0x06, 0x00, 0x00, 0x00, 0x40])
    (fun t => t.res == 3 && t.readings == [⟨1, 52, 0xFFDE⟩] && t.ring 1 .rx == ⟨5, 5⟩) = true := by decide

-- Y3: the bad frame loses one byte
theorem test_sstep_badcks : runs (.sstep 1)
    (load (start 1 5 []) 1 .rx [0xFF, 0x86, 0x01, 0x9A, 0x41, 0x00, 0x00, 0x00, 0x61])
    (fun t => t.res == 2 && t.readings.isEmpty && t.ring 1 .rx == ⟨9, 1⟩) = true := by decide

-- Y7b: the accepting iteration leaves tp on the word
theorem test_drain_stays : runs (.drain 1)
    (load (start 1 5 []) 1 .rx [0xFF, 0xFF, 0xFF, 0xFF, 0xFF, 0xFF, 0xFF, 0xFF, 0x07])
    (fun t => t.tp == 0 && t.readings == [⟨1, 65535, 215⟩]) = true := by decide

-- Y1: eight bytes wait
theorem test_drain_returns : runs (.drain 1)
    (load (start 1 5 []) 1 .rx [0xFF, 0xFF, 0xFF, 0xFF, 0xFF, 0xFF, 0xFF, 0xFF])
    (fun t => t.tp == 1 && t.res == 0 && t.avail 1 .rx == 8) = true := by decide

-- K2, K6
theorem test_chk : runs (.chk 1)
      (load (start 1 5 []) 1 .rx [0xFF, 0x86, 0x01, 0x9A, 0x41, 0x00, 0x00, 0x00, 0x9E])
      (fun t => t.res == 0x9E03 && t.avail 1 .rx == 9) = true ∧
    runs (.chk 1) (load (start 1 5 []) 1 .rx [0xFF, 0x86, 0x00, 0x34]) (fun t => t.res == 0x4602) = true := by decide

-- S12
theorem test_stat : runs (.stat 1) (((start 3 5 []).armLink 1).completeLink 1) (fun t => t.res == 3) = true := by
  decide

-- Q5: five free slots
theorem test_req_truncated : runs (.req 1) (load (start 1 0 []) 1 .tx (List.replicate 10 0xAA))
    (fun t => t.contents 1 .tx == List.replicate 10 0xAA ++ [0xFF, 0x01, 0x86, 0x00, 0x00] &&
      t.avail 1 .tx == 15 && (t.link 1).txarm) = true := by decide

-- Q3
set_option maxRecDepth 4000 in
theorem test_req_all : runs (.req 0) (start 3 5 [])
    (fun t => t.avail 1 .tx == 9 && t.avail 2 .tx == 9 && t.avail 3 .tx == 9 && (t.link 1).txarm &&
      (t.link 2).txarm && (t.link 3).txarm && t.link 0 == Link.init) = true := by decide

-- S1
theorem test_rxev : runs (.rxev 1 0xFF) (start 3 5 [])
    (fun t => t.readByte 1024 == 0xFF && t.ring 1 .rx == ⟨1, 0⟩) = true := by decide

-- S2: full, no flag
theorem test_rxev_full : runs (.rxev 1 0xFF) (at_ (start 1 0 []) 1 .rx 15 0)
    (fun t => t.ring 1 .rx == ⟨15, 0⟩ && t.mem.isEmpty) = true := by decide

-- S5
theorem test_txrdy_sends : runs (.txrdy 1) (load ((start 3 5 []).armLink 1) 1 .tx [0x79])
    (fun t => (t.link 1).wire == [0x79] && t.avail 1 .tx == 0 && (t.link 1).txarm) = true := by decide

-- S4, S6
theorem test_txrdy_masked_or_disarms : runs (.txrdy 1) (load (start 3 5 []) 1 .tx [0x79])
      (fun t => (t.link 1).wire.isEmpty && t.avail 1 .tx == 1) = true ∧
    runs (.txrdy 1) ((start 3 5 []).armLink 1)
      (fun t => (t.link 1).wire.isEmpty && !(t.link 1).txarm) = true := by decide

-- S10
theorem test_txdone : runs (.txdone 2) (start 3 5 []) (fun t => (t.link 2).txc && (t.link 2).lstat == 2) = true := by
  decide

-- C1 to C5 and C8: offsets 1 to 7, the checksum, and what is decoded
theorem test_codec : cks ⟨0xFF, 0x01, 0x86, 0, 0, 0, 0, 0, 0⟩ = 0x79 ∧
    decodeFrame ⟨0xFF, 0x01, 0x86, 0x00, 0x34, 0x06, 0x00, 0x00, 0x3F⟩ = some (34304, 0x000C) ∧
    decodeFrame ⟨0xFF, 0x86, 0x00, 0x34, 0x06, 0x00, 0x00, 0x00, 0x40⟩ = some (52, 0xFFDE) ∧
    decodeFrame ⟨0xFF, 0, 0, 0, 0, 0, 0, 0, 0⟩ = some (0, 0xFFD8) ∧
    decodeFrame ⟨0xFF, 0xFF, 0xFF, 0xFF, 0xFF, 0xFF, 0xFF, 0xFF, 0x07⟩ = some (65535, 0x00D7) ∧
    decodeFrame ⟨0xFF, 0x86, 0x01, 0xB8, 0x23, 0, 0, 0, 0x9E⟩ = some (440, 0xFFFB) ∧
    decodeFrame ⟨0xFF, 0x86, 0x01, 0xB8, 0x23, 0, 0, 0, 0x9F⟩ = none := by decide

-- P7: the refusal at tp = 1
theorem test_refused_word : stepRefused { start 1 5 [0xD4FF, 0x8000, 0x4400] with tp := 1 } 0x8000 1 .linkNotSensor =
    true := by decide

-- P3, P1 and R82: a comment, a hexadecimal byte, a broadcast
theorem test_assemble_send : (parseLine Config.default "SEND 0, 0x35;x".toList).map (·.map encode) =
    some [0x2035, 0x7000] := by decide

theorem test_assemble_real : (parseLine Config.default "REQ all".toList).map (·.map encode) = some [0xC000] ∧
    (parseLine Config.default "RXPK 1, 14".toList).map (·.map encode) = some [0x540E] := by decide

-- E7c as RXFRAME: the checksum is supplied
theorem test_rxframe : ((Pseudo.rxframe 1 0x86 0x00 0x34 0x06 0 0 0).expand Config.default).map encode =
    [0xD4FF, 0xD486, 0xD400, 0xD434, 0xD406, 0xD400, 0xD400, 0xD400, 0xD440] := by decide

/-! ## Witnesses: the hypotheses of each statement are met together, at the boundaries of its clauses -/

/-- The invariant, as a check that can be evaluated. -/
def invB (s : State) : Bool :=
  ([0, 1, 2, 3] : List LinkNo).all (fun l =>
    decide ((s.ring l .rx).head < s.cfg.N ∧ (s.ring l .rx).tail < s.cfg.N ∧ (s.ring l .tx).head < s.cfg.N ∧
      (s.ring l .tx).tail < s.cfg.N) && (decide (l.val ≤ s.cfg.K) || s.link l == Link.init)) &&
  Memory.wf s.mem && s.mem.all (fun c => decide (c.1 < s.cfg.storageSize)) &&
  decide (s.tp ≤ s.trace.length) && s.readings.isEmpty

/-- Every byte of every ring's contents is written, as a check that can be evaluated. -/
def tidyB (s : State) : Bool :=
  ([0, 1, 2, 3] : List LinkNo).all fun l => ([.rx, .tx] : List Dir).all fun r =>
    (List.range (s.avail l r)).all fun k =>
      (Memory.find s.mem (slotAddr s.cfg l r ((s.ring l r).tail + k))).isSome

theorem mem_links (l : LinkNo) : l ∈ ([0, 1, 2, 3] : List LinkNo) := by revert l; decide

theorem inv_of_check {s : State} (h : invB s = true) (hi : s.readings = []) : s.Inv := by
  simp only [invB, Bool.and_eq_true, List.all_eq_true, Bool.or_eq_true, decide_eq_true_eq, beq_iff_eq] at h
  obtain ⟨⟨⟨⟨h1, h2⟩, h3⟩, h4⟩, _⟩ := h
  refine ⟨fun l r => ?_, fun l hl => ?_, h2, h3, h4, fun x hx => ?_⟩
  · obtain ⟨a, b, c, d⟩ := (h1 l (mem_links l)).1
    cases r
    · exact ⟨a, b⟩
    · exact ⟨c, d⟩
  · exact (h1 l (mem_links l)).2.resolve_left (by omega)
  · rw [hi] at hx; cases hx

theorem tidy_of_check {s : State} (h : tidyB s = true) : s.Tidy := by
  simp only [tidyB, List.all_eq_true, List.mem_range] at h
  intro l r k hk
  exact h l (mem_links l) r (by cases r <;> decide) k hk

theorem ok_of_check {s : State} (h : invB s = true) (l : LinkNo) (r : Dir) : (s.ring l r).Ok s.cfg.N := by
  simp only [invB, Bool.and_eq_true, List.all_eq_true, Bool.or_eq_true, decide_eq_true_eq, beq_iff_eq] at h
  obtain ⟨a, b, c, d⟩ := (h.1.1.1.1 l (mem_links l)).1
  cases r
  · exact ⟨a, b⟩
  · exact ⟨c, d⟩

/-- A state in the middle of a closed run: one word left, bytes buffered on link 1, the transmitter of link 1 armed. -/
def midRun (w : Word) : State :=
  load (load ((start 1 0 [w]).armLink 1) 1 .rx [0x11, 0x22]) 1 .tx [0x33]

theorem witness_ResetLeavesRuleValues : (∃ cfg trace env draw, State.reset = State.resetWith cfg trace env draw) ∧
    ∃ u, resetStep (midRun 0x3400) = resetStep u := ⟨⟨_, _, _, _, rfl⟩, _, rfl⟩

theorem witness_StepKeepsInvariant : (midRun 0x3400).Inv ∧ ∃ t, step (midRun 0x3400) = .next t :=
  ⟨inv_of_check (by decide) (by decide),
    let ⟨t, h, _⟩ := stepRuns_next (s := midRun 0x3400) (p := fun t => t.res == 0x11) (by decide); ⟨t, h⟩⟩

/-- The open semantics: an arrival, a transmit-ready that is not enabled, then the host. -/
def openRun : State := startOpen 1 0 [0x3400] [.byteArrived 1 0x44, .txReady 1, .host]

theorem witness_StepKeepsInvariant_open : openRun.Inv ∧ ∃ t, step openRun = .next t :=
  ⟨inv_of_check (by decide) (by decide),
    let ⟨t, h, _⟩ := stepRuns_next (s := openRun) (p := fun t => t.avail 1 .rx == 1 && t.tp == 0) (by decide)
    ⟨t, h⟩⟩

theorem witness_StepKeepsParameters : (midRun 0x3400).cfg.semantics = .closed ∧ stepRuns (midRun 0x3400) (fun t =>
    t.env == []) = true ∧ stepRuns openRun (fun t => t.env == [.txReady 1, .host]) = true := by decide

theorem witness_DecodeOfEncode : (Instr.rxpk 3 511).WellFormed Config.default ∧
    (Instr.txw 0 255).WellFormed Config.default ∧ (Instr.rinit 3 .tx).WellFormed Config.default ∧
    (Instr.drain 1).WellFormed (cfgOf 1 0 .concurrent) ∧ (Instr.txdone 0).WellFormed (cfgOf 0 0 .closed) := by decide

theorem witness_EncodeOfDecode : decode Config.default 0xFC00 = .ok (.txdone 3) ∧
    decode Config.default 0x65FF = .ok (.rxds 1 511) := ⟨decodes_ok (by decide), decodes_ok (by decide)⟩

theorem witness_MatchMaskDecidesLegality :
    ((0x8400 : Word) &&& Op.sstep.mask = Op.sstep.pattern ∧ (((0x8400 : Word) >>> 10) &&& 3).toNat = 1) ∧
    ((0x8000 : Word) &&& Op.sstep.mask = Op.sstep.pattern ∧ (((0x8000 : Word) >>> 10) &&& 3).toNat = 0) ∧
    (0x8401 : Word) &&& Op.sstep.mask ≠ Op.sstep.pattern ∧
    (0xE400 : Word) &&& Op.txrdy.mask = Op.txrdy.pattern := by decide

theorem witness_RefusalReasonsOfWords : (start 1 0 [0x8000]).trace[(start 1 0 [0x8000]).tp]? = some 0x8000 ∧
    decode (start 1 0 [0x8000]).cfg 0x8000 = .error .linkNotSensor ∧
    refuses Config.default 0x0FFF .reservedOpcode = true ∧
    refuses Config.default 0x1000 .reservedOpcode = false :=
  ⟨by decide, refuses_error (by decide), by decide, by decide⟩

theorem witness_StepRunsDecodedWord : (midRun 0x3400).trace[(midRun 0x3400).tp]? = some 0x3400 ∧
    decode (midRun 0x3400).cfg 0x3400 = .ok (.rxrd 1) ∧ (midRun 0x3400).cfg.semantics = .closed :=
  ⟨by decide, decodes_ok (by decide), by decide⟩

theorem witness_StepRunsDecodedWord_open :
    (startOpen 1 0 [0x3400] [.host]).trace[(startOpen 1 0 [0x3400] [.host]).tp]? = some 0x3400 ∧
    decode (startOpen 1 0 [0x3400] [.host]).cfg 0x3400 = .ok (.rxrd 1) ∧
    (startOpen 1 0 [0x3400] [.host]).cfg.semantics = .concurrent ∧
    (startOpen 1 0 [0x3400] [.host]).env = .host :: [] := ⟨by decide, decodes_ok (by decide), by decide, by decide⟩

theorem witness_IllegalWordEndsTheRun : (start 1 0 [0x9000]).trace[(start 1 0 [0x9000]).tp]? = some 0x9000 ∧
    decode (start 1 0 [0x9000]).cfg 0x9000 = .error .linkNotSensor ∧ (start 1 0 [0x9000]).cfg.semantics = .closed :=
  ⟨by decide, refuses_error (by decide), by decide⟩

theorem witness_IllegalWordEndsTheRun_open :
    (startOpen 1 0 [0xD400] [.host]).trace[(startOpen 1 0 [0xD400] [.host]).tp]? = some 0xD400 ∧
    decode (startOpen 1 0 [0xD400] [.host]).cfg 0xD400 = .error .eventInHostProgram ∧
    (startOpen 1 0 [0xD400] [.host]).cfg.semantics = .concurrent ∧
    (startOpen 1 0 [0xD400] [.host]).env = .host :: [] := ⟨by decide, refuses_error (by decide), by decide, by decide⟩

theorem witness_RunEndsWithTheTrace : (State.reset.trace.length ≤ State.reset.tp ∧ State.reset.cfg.semantics = .closed) ∧
    (∀ m ∈ (startOpen 1 0 [] [.txReady 1, .byteArrived 2 0]).env,
      m.enabled (startOpen 1 0 [] [.txReady 1, .byteArrived 2 0]) = false) ∧
    ¬(start 1 0 [0x7000]).trace.length ≤ (start 1 0 [0x7000]).tp := by decide

theorem witness_ExecRefusesInadmissible :
    (start 1 0 []).cfg.K < (Instr.arm 2).link.val ∧
    ((Instr.drain 0).link.val ≤ (start 0 0 []).cfg.K ∧ (Instr.drain 0).op.needsSensor = true ∧
      (Instr.drain 0).link = 0) ∧
    ((Instr.txdone 1).link.val ≤ openRun.cfg.K ∧ (Instr.txdone 1).op.isEvent = true ∧
      openRun.cfg.semantics = .concurrent) := by decide

theorem witness_DecodedWordNeverFaults : decode (start 1 0 []).cfg 0xC000 = .ok (.req 0) := decodes_ok (by decide)

/-! Ring buffer commands. -/

theorem witness_RinitResetsIndices : (Instr.rinit 1 .tx).WellFormed (midRun 0).cfg := by decide

-- both branches: full, and the last free slot with a wrap
theorem witness_TxwStoresOrDrops : (Instr.txw 0 0x41).WellFormed (start 1 0 []).cfg ∧
    (((at_ (start 1 0 []) 0 .tx 15 0).ring 0 .tx).head + 1) % (start 1 0 []).cfg.N =
      ((at_ (start 1 0 []) 0 .tx 15 0).ring 0 .tx).tail ∧
    (((at_ (start 1 0 []) 0 .tx 15 1).ring 0 .tx).head + 1) % (start 1 0 []).cfg.N ≠
      ((at_ (start 1 0 []) 0 .tx 15 1).ring 0 .tx).tail := by decide

theorem witness_RxrdReadsOrGivesSentinel : (Instr.rxrd 1).WellFormed (midRun 0).cfg ∧
    ((midRun 0).ring 1 .rx).head ≠ ((midRun 0).ring 1 .rx).tail ∧
    ((midRun 0).ring 0 .rx).head = ((midRun 0).ring 0 .rx).tail := by decide

theorem witness_AvlCountsTheRing : (Instr.avl 1 .rx).WellFormed (at_ (start 1 12 []) 1 .rx 0 1).cfg ∧
    (at_ (start 1 12 []) 1 .rx 0 1).avail 1 .rx = 65535 := by decide

-- both branches at the boundary d = avail
theorem witness_RxpkPeeksWithoutConsuming : (Instr.rxpk 1 2).WellFormed (midRun 0).cfg ∧
    (midRun 0).avail 1 .rx = (2 : BitVec 9).toNat ∧ (1 : BitVec 9).toNat < (midRun 0).avail 1 .rx := by decide

theorem witness_RxdsMovesTailUnchecked : (Instr.rxds 1 511).WellFormed (midRun 0).cfg := by decide

-- n = avail + 1 and n = N
theorem witness_OverDiscardWrapsTheCount : (Instr.rxds 1 3).WellFormed (midRun 0).cfg ∧
    (midRun 0).avail 1 .rx < (3 : BitVec 9).toNat ∧ (3 : BitVec 9).toNat ≤ (midRun 0).cfg.N ∧
    (16 : BitVec 9).toNat = (midRun 0).cfg.N := by decide

/-! Events and flags. -/

theorem witness_RxevStoresOrDrops : (Instr.rxev 1 0x41).WellFormed (start 1 0 []).cfg ∧
    (((at_ (start 1 0 []) 1 .rx 2 3).ring 1 .rx).head + 1) % (start 1 0 []).cfg.N =
      ((at_ (start 1 0 []) 1 .rx 2 3).ring 1 .rx).tail ∧
    (((at_ (start 1 0 []) 1 .rx 2 4).ring 1 .rx).head + 1) % (start 1 0 []).cfg.N ≠
      ((at_ (start 1 0 []) 1 .rx 2 4).ring 1 .rx).tail := by decide

-- the three branches: disarmed, armed with a byte, armed and empty
theorem witness_TxrdySendsOrDisarms : (Instr.txrdy 1).WellFormed (midRun 0).cfg ∧
    ((midRun 0).link 0).txarm = false ∧ (((midRun 0).link 1).txarm = true ∧ (midRun 0).avail 1 .tx = 1) ∧
    ((((start 1 0 []).armLink 1).link 1).txarm = true ∧ ((start 1 0 []).armLink 1).avail 1 .tx = 0) := by decide

theorem witness_TxdoneSetsTransmitComplete : (Instr.txdone 1).WellFormed (midRun 0).cfg := by decide

theorem witness_ArmClearsAndArms : (Instr.arm 0).WellFormed (start 0 0 []).cfg := by decide

theorem witness_StatReadsLinkStatus : (Instr.stat 3).WellFormed (start 3 0 []).cfg := by decide

/-! Codec and synchroniser. -/

theorem witness_DecodeExtractsFields : cks ⟨0xFF, 0x86, 0xFF, 0xFF, 0xFF, 0, 0, 0, 0x7D⟩ = 0x7D ∧
    cks ⟨0xFF, 0x86, 0xFF, 0xFF, 0xFF, 0, 0, 0, 0x7E⟩ ≠ 0x7E := by decide

theorem witness_ValidIffSumIsZero : cks ⟨0, 0, 0, 0, 0, 0, 0, 0, 0⟩ = 0 ∧ cks ⟨0, 1, 0, 0, 0, 0, 0, 0, 0⟩ ≠ 0 := by
  decide

/-- The vector C3 as a window. -/
def goodWindow : Window := ⟨0xFF, 0x86, 0x00, 0x34, 0x06, 0x00, 0x00, 0x00, 0x40⟩

/-- P2's corrupted frame. -/
def badWindow : Window := ⟨0xFF, 0x86, 0x01, 0x9A, 0x41, 0x00, 0x00, 0x00, 0x61⟩

theorem witness_SingleCorruptionIsDetected : goodWindow.accepted ∧ (0x41 : Byte) ≠ goodWindow.b8 ∧
    (0xFE : Byte) ≠ goodWindow.b0 := ⟨⟨by decide, by decide⟩, by decide, by decide⟩

-- offsets 1 and 8, the ends of the range, and a window whose offsets 1 and 3 are exchanged
theorem witness_SingleCorruptionIsDetected_undetected :
    (1 ≤ 1 ∧ 1 ≤ 8 ∧ 1 ≤ 8 ∧ 8 ≤ 8 ∧ 1 ≠ 8 ∧ windowOf (fun n => goodWindow.bytes.getD n 0) = goodWindow) ∧
    [goodWindow.b3, goodWindow.b2, goodWindow.b1, goodWindow.b4, goodWindow.b5, goodWindow.b6, goodWindow.b7].Perm
      [goodWindow.b1, goodWindow.b2, goodWindow.b3, goodWindow.b4, goodWindow.b5, goodWindow.b6, goodWindow.b7] := by
  decide

theorem witness_ChkReportsTheValidator : (Instr.chk 0).WellFormed (start 0 0 []).cfg := by decide

/-- Link 1 holding a window's bytes, with a trace and N = 32. -/
def holding (trace : List Word) (bs : List Byte) : State := load (start 1 1 trace) 1 .rx bs

-- the four branches, at 8 and at 9 bytes
theorem witness_SstepFollowsTheLoopBody : (Instr.sstep 1).WellFormed (start 1 1 []).cfg ∧
    (holding [] (goodWindow.bytes.take 8)).avail 1 .rx = 8 ∧
    ((holding [] goodWindow.bytes).avail 1 .rx = 9 ∧
      (holding [] goodWindow.bytes).syncWindow 1 = goodWindow ∧ cks goodWindow = goodWindow.b8) ∧
    ((holding [] badWindow.bytes).syncWindow 1 = badWindow ∧ badWindow.b0 = 0xFF ∧ cks badWindow ≠ badWindow.b8) ∧
    ((holding [] (0 :: goodWindow.bytes.take 8)).syncWindow 1).b0 ≠ 0xFF := by decide

theorem witness_DrainStepIsOnePass : (Instr.drain 1).WellFormed (start 1 1 []).cfg ∧
    runs (.sstep 1) (holding [] goodWindow.bytes) (fun u => u.res != 0) = true ∧
    runs (.sstep 1) (holding [] []) (fun u => u.res == 0) = true := by decide

theorem witness_DrainReturnsWithinBound : (holding [0x9400] goodWindow.bytes).cfg.semantics = .closed ∧
    (holding [0x9400] goodWindow.bytes).trace[(holding [0x9400] goodWindow.bytes).tp]? = some 0x9400 ∧
    decode (holding [0x9400] goodWindow.bytes).cfg 0x9400 = .ok (.drain 1) ∧
    ((holding [0x9400] goodWindow.bytes).ring 1 .rx).Ok (holding [0x9400] goodWindow.bytes).cfg.N :=
  ⟨by decide, by decide, decodes_ok (by decide), ok_of_check (by decide) 1 .rx⟩

-- the three cases: fewer than nine bytes, nine not accepted, nine accepted
theorem witness_PassConsumesOneByteOrOneFrame : (Instr.sstep 1).WellFormed (holding [] badWindow.bytes).cfg ∧
    ((holding [] badWindow.bytes).ring 1 .rx).Ok (holding [] badWindow.bytes).cfg.N ∧
    ((holding [] (badWindow.bytes.take 8)).ring 1 .rx).Ok (holding [] (badWindow.bytes.take 8)).cfg.N ∧
    ((holding [] goodWindow.bytes).ring 1 .rx).Ok (holding [] goodWindow.bytes).cfg.N ∧
    (holding [] goodWindow.bytes).contents 1 .rx = goodWindow.bytes :=
  ⟨by decide, ok_of_check (by decide) 1 .rx, ok_of_check (by decide) 1 .rx, ok_of_check (by decide) 1 .rx, by decide⟩

-- P2: no window of X ++ V at offsets 0 to 8 is accepted
theorem noEarlyFrame : ∀ k : Fin 9, ¬((windowAt (badWindow.bytes ++ goodWindow.bytes) k).b0 = 0xFF ∧
    cks (windowAt (badWindow.bytes ++ goodWindow.bytes) k) = (windowAt (badWindow.bytes ++ goodWindow.bytes) k).b8) := by
  decide

set_option maxRecDepth 4000 in
theorem witness_CorruptedFrameIsWalkedPast :
    (holding [0x9400] (badWindow.bytes ++ goodWindow.bytes)).cfg.semantics = .closed ∧
    (holding [0x9400] (badWindow.bytes ++ goodWindow.bytes)).trace[0]? = some 0x9400 ∧
    decode (holding [0x9400] (badWindow.bytes ++ goodWindow.bytes)).cfg 0x9400 = .ok (.drain 1) ∧
    ((holding [0x9400] (badWindow.bytes ++ goodWindow.bytes)).ring 1 .rx).Ok 32 ∧
    (holding [0x9400] (badWindow.bytes ++ goodWindow.bytes)).contents 1 .rx = badWindow.bytes ++ goodWindow.bytes ++ [] ∧
    (∀ k, k ≤ 8 → ¬(windowAt (badWindow.bytes ++ goodWindow.bytes) k).accepted) ∧ goodWindow.accepted :=
  ⟨by decide, by decide, decodes_ok (by decide), ok_of_check (s := holding [0x9400] (badWindow.bytes ++ goodWindow.bytes))
    (by decide) 1 .rx, by decide, fun k hk => noEarlyFrame ⟨k, Nat.lt_succ_of_le hk⟩, by decide, by decide⟩

theorem witness_PassReadsOnlyItsOwnRing : (Instr.sstep 1).WellFormed (midRun 0).cfg ∧
    (((midRun 0).completeLink 0).setRes 5).cfg = (midRun 0).cfg ∧
    (((midRun 0).completeLink 0).setRes 5).ring 1 .rx = (midRun 0).ring 1 .rx ∧
    (∀ i, i < (midRun 0).cfg.N → (((midRun 0).completeLink 0).setRes 5).readByte (slotAddr (midRun 0).cfg 1 .rx i) =
      (midRun 0).readByte (slotAddr (midRun 0).cfg 1 .rx i)) ∧
    ((midRun 0).completeLink 0).setRes 5 ≠ midRun 0 := ⟨by decide, rfl, by decide, fun _ _ => rfl, by decide⟩

/-! Requests. -/

-- room for the frame, and five free slots
theorem witness_ReqQueuesFrameAndArms : (1 : LinkNo) ≠ 0 ∧ (Instr.req 1).WellFormed (midRun 0).cfg ∧
    ((midRun 0).ring 1 .tx).Ok (midRun 0).cfg.N ∧ (midRun 0).free 1 .tx = 14 ∧
    (at_ (start 1 0 []) 1 .tx 10 0).free 1 .tx = 5 ∧ ((at_ (start 1 0 []) 1 .tx 10 0).ring 1 .tx).Ok 16 :=
  ⟨by decide, by decide, ok_of_check (by decide) 1 .tx, by decide, by decide,
    ok_of_check (s := at_ (start 1 0 []) 1 .tx 10 0) (by decide) 1 .tx⟩

-- K = 0, K = 1 and K = 3
theorem witness_ReqAllBroadcasts : (∀ l, ((midRun 0).ring l .tx).Ok (midRun 0).cfg.N) ∧
    (∀ l, ((start 0 0 []).ring l .tx).Ok (start 0 0 []).cfg.N) ∧
    ∀ l, ((start 3 0 []).ring l .tx).Ok (start 3 0 []).cfg.N :=
  ⟨fun l => ok_of_check (by decide) l .tx, fun l => ok_of_check (by decide) l .tx, fun l => ok_of_check (by decide) l .tx⟩

theorem witness_ReqAllIsEachRequestInTurn :
    ∃ u, execAll ((sensorLinksOf (midRun 0).cfg).map .req) (midRun 0) = .next u := ⟨_, rfl⟩

/-! Rules of the whole machine. -/

/-- A state of the open semantics after the host's last word: bytes buffered on link 1, its transmitter armed with one byte. -/
def midOpen : State :=
  load (load ((startOpen 1 0 [] []).armLink 1) 1 .rx [0x11, 0x22]) 1 .tx [0x33]

/-- A move answers a next state on which p holds. -/
def moves (m : Move) (s : State) (p : State → Bool) : Bool :=
  match performMove m s with
  | .next t => p t
  | _ => false

theorem moves_takes {m : Move} {i : Instr} {s : State} {p : State → Bool} (hm : m.word = some i)
    (h : moves m s p = true) : ∃ t, Takes i s t ∧ p t = true := by
  unfold moves at h
  split at h
  · exact ⟨_, .inr ⟨m, hm, ‹_›⟩, h⟩
  · cases h

theorem witness_ResWrittenOnlyByValueCommands : (∃ t, Takes (.txw 1 5) (midRun 0) t) ∧
    (∃ t, Takes (.rxev 1 5) midOpen t) ∧
    (Instr.txw 1 5).op ∉ [Op.rxrd, .avl, .rxpk, .sstep, .drain, .chk, .stat] ∧
    (Instr.rxev 1 5).op ∉ [Op.rxrd, .avl, .rxpk, .sstep, .drain, .chk, .stat] :=
  ⟨⟨_, .inl rfl⟩, ⟨_, .inr ⟨.byteArrived 1 5, rfl, rfl⟩⟩, by decide, by decide⟩

-- each index moves, and a written byte changes
theorem witness_ProducerConsumerDiscipline :
    runs (.rxev 1 5) (midRun 0) (fun t => (t.ring 1 .rx).head != ((midRun 0).ring 1 .rx).head) = true ∧
    runs (.rxds 1 2) (midRun 0) (fun t => (t.ring 1 .rx).tail != ((midRun 0).ring 1 .rx).tail) = true ∧
    runs (.txw 1 5) (midRun 0) (fun t => (t.ring 1 .tx).head != ((midRun 0).ring 1 .tx).head) = true ∧
    runs (.txrdy 1) (midRun 0) (fun t => (t.ring 1 .tx).tail != ((midRun 0).ring 1 .tx).tail) = true ∧
    runs (.rxev 1 5) ((midRun 0).initRing 1 .rx) (fun t => t.readByte 32 != (midRun 0).readByte 32) = true := by decide

-- the two indices and the byte an event moves, as moves
theorem witness_ProducerConsumerDiscipline_moves :
    (∃ t, Takes (.rxev 1 5) midOpen t ∧ ((t.ring 1 .rx).head != (midOpen.ring 1 .rx).head) = true) ∧
    (∃ t, Takes (.txrdy 1) midOpen t ∧ ((t.ring 1 .tx).tail != (midOpen.ring 1 .tx).tail) = true) ∧
    ∃ t, Takes (.rxev 1 5) (midOpen.initRing 1 .rx) t ∧ (t.readByte 32 != midOpen.readByte 32) = true :=
  ⟨moves_takes (m := .byteArrived 1 5) (p := fun t => (t.ring 1 .rx).head != (midOpen.ring 1 .rx).head) rfl (by decide),
    moves_takes (m := .txReady 1) (p := fun t => (t.ring 1 .tx).tail != (midOpen.ring 1 .tx).tail) rfl (by decide),
    moves_takes (m := .byteArrived 1 5) (p := fun t => t.readByte 32 != midOpen.readByte 32) rfl (by decide)⟩

theorem witness_FlagsChangeOnlyByRule :
    runs (.arm 0) (midRun 0) (fun t => (t.link 0).txarm && !((midRun 0).link 0).txarm) = true ∧
    runs (.txrdy 1) ((midRun 0).initRing 1 .tx) (fun t => !(t.link 1).txarm) = true ∧
    runs (.txdone 1) (midRun 0) (fun t => (t.link 1).txc && !((midRun 0).link 1).txc) = true ∧
    runs (.req 1) ((midRun 0).completeLink 1) (fun t => !(t.link 1).txc) = true := by decide

-- the two flags an event moves, as moves
theorem witness_FlagsChangeOnlyByRule_moves :
    (∃ t, Takes (.txrdy 1) (midOpen.initRing 1 .tx) t ∧ (!(t.link 1).txarm) = true) ∧
    ∃ t, Takes (.txdone 1) midOpen t ∧ ((t.link 1).txc && !(midOpen.link 1).txc) = true :=
  ⟨moves_takes (m := .txReady 1) (p := fun t => !(t.link 1).txarm) rfl (by decide),
    moves_takes (m := .txComplete 1) (p := fun t => (t.link 1).txc && !(midOpen.link 1).txc) rfl (by decide)⟩

theorem witness_OutputsOnlyGrow : runs (.sstep 1) (holding [] goodWindow.bytes) (fun t => t.readings.length == 1) = true ∧
    runs (.txrdy 1) (midRun 0) (fun t => (t.link 1).wire == [0x33]) = true := by decide

theorem witness_OutputsOnlyGrow_moves : ∃ t, Takes (.txrdy 1) midOpen t ∧ ((t.link 1).wire == [0x33]) = true :=
  moves_takes (m := .txReady 1) (p := fun t => (t.link 1).wire == [0x33]) rfl (by decide)

theorem witness_TracePositionAdvances : runs (.stat 1) (midRun 0) (fun t => t.tp == 1) = true ∧
    runs (.drain 1) (midRun 0) (fun t => t.res == 0 && t.tp == 1) = true ∧
    runs (.drain 1) (holding [] goodWindow.bytes) (fun t => t.res == 3 && t.tp == 0) = true := by decide

theorem witness_RingStorageIsDisjoint : 15 < (start 1 0 []).cfg.N ∧ (1 : LinkNo).val ≤ (start 1 0 []).cfg.K ∧
    slotAddr (start 1 0 []).cfg 1 .tx 15 = 63 ∧ (start 1 0 []).cfg.storageSize = 64 := by decide

-- B24: three of five bytes fit
theorem witness_WrsStoresWhatFits : (1 : LinkNo).val ≤ (at_ (start 1 0 []) 1 .tx 12 0).cfg.K ∧
    ((at_ (start 1 0 []) 1 .tx 12 0).ring 1 .tx).Ok (at_ (start 1 0 []) 1 .tx 12 0).cfg.N ∧
    (at_ (start 1 0 []) 1 .tx 12 0).cfg.N - 1 - (at_ (start 1 0 []) 1 .tx 12 0).avail 1 .tx = 3 :=
  ⟨by decide, ok_of_check (by decide) 1 .tx, by decide⟩

theorem witness_OverflowDropsTheNewest : (1 : LinkNo).val ≤ (start 1 0 []).cfg.K ∧
    (start 1 0 []).cfg.semantics = .closed ∧ ((start 1 0 []).ring 1 .rx).Ok (start 1 0 []).cfg.N ∧
    (start 1 0 []).avail 1 .rx = 0 := ⟨by decide, by decide, ok_of_check (by decide) 1 .rx, by decide⟩

theorem witness_ReadReturnsTheOldestByte : (Instr.rxrd 1).WellFormed (midRun 0).cfg ∧
    ((midRun 0).ring 1 .rx).Ok (midRun 0).cfg.N ∧ (midRun 0).contents 1 .rx = 0x11 :: [0x22] :=
  ⟨by decide, ok_of_check (by decide) 1 .rx, by decide⟩

-- a byte sent, as a word and as a move, a byte queued, and a broadcast that leaves link 0 alone
theorem witness_TransmitStreamIsQueuedBytes : (∀ l, ((midRun 0).ring l .tx).Ok (midRun 0).cfg.N) ∧
    Instr.txrdy 1 ≠ .rinit 1 .tx ∧ (∃ t, Takes (.txrdy 1) (midRun 0) t) ∧
    (∃ t, Takes (.txw 1 5) (midRun 0) t) ∧ (∃ t, Takes (.req 0) (midRun 0) t) ∧
    (midOpen.ring 1 .tx).Ok midOpen.cfg.N ∧ ∃ t, Takes (.txrdy 1) midOpen t :=
  ⟨fun l => ok_of_check (by decide) l .tx, by decide, ⟨_, .inl rfl⟩, ⟨_, .inl rfl⟩, ⟨_, .inl rfl⟩,
    ok_of_check (by decide) 1 .tx, ⟨_, .inr ⟨.txReady 1, rfl, rfl⟩⟩⟩

theorem witness_TransmitReadyRunDrains : (Instr.txrdy 1).WellFormed (midRun 0).cfg ∧
    ((midRun 0).ring 1 .tx).Ok (midRun 0).cfg.N ∧ ((midRun 0).link 1).txarm = true :=
  ⟨by decide, ok_of_check (by decide) 1 .tx, by decide⟩

/-! The open semantics. -/

theorem witness_OpenStepTakesFirstEnabledMove : openRun.cfg.semantics = .concurrent ∧
    (openRun.env = .byteArrived 1 0x44 :: [.txReady 1, .host] ∧ (Move.byteArrived 1 0x44).enabled openRun = true) ∧
    ((startOpen 1 0 [] [.txReady 1]).env = .txReady 1 :: [] ∧
      (Move.txReady 1).enabled (startOpen 1 0 [] [.txReady 1]) = false) ∧
    (startOpen 1 0 [0x3400] []).env = [] := by decide

-- each enabling condition at its boundary: a word left or none, the last configured link and the first absent one, armed or not
theorem witness_OpenStepTakesFirstEnabledMove_enabled :
    (openRun.trace[openRun.tp]? = some 0x3400 ∧ midOpen.trace[midOpen.tp]? = none) ∧
    (midOpen.cfg.K = 1 ∧ (midOpen.link 1).txarm = true ∧ (midOpen.link 0).txarm = false) ∧
    [Move.host, .byteArrived 1 5, .byteArrived 2 5, .txReady 0, .txReady 1, .txReady 2, .txComplete 1,
      .txComplete 2].map (·.enabled midOpen) = [false, true, false, false, true, false, true, false] := by decide

-- each event on the last configured link, in the open semantics, where moves are made, and in the closed one
theorem witness_EventLeavesTheHostWhereItStood : midOpen.cfg.semantics = .concurrent ∧
    ((Move.byteArrived 1 5).word = some (.rxev 1 5) ∧ (Instr.rxev 1 5).link.val ≤ midOpen.cfg.K) ∧
    ((Move.txReady 1).word = some (.txrdy 1) ∧ (Instr.txrdy 1).link.val ≤ midOpen.cfg.K) ∧
    ((Move.txComplete 1).word = some (.txdone 1) ∧ (Instr.txdone 1).link.val ≤ midOpen.cfg.K) ∧
    ((midRun 0).cfg.semantics = .closed ∧ (Instr.txrdy 1).link.val ≤ (midRun 0).cfg.K) := by decide

theorem witness_EventsOfDifferentLinksCommute : (Move.byteArrived 0 5).linkOf = some 0 ∧
    (Move.txReady 1).linkOf = some 1 ∧ (0 : LinkNo) ≠ 1 ∧ Memory.wf (midRun 0).mem = true := by decide

/-- An armed link with nothing queued, after the host's last word. -/
def armedIdle : State := (startOpen 1 0 [] []).armLink 1

/-- The run in which the transmitter disarms itself and nothing happens after. -/
def fairStates : Nat → State
  | 0 => armedIdle
  | _ => armedIdle.disarmLink 1

def fairMoves : Nat → Option Move
  | 0 => some (.txReady 1)
  | _ => none

theorem witness_FairRunSendsQueuedBytes : IsOpenRun fairStates fairMoves ∧ IsFair fairStates fairMoves ∧
    (fairStates 0).trace.length ≤ (fairStates 0).tp ∧ (1 : LinkNo).val ≤ (fairStates 0).cfg.K ∧
    ((fairStates 0).ring 1 .tx).Ok (fairStates 0).cfg.N ∧ ((fairStates 0).link 1).txarm = true := by
  refine ⟨fun n => ?_, ⟨fun n h => ?_, fun n l _ h => ?_⟩, by decide, by decide,
    ok_of_check (s := fairStates 0) (by decide) 1 .tx, by decide⟩
  · match n with
    | 0 => exact ⟨by decide, by decide, rfl⟩
    | _ + 1 => exact ⟨(by decide : (fairStates 1).cfg.semantics = .concurrent), rfl⟩
  · exact absurd (h (n + 1) (Nat.le_succ n)) (by decide : ¬(fairStates 1).tp < (fairStates 1).trace.length)
  · have : ((fairStates 1).link l).txarm = true := h (n + 1) (Nat.le_succ n)
    rw [(by decide : ∀ l, ((fairStates 1).link l).txarm = false) l] at this
    cases this

theorem witness_FairRunSendsQueuedBytes_rest : (fairStates 1).cfg.semantics = .concurrent ∧
    (fairStates 1).trace.length ≤ (fairStates 1).tp ∧
    ∀ l : LinkNo, l.val ≤ (fairStates 1).cfg.K → ((fairStates 1).link l).txarm = false := by decide

/-! Unspecified storage. -/

theorem witness_StorageDrawIsUnobservable : (midRun 0).Tidy ∧ (∀ l r, ((midRun 0).ring l r).Ok (midRun 0).cfg.N) ∧
    ∃ t, exec (.rxrd 1) (midRun 0) = .next t :=
  ⟨tidy_of_check (by decide), fun l r => ok_of_check (by decide) l r, ⟨_, rfl⟩⟩

-- RXDS 1, 2 with two bytes buffered: n = avail is no over-discard
theorem witness_TidyUnlessOverDiscard : (midRun 0x6402).Inv ∧ (midRun 0x6402).Tidy ∧
    (∃ t, step (midRun 0x6402) = .next t) ∧
    ∀ w i, (midRun 0x6402).trace[(midRun 0x6402).tp]? = some w → decode (midRun 0x6402).cfg w = .ok i →
      ¬OverDiscards i (midRun 0x6402) := by
  refine ⟨inv_of_check (by decide) (by decide), tidy_of_check (by decide), ?_, fun w i hw hi => ?_⟩
  · obtain ⟨t, h, _⟩ := stepRuns_next (s := midRun 0x6402) (p := fun t => t.tp == 1) (by decide)
    exact ⟨t, h⟩
  · have e : w = 0x6402 := Option.some.inj (hw.symm.trans (by decide))
    subst e
    have e : i = .rxds 1 2 := Except.ok.inj (hi.symm.trans (decodes_ok (by decide)))
    subst e
    exact (by decide : ¬(midRun 0x6402).avail 1 .rx < countOperand 2)

/-- RXDS 1, 3 waits at tp over two buffered bytes, and the environment's arrival comes first. -/
def overDiscardWaits : State :=
  load (startOpen 1 0 [0x6403] [.byteArrived 1 0x44]) 1 .rx [0x11, 0x22]

theorem witness_TidyUnlessOverDiscard_event : overDiscardWaits.Inv ∧ overDiscardWaits.Tidy ∧
    (∃ t, step overDiscardWaits = .next t) ∧ ¬HostStepsNext overDiscardWaits ∧
    OverDiscards (.rxds 1 3) overDiscardWaits := by
  refine ⟨inv_of_check (by decide) (by decide), tidy_of_check (by decide), ?_, fun h => ?_,
    (by decide : overDiscardWaits.avail 1 .rx < countOperand 3)⟩
  · obtain ⟨t, h, _⟩ := stepRuns_next (s := overDiscardWaits) (p := fun t => t.avail 1 .rx == 3) (by decide)
    exact ⟨t, h⟩
  · exact absurd (h rfl) (by decide)

end Sys2Proof.Tests
end

section
/-! What a step can do: the effects of a read into `res` and of REQ case by case, the parameters every effect keeps (R38), and the inversion of `step` that the invariants rest on (R206). -/

namespace Sys2Proof.Machine

variable (s : State)

/-! Reading a byte into res (R102). -/

theorem State.readIntoRes_cases (l : LinkNo) :
    (s.empty l .rx = true ∧ s.readIntoRes l = s.setRes 0) ∨
    (s.empty l .rx = false ∧ s.readIntoRes l =
      (s.consume l .rx 1).setRes (zext16 (s.readSlot l .rx (s.ring l .rx).tail))) := by
  unfold State.readIntoRes
  cases s.empty l .rx
  · exact .inr ⟨rfl, rfl⟩
  · exact .inl ⟨rfl, rfl⟩

@[simp] theorem State.readIntoRes_tp (l : LinkNo) : (s.readIntoRes l).tp = s.tp := by
  rcases s.readIntoRes_cases l with ⟨_, h⟩ | ⟨_, h⟩ <;> rw [h] <;> rfl

@[simp] theorem State.readIntoRes_trace (l : LinkNo) : (s.readIntoRes l).trace = s.trace := by
  rcases s.readIntoRes_cases l with ⟨_, h⟩ | ⟨_, h⟩ <;> rw [h] <;> rfl

/-- A ring that is not empty holds a byte (R13). -/
theorem State.one_le_avail {s : State} {l : LinkNo} {r : Dir} (h : (s.ring l r).Ok s.cfg.N)
    (hne : s.empty l r = false) : 1 ≤ s.avail l r := by
  refine Nat.one_le_iff_ne_zero.2 fun hz => ?_
  have : s.empty l r = true := (Ring.isEmpty_iff h).2 hz
  rw [hne] at this
  cases this

/-! The two forms of REQ (R191, R192). -/

theorem effectOf_req_zero : effectOf (.req 0) s = s.requestAll.advance := rfl

theorem effectOf_req_of_ne {l : LinkNo} (h : l ≠ 0) : effectOf (.req l) s = (s.sendRequest l).advance := by
  simp [effectOf, h]

/-! What an effect keeps of the parameters of the run (R38). -/

theorem SameParams.refl : SameParams s s := ⟨rfl, rfl, rfl, rfl⟩

theorem SameParams.advance {s t : State} (h : SameParams s t) : SameParams s t.advance := h

theorem State.readIntoRes_sameParams (l : LinkNo) : SameParams s (s.readIntoRes l) := by
  rcases s.readIntoRes_cases l with ⟨_, h⟩ | ⟨_, h⟩ <;> rw [h] <;> exact .refl s

theorem State.syncPass_sameParams (l : LinkNo) : SameParams s (s.syncPass l) :=
  ⟨s.syncPass_cfg l, s.syncPass_trace l, s.syncPass_env l, s.syncPass_draw l⟩

theorem State.drainPass_sameParams (l : LinkNo) : SameParams s (s.drainPass l) := by
  rcases s.drainPass_cases l with ⟨_, h⟩ | ⟨_, h⟩ <;> rw [h]
  · exact (s.syncPass_sameParams l).advance
  · exact s.syncPass_sameParams l

theorem State.pushByte_sameParams (l : LinkNo) (r : Dir) (b : Byte) : SameParams s (s.pushByte l r b) :=
  ⟨s.pushByte_cfg l r b, s.pushByte_trace l r b, s.pushByte_env l r b, s.pushByte_draw l r b⟩

theorem State.transmitReady_sameParams (l : LinkNo) : SameParams s (s.transmitReady l) :=
  ⟨s.transmitReady_cfg l, s.transmitReady_trace l, s.transmitReady_env l, s.transmitReady_draw l⟩

theorem State.sendRequest_sameParams (l : LinkNo) : SameParams s (s.sendRequest l) :=
  ⟨s.sendRequest_cfg l, s.sendRequest_trace l, s.sendRequest_env l, s.sendRequest_draw l⟩

theorem State.requestAll_sameParams : SameParams s s.requestAll :=
  ⟨s.requestAll_cfg, s.requestAll_trace, s.requestAll_env, s.requestAll_draw⟩

/-- No effect writes the configuration, the trace, the list of moves or the draw. -/
theorem effectOf_sameParams (i : Instr) : SameParams s (effectOf i s) := by
  cases i with
  | rinit l r => exact .refl s
  | txw l b => exact (s.pushByte_sameParams l .tx b).advance
  | rxrd l => exact (s.readIntoRes_sameParams l).advance
  | avl l r => exact .refl s
  | rxpk l d => exact .refl s
  | rxds l n => exact .refl s
  | arm l => exact .refl s
  | sstep l => exact (s.syncPass_sameParams l).advance
  | drain l => exact s.drainPass_sameParams l
  | chk l => exact .refl s
  | stat l => exact .refl s
  | req l =>
    by_cases h0 : l = 0
    · rw [h0, effectOf_req_zero]
      exact s.requestAll_sameParams.advance
    · rw [effectOf_req_of_ne _ h0]
      exact (s.sendRequest_sameParams l).advance
  | rxev l b => exact (s.pushByte_sameParams l .rx b).advance
  | txrdy l => exact (s.transmitReady_sameParams l).advance
  | txdone l => exact .refl s

/-! What a step does (R206): the word at tp, or an event of the open semantics, on the state with the list of moves consumed. -/

theorem hostStep_eq_exec {w : Word} {i : Instr} (hw : s.trace[s.tp]? = some w) (hi : decode s.cfg w = .ok i) :
    hostStep s = exec i s := by
  simp [hostStep, hw, hi]

theorem hostStep_inv {s t : State} (h : hostStep s = .next t) :
    ∃ w i, s.trace[s.tp]? = some w ∧ decode s.cfg w = .ok i ∧ exec i s = .next t := by
  cases hw : s.trace[s.tp]? with
  | none => simp [hostStep, hw] at h
  | some w =>
    cases hi : decode s.cfg w with
    | error why => simp [hostStep, hw, hi, raiseIllegal] at h
    | ok i => exact ⟨w, i, rfl, hi, hostStep_eq_exec s hw hi ▸ h⟩

/-- A step that answers a next state performs one move on the state with the list of moves consumed up to it: the host's move in
a closed trace, the chosen one in the open semantics, where an event is enabled. -/
theorem step_inv {s t : State} (h : step s = .next t) :
    ∃ (m : Move) (e : List Move), performMove m { s with env := e } = .next t ∧ e <:+ s.env ∧
      (s.cfg.semantics = .closed → e = s.env) ∧ (m = .host → HostStepsNext s) ∧
      (m = .host ∨ m.enabled { s with env := e } = true) := by
  unfold step at h
  cases hs : s.cfg.semantics with
  | closed =>
    rw [hs] at h
    have hhost : HostStepsNext s := fun hc => absurd (hs.symm.trans hc) nofun
    exact ⟨.host, s.env, h, List.suffix_refl _, fun _ => rfl, fun _ => hhost, .inl rfl⟩
  | concurrent =>
    rw [hs] at h
    exact ⟨_, _, h, nextMove_suffix s s.env, nofun, fun hm _ => hm, by simpa using nextMove_enabled s s.env⟩

theorem performMove_sameParams {m : Move} {s t : State} (h : performMove m s = .next t) : SameParams s t := by
  cases m with
  | host =>
    obtain ⟨_, i, _, _, hx⟩ := hostStep_inv h
    exact (exec_inv hx).2 ▸ effectOf_sameParams s i
  | byteArrived l b => cases h; exact s.pushByte_sameParams l .rx b
  | txReady l => cases h; exact s.transmitReady_sameParams l
  | txComplete l => cases h; exact .refl s

/-- Settles O4: every move keeps the parameters, and a step performs one move after taking moves off the list's front. -/
theorem stepKeepsParameters : Obligations.StepKeepsParameters := by
  intro s t h
  obtain ⟨m, e, hp, he, hclosed, -, -⟩ := step_inv h
  obtain ⟨hc, ht, henv, hd⟩ := performMove_sameParams hp
  exact ⟨hc, ht, hd, henv ▸ he, fun hs => henv.trans (hclosed hs)⟩

end Sys2Proof.Machine
end

section
/-! The invariant `State.Inv` (R21, R24, R25, R31, R33, R50): one rule per operation, then per effect, then per move. -/

namespace Sys2Proof.Machine

/-- The 16-bit pattern of a temperature reads back as the integer w[4] - 40 (R152). -/
theorem Window.temp16_toInt (w : Window) : w.temp16.toInt = w.temp := by
  have hb : w.b4.toNat < 256 := w.b4.isLt
  unfold Window.temp16 Window.temp tempOffset
  rw [BitVec.toInt_ofInt, Int.bmod_eq_of_le] <;> omega

theorem reading_ok {k : Nat} {l : LinkNo} (h0 : l ≠ 0) (hl : l.val ≤ k) (w : Window) (co2 : Word) :
    Reading.Ok k ⟨BitVec.ofNat 8 l.val, co2, w.temp16⟩ := by
  have hb : w.b4.toNat < 256 := w.b4.isLt
  have hpos : l.val ≠ 0 := fun e => h0 (Fin.ext e)
  have hch : (BitVec.ofNat 8 l.val).toNat = l.val := by
    rw [BitVec.toNat_ofNat, Nat.mod_eq_of_lt (by omega)]
  have ht : w.temp16.toInt = w.b4.toNat - 40 := w.temp16_toInt
  refine ⟨?_, ?_, ?_, ?_⟩
  · show 1 ≤ (BitVec.ofNat 8 l.val).toNat
    omega
  · show (BitVec.ofNat 8 l.val).toNat ≤ k
    omega
  · show -40 ≤ w.temp16.toInt
    omega
  · show w.temp16.toInt ≤ 215
    omega

namespace State.Inv

variable {s : State} (h : s.Inv)
include h

theorem setRes (v : Word) : (s.setRes v).Inv :=
  ⟨h.indices, h.absent, h.canonical, h.inside, h.position, h.emitted⟩

theorem advance (hp : s.tp < s.trace.length) : s.advance.Inv :=
  ⟨h.indices, h.absent, h.canonical, h.inside, hp, h.emitted⟩

theorem withEnv (e : List Move) : State.Inv { s with env := e } :=
  ⟨h.indices, h.absent, h.canonical, h.inside, h.position, h.emitted⟩

theorem emit {l : LinkNo} (h0 : l ≠ 0) (hl : l.val ≤ s.cfg.K) (w : Window) (co2 : Word) :
    (s.emit l co2 w.temp16).Inv where
  indices := h.indices
  absent := h.absent
  canonical := h.canonical
  inside := h.inside
  position := h.position
  emitted x hx := by
    rcases List.mem_append.1 hx with hx | hx
    · exact h.emitted x hx
    · rw [List.mem_singleton.1 hx]; exact reading_ok h0 hl w co2

theorem writeSlot {l : LinkNo} (hl : l.val ≤ s.cfg.K) (r : Dir) (i : Nat) (b : Byte) :
    (s.writeByte (slotAddr s.cfg l r i) b).Inv where
  indices := h.indices
  absent := h.absent
  canonical := Memory.wf_store _ _ h.canonical
  inside c hc := by
    rcases Memory.mem_store hc with rfl | hc
    · exact slotAddr_lt hl r i
    · exact h.inside c hc
  position := h.position
  emitted := h.emitted

theorem modifyLink {l : LinkNo} (hl : l.val ≤ s.cfg.K) {f : Link → Link}
    (hf : ∀ d, ((f (s.link l)).ring d).Ok s.cfg.N) : (s.modifyLink l f).Inv where
  indices k d := by
    rw [State.modifyLink_ring, State.modifyLink_cfg]
    split
    · exact hf d
    · exact h.indices k d
  absent k hk := by
    have hkl : k ≠ l := fun e => Nat.not_lt.2 hl (e ▸ hk)
    rw [s.modifyLink_link_ne f hkl]
    exact h.absent k hk
  canonical := h.canonical
  inside := h.inside
  position := h.position
  emitted := h.emitted

theorem setRing {l : LinkNo} (hl : l.val ≤ s.cfg.K) {r : Dir} {q : Ring} (hq : q.Ok s.cfg.N) :
    (s.setRing l r q).Inv :=
  h.modifyLink hl fun d => by
    by_cases hd : d = r
    · subst hd; rw [Link.setRing_ring_same]; exact hq
    · rw [Link.setRing_ring_ne _ _ hd]; exact h.indices l d

theorem initRing {l : LinkNo} (hl : l.val ≤ s.cfg.K) (r : Dir) : (s.initRing l r).Inv :=
  h.setRing hl (Ring.init_ok s.cfg.N_pos)

theorem consume {l : LinkNo} (hl : l.val ≤ s.cfg.K) (r : Dir) (n : Nat) : (s.consume l r n).Inv :=
  h.setRing hl (Ring.consume_ok n (h.indices l r))

theorem pushByte {l : LinkNo} (hl : l.val ≤ s.cfg.K) (r : Dir) (b : Byte) : (s.pushByte l r b).Inv := by
  cases hf : s.full l r with
  | true => rw [s.pushByte_full b hf]; exact h
  | false =>
    rw [s.pushByte_room b hf]
    exact (h.writeSlot hl r _ b).setRing hl (Ring.produce_ok (h.indices l r))

/-- A change of flags or wire moves no index. -/
theorem modifyFlags {l : LinkNo} (hl : l.val ≤ s.cfg.K) {f : Link → Link}
    (hf : ∀ d, (f (s.link l)).ring d = (s.link l).ring d) : (s.modifyLink l f).Inv :=
  h.modifyLink hl fun d => by rw [hf d]; exact h.indices l d

theorem armLink {l : LinkNo} (hl : l.val ≤ s.cfg.K) : (s.armLink l).Inv :=
  h.modifyFlags hl fun d => by cases d <;> rfl

theorem disarmLink {l : LinkNo} (hl : l.val ≤ s.cfg.K) : (s.disarmLink l).Inv :=
  h.modifyFlags hl fun d => by cases d <;> rfl

theorem completeLink {l : LinkNo} (hl : l.val ≤ s.cfg.K) : (s.completeLink l).Inv :=
  h.modifyFlags hl fun d => by cases d <;> rfl

theorem send {l : LinkNo} (hl : l.val ≤ s.cfg.K) (b : Byte) : (s.send l b).Inv :=
  h.modifyFlags hl fun d => by cases d <;> rfl

theorem readIntoRes {l : LinkNo} (hl : l.val ≤ s.cfg.K) : (s.readIntoRes l).Inv := by
  rcases s.readIntoRes_cases l with ⟨_, e⟩ | ⟨_, e⟩ <;> rw [e]
  · exact h.setRes _
  · exact (h.consume hl .rx 1).setRes _

theorem transmitReady {l : LinkNo} (hl : l.val ≤ s.cfg.K) : (s.transmitReady l).Inv := by
  rcases s.transmitReady_cases l with ⟨_, e⟩ | ⟨_, _, e⟩ | ⟨_, _, e⟩ <;> rw [e]
  · exact h
  · exact (h.consume hl .tx 1).send hl _
  · exact h.disarmLink hl

theorem syncPass {l : LinkNo} (h0 : l ≠ 0) (hl : l.val ≤ s.cfg.K) : (s.syncPass l).Inv := by
  rcases s.syncPass_cases l with ⟨_, e⟩ | ⟨_, _, e⟩ | ⟨_, _, _, e⟩ | ⟨_, _, _, e⟩ <;> rw [e]
  · exact h.setRes _
  · exact (h.consume hl .rx 1).setRes _
  · exact (h.consume hl .rx 1).setRes _
  · exact ((h.consume hl .rx 9).emit h0 hl _ _).setRes _

theorem drainPass {l : LinkNo} (h0 : l ≠ 0) (hl : l.val ≤ s.cfg.K) (hp : s.tp < s.trace.length) :
    (s.drainPass l).Inv := by
  have hpass := h.syncPass h0 hl
  rcases s.drainPass_cases l with ⟨_, e⟩ | ⟨_, e⟩ <;> rw [e]
  · exact hpass.advance (by rwa [State.syncPass_tp, State.syncPass_trace])
  · exact hpass

theorem pushBytes {l : LinkNo} (hl : l.val ≤ s.cfg.K) (bs : List Byte) :
    (s.pushBytes l bs).Inv := by
  induction bs generalizing s with
  | nil => exact h
  | cons b bs ih => exact ih (h.pushByte hl .tx b) (by rwa [State.pushByte_cfg])

theorem sendRequest {l : LinkNo} (hl : l.val ≤ s.cfg.K) : (s.sendRequest l).Inv := by
  rw [State.sendRequest_eq]
  exact (h.pushBytes hl reqFrame).armLink (by rwa [State.pushBytes_cfg])

theorem requestAll : s.requestAll.Inv :=
  (s.requestAll_induction (P := fun t => t.cfg = s.cfg ∧ t.Inv) ⟨rfl, h⟩ fun t l _ hl ⟨hc, ht⟩ =>
    ⟨by rw [State.sendRequest_cfg, hc], ht.sendRequest (by rwa [hc])⟩).2

/-- The effect of a legal instruction keeps the invariant while a word is left at tp. -/
theorem effectOf {i : Instr} (hw : i.WellFormed s.cfg) (hp : s.tp < s.trace.length) : (effectOf i s).Inv := by
  obtain ⟨hl, hsensor, -⟩ := hw
  cases i with
  | rinit l r => exact (h.initRing hl r).advance hp
  | txw l b => exact (h.pushByte hl .tx b).advance (by simpa using hp)
  | rxrd l => exact (h.readIntoRes hl).advance (by simpa using hp)
  | avl l r => exact (h.setRes _).advance hp
  | rxpk l d => exact (h.setRes _).advance hp
  | rxds l n => exact (h.consume hl .rx _).advance hp
  | arm l => exact (h.armLink hl).advance hp
  | sstep l => exact (h.syncPass (hsensor rfl) hl).advance (by simpa using hp)
  | drain l => exact h.drainPass (hsensor rfl) hl hp
  | chk l => exact (h.setRes _).advance hp
  | stat l => exact (h.setRes _).advance hp
  | req l =>
    by_cases h0 : l = 0
    · rw [h0, effectOf_req_zero]
      exact h.requestAll.advance (by simpa using hp)
    · rw [effectOf_req_of_ne _ h0]
      exact (h.sendRequest hl).advance (by simpa using hp)
  | rxev l b => exact (h.pushByte hl .rx b).advance (by simpa [State.byteArrives] using hp)
  | txrdy l => exact (h.transmitReady hl).advance (by simpa using hp)
  | txdone l => exact (h.completeLink hl).advance hp

/-- Each move that is the host's or enabled keeps the invariant. -/
theorem performMove {m : Move} {t : State} (hen : m = .host ∨ m.enabled s = true)
    (hm : performMove m s = .next t) : t.Inv := by
  cases m with
  | host =>
    obtain ⟨w, i, hw, -, hx⟩ := hostStep_inv hm
    obtain ⟨hlegal, rfl⟩ := exec_inv hx
    exact h.effectOf hlegal (List.getElem?_eq_some_iff.1 hw).1
  | byteArrived l b =>
    cases hm
    exact h.pushByte (by simpa [Move.enabled] using hen) .rx b
  | txReady l =>
    cases hm
    have ⟨hl, _⟩ : l.val ≤ s.cfg.K ∧ (s.link l).txarm = true := by simpa [Move.enabled] using hen
    exact h.transmitReady hl
  | txComplete l =>
    cases hm
    exact h.completeLink (by simpa [Move.enabled] using hen)

end State.Inv

/-- Settles O3: a step performs one move, the host's or an enabled event, and each keeps the invariant. -/
theorem stepKeepsInvariant : Obligations.StepKeepsInvariant := by
  intro s t h hst
  obtain ⟨m, e, hm, -, -, -, hen⟩ := step_inv hst
  exact (h.withEnv e).performMove hen hm

end Sys2Proof.Machine
end

section
/-! Contents that have been written, `State.Tidy`: one rule per operation, then per effect. An over-discard (R234) is the one update that has none. -/

namespace Sys2Proof.Machine

/-- Both indices of every ring are in 0..N-1 (R24, R25). -/
def State.IndicesOk (s : State) : Prop := ∀ l r, (s.ring l r).Ok s.cfg.N

theorem State.IndicesOk.pushByte {s : State} (h : s.IndicesOk) (l : LinkNo) (r : Dir) (b : Byte) :
    (s.pushByte l r b).IndicesOk := by
  intro k d
  rw [State.pushByte_cfg]
  by_cases hk : k = l ∧ d = r
  · obtain ⟨rfl, rfl⟩ := hk; exact State.pushByte_ok b (h k d)
  · rw [s.pushByte_ring_ne b hk]; exact h k d

theorem State.IndicesOk.sendRequest {s : State} (h : s.IndicesOk) (l : LinkNo) : (s.sendRequest l).IndicesOk := by
  intro k d
  rw [State.sendRequest_cfg, State.sendRequest_ring]
  exact s.pushBytes_ok _ (h k d)

theorem Memory.find_store_isSome {m : Memory} {a b : Nat} (v : Byte) (h : (Memory.find m b).isSome = true) :
    (Memory.find (Memory.store m a v) b).isSome = true := by
  by_cases hb : b = a
  · subst hb; rw [Memory.find_store_same]; rfl
  · rwa [Memory.find_store_ne _ _ hb]

namespace State.Tidy

variable {s : State}

/-- Tidiness sees the configuration, the rings and the storage alone. -/
theorem congr {t : State} (h : s.Tidy) (hc : t.cfg = s.cfg) (hr : ∀ l r, t.ring l r = s.ring l r)
    (hm : t.mem = s.mem) : t.Tidy := by
  intro l r k hk
  unfold State.avail at hk
  rw [hr, hc] at hk
  rw [hr, hc, hm]
  exact h l r k hk

theorem setRes (h : s.Tidy) (v : Word) : (s.setRes v).Tidy := h

theorem advance (h : s.Tidy) : s.advance.Tidy := h

theorem of_advance (h : s.advance.Tidy) : s.Tidy := h

theorem emit (h : s.Tidy) (c : LinkNo) (x y : Word) : (s.emit c x y).Tidy := h

theorem armLink (h : s.Tidy) (l : LinkNo) : (s.armLink l).Tidy := h.congr rfl (s.armLink_ring l) rfl

theorem disarmLink (h : s.Tidy) (l : LinkNo) : (s.disarmLink l).Tidy := h.congr rfl (s.disarmLink_ring l) rfl

theorem completeLink (h : s.Tidy) (l : LinkNo) : (s.completeLink l).Tidy := h.congr rfl (s.completeLink_ring l) rfl

theorem send (h : s.Tidy) (l : LinkNo) (b : Byte) : (s.send l b).Tidy :=
  h.congr rfl (fun k d => s.send_ring l k b d) rfl

theorem writeByte (h : s.Tidy) (a : Nat) (v : Byte) : (s.writeByte a v).Tidy := fun l r k hk =>
  Memory.find_store_isSome v (h l r k hk)

/-- New indices of one ring keep what is written, if the contents they enclose are. -/
theorem setRing (h : s.Tidy) {l : LinkNo} {r : Dir} {q : Ring}
    (hq : ∀ k, k < q.avail s.cfg.N → (Memory.find s.mem (slotAddr s.cfg l r (q.tail + k))).isSome = true) :
    (s.setRing l r q).Tidy := by
  intro k d j hj
  unfold State.avail at hj
  rw [State.setRing_ring] at hj ⊢
  split at hj
  · next e => obtain ⟨rfl, rfl⟩ := e; simpa using hq j hj
  · next e => simpa [e] using h k d j hj

theorem initRing (h : s.Tidy) (l : LinkNo) (r : Dir) : (s.initRing l r).Tidy :=
  h.setRing fun k hk => by simp at hk

/-- What is left after consuming n buffered bytes was there before, n places on. -/
theorem consume (h : s.Tidy) {l : LinkNo} {r : Dir} {n : Nat} (hok : (s.ring l r).Ok s.cfg.N)
    (hn : n ≤ s.avail l r) : (s.consume l r n).Tidy := by
  refine h.setRing fun k hk => ?_
  rw [Ring.avail_consume hok hn] at hk
  have hslot : slotAddr s.cfg l r (((s.ring l r).consume s.cfg.N n).tail + k) =
      slotAddr s.cfg l r ((s.ring l r).tail + (n + k)) := by
    apply slotAddr_congr
    rw [← Nat.add_assoc]
    exact Nat.mod_add_mod ..
  rw [hslot]
  exact h l r (n + k) (by unfold State.avail; omega)

/-- A byte pushed is a byte written, at the slot right after the contents. -/
theorem pushByte (h : s.Tidy) {l : LinkNo} {r : Dir} (hok : (s.ring l r).Ok s.cfg.N) (b : Byte) :
    (s.pushByte l r b).Tidy := by
  cases hf : s.full l r with
  | true => rw [s.pushByte_full b hf]; exact h
  | false =>
    rw [s.pushByte_room b hf]
    refine (h.writeByte _ b).setRing fun k hk => ?_
    rw [State.writeByte_cfg, Ring.avail_produce hok hf] at hk
    rcases Nat.lt_succ_iff_lt_or_eq.1 hk with hk | rfl
    · exact Memory.find_store_isSome b (h l r k hk)
    · have hslot : slotAddr s.cfg l r ((s.ring l r).tail + (s.ring l r).avail s.cfg.N) =
          slotAddr s.cfg l r (s.ring l r).head := slotAddr_congr l r (Ring.tail_add_avail hok)
      show (Memory.find (Memory.store s.mem _ b) (slotAddr s.cfg l r _)).isSome = true
      rw [show ((s.ring l r).produce s.cfg.N).tail = (s.ring l r).tail from rfl, hslot, Memory.find_store_same]
      rfl

theorem readIntoRes (h : s.Tidy) {l : LinkNo} (hok : (s.ring l .rx).Ok s.cfg.N) : (s.readIntoRes l).Tidy := by
  rcases s.readIntoRes_cases l with ⟨_, e⟩ | ⟨hne, e⟩ <;> rw [e]
  · exact h.setRes _
  · exact (h.consume hok (State.one_le_avail hok hne)).setRes _

theorem syncPass (h : s.Tidy) {l : LinkNo} (hok : (s.ring l .rx).Ok s.cfg.N) : (s.syncPass l).Tidy := by
  rcases s.syncPass_cases l with ⟨_, e⟩ | ⟨h9, _, e⟩ | ⟨h9, _, _, e⟩ | ⟨h9, _, _, e⟩ <;> rw [e]
  · exact h.setRes _
  · exact (h.consume hok (by omega)).setRes _
  · exact (h.consume hok (by omega)).setRes _
  · exact ((h.consume hok h9).emit _ _ _).setRes _

theorem drainPass (h : s.Tidy) {l : LinkNo} (hok : (s.ring l .rx).Ok s.cfg.N) : (s.drainPass l).Tidy := by
  rcases s.drainPass_cases l with ⟨_, e⟩ | ⟨_, e⟩ <;> rw [e]
  · exact (h.syncPass hok).advance
  · exact h.syncPass hok

theorem transmitReady (h : s.Tidy) {l : LinkNo} (hok : (s.ring l .tx).Ok s.cfg.N) : (s.transmitReady l).Tidy := by
  rcases s.transmitReady_cases l with ⟨_, e⟩ | ⟨_, hpos, e⟩ | ⟨_, _, e⟩ <;> rw [e]
  · exact h
  · exact (h.consume hok hpos).send l _
  · exact h.disarmLink l

theorem pushBytes (h : s.Tidy) (hok : s.IndicesOk) (l : LinkNo) (bs : List Byte) : (s.pushBytes l bs).Tidy := by
  induction bs generalizing s with
  | nil => exact h
  | cons b bs ih => exact ih (h.pushByte (hok l .tx) b) (hok.pushByte l .tx b)

theorem sendRequest (h : s.Tidy) (hok : s.IndicesOk) (l : LinkNo) : (s.sendRequest l).Tidy := by
  rw [State.sendRequest_eq]
  exact (h.pushBytes hok l reqFrame).armLink l

theorem requestAll (h : s.Tidy) (hok : s.IndicesOk) : s.requestAll.Tidy :=
  (s.requestAll_induction (P := fun t => t.IndicesOk ∧ t.Tidy) ⟨hok, h⟩ fun _ l _ _ ⟨hi, ht⟩ =>
    ⟨hi.sendRequest l, ht.sendRequest hi l⟩).2

/-- Every effect but an over-discard keeps every ring's contents written. -/
theorem effectOf (h : s.Tidy) (hok : s.IndicesOk) {i : Instr} (hover : ¬OverDiscards i s) :
    (effectOf i s).Tidy := by
  cases i with
  | rinit l r => exact (h.initRing l r).advance
  | txw l b => exact (h.pushByte (hok l .tx) b).advance
  | rxrd l => exact (h.readIntoRes (hok l .rx)).advance
  | avl l r => exact (h.setRes _).advance
  | rxpk l d => exact (h.setRes _).advance
  | rxds l n => exact (h.consume (hok l .rx) (Nat.le_of_not_lt hover)).advance
  | arm l => exact (h.armLink l).advance
  | sstep l => exact (h.syncPass (hok l .rx)).advance
  | drain l => exact h.drainPass (hok l .rx)
  | chk l => exact (h.setRes _).advance
  | stat l => exact (h.setRes _).advance
  | req l =>
    by_cases h0 : l = 0
    · rw [h0, effectOf_req_zero]
      exact (h.requestAll hok).advance
    · rw [effectOf_req_of_ne _ h0]
      exact (h.sendRequest hok l).advance
  | rxev l b => exact (h.pushByte (hok l .rx) b).advance
  | txrdy l => exact (h.transmitReady (hok l .tx)).advance
  | txdone l => exact (h.completeLink l).advance

end State.Tidy

/-- An event has a trace word of its own, and it is no RXDS. -/
theorem Move.word_of_ne_host {m : Move} (hm : m ≠ .host) (s : State) :
    ∃ i, m.word = some i ∧ ¬OverDiscards i s := by
  cases m with
  | host => exact absurd rfl hm
  | byteArrived l b => exact ⟨_, rfl, id⟩
  | txReady l => exact ⟨_, rfl, id⟩
  | txComplete l => exact ⟨_, rfl, id⟩

/-- Settles O60: the move a step performs is the effect of a word that does not over-discard, or of an event's word. -/
theorem tidyUnlessOverDiscard : Obligations.TidyUnlessOverDiscard := by
  intro s t hinv h hst hover
  obtain ⟨m, e, hm, -, -, hhost, -⟩ := step_inv hst
  by_cases hmove : m = .host
  · subst hmove
    obtain ⟨w, i, hw, hi, hx⟩ := hostStep_inv hm
    obtain ⟨-, rfl⟩ := exec_inv hx
    exact State.Tidy.effectOf (s := { s with env := e }) h hinv.indices (hover (hhost rfl) w i hw hi)
  · obtain ⟨i, hi, hno⟩ := Move.word_of_ne_host hmove { s with env := e }
    have heff := State.Tidy.effectOf (s := { s with env := e }) h hinv.indices hno
    rw [performMove_effect _ hi hm] at heff
    exact heff.of_advance

end Sys2Proof.Machine
end

section
/-! One draw of the unspecified storage against another (R34, R232): the operations that read no byte commute with a change of draw; those that read one read it inside written contents. -/

namespace Sys2Proof.Machine

/-- The same state with another draw of the unspecified storage (log 7). -/
def State.withDraw (s : State) (d : Nat) : State := { s with draw := d }

variable {s : State} {d : Nat}

theorem State.pushByte_withDraw (l : LinkNo) (r : Dir) (b : Byte) :
    (s.withDraw d).pushByte l r b = (s.pushByte l r b).withDraw d := by
  cases hf : s.full l r with
  | true => rw [s.pushByte_full b hf, (s.withDraw d).pushByte_full b hf]
  | false => rw [s.pushByte_room b hf, (s.withDraw d).pushByte_room b hf]; rfl

theorem State.armLink_withDraw (l : LinkNo) : (s.withDraw d).armLink l = (s.armLink l).withDraw d := rfl

theorem State.advance_withDraw : (s.withDraw d).advance = s.advance.withDraw d := rfl

theorem State.sendRequest_withDraw (l : LinkNo) :
    (s.withDraw d).sendRequest l = (s.sendRequest l).withDraw d := by
  have hpush : (s.withDraw d).pushBytes l reqFrame = (s.pushBytes l reqFrame).withDraw d :=
    List.foldl_hom (fun u : State => u.withDraw d) fun u b => u.pushByte_withDraw l .tx b
  rw [State.sendRequest_eq, State.sendRequest_eq, hpush, State.armLink_withDraw]

theorem State.requestAll_withDraw : (s.withDraw d).requestAll = s.requestAll.withDraw d :=
  List.foldl_hom (fun u : State => u.withDraw d) fun u l => u.sendRequest_withDraw l

/-! Bytes of written contents. -/

theorem State.readByte_withDraw {a : Nat} (h : (Memory.find s.mem a).isSome = true) :
    (s.withDraw d).readByte a = s.readByte a := by
  obtain ⟨v, hv⟩ := Option.isSome_iff_exists.1 h
  simp [State.readByte, State.withDraw, hv]

theorem State.Tidy.readSlot_withDraw (h : s.Tidy) {l : LinkNo} {r : Dir} {k : Nat} (hk : k < s.avail l r) :
    (s.withDraw d).readSlot l r ((s.ring l r).tail + k) = s.readSlot l r ((s.ring l r).tail + k) :=
  State.readByte_withDraw (h l r k hk)

theorem State.Tidy.readTail_withDraw (h : s.Tidy) {l : LinkNo} {r : Dir} (hk : 0 < s.avail l r) :
    (s.withDraw d).readSlot l r (s.ring l r).tail = s.readSlot l r (s.ring l r).tail :=
  h.readSlot_withDraw hk

theorem State.Tidy.peek_withDraw (h : s.Tidy) (l : LinkNo) (k : Nat) : (s.withDraw d).peek l k = s.peek l k := by
  unfold State.peek
  by_cases hk : s.avail l .rx ≤ k
  · exact (if_pos hk).trans (if_pos hk).symm
  · rw [if_neg hk, ← h.readSlot_withDraw (Nat.lt_of_not_le hk)]
    exact if_neg hk

theorem State.Tidy.peekWindow_withDraw (h : s.Tidy) (l : LinkNo) :
    (s.withDraw d).peekWindow l = s.peekWindow l := by
  simp only [State.peekWindow, h.peek_withDraw]

theorem windowOf_congr {f g : Nat → Byte} (h : ∀ k, k < 9 → f k = g k) : windowOf f = windowOf g := by
  simp [windowOf, h]

theorem State.Tidy.syncWindow_withDraw (h : s.Tidy) {l : LinkNo} (h9 : 9 ≤ s.avail l .rx) :
    (s.withDraw d).syncWindow l = s.syncWindow l :=
  windowOf_congr fun _ hk => h.readSlot_withDraw (Nat.lt_of_lt_of_le hk h9)

/-! The operations that read a byte. -/

theorem State.Tidy.readIntoRes_withDraw (h : s.Tidy) {l : LinkNo} (hok : (s.ring l .rx).Ok s.cfg.N) :
    (s.withDraw d).readIntoRes l = (s.readIntoRes l).withDraw d := by
  unfold State.readIntoRes
  cases he : s.empty l .rx with
  | true => rw [show (s.withDraw d).empty l .rx = true from he]; rfl
  | false =>
    rw [show (s.withDraw d).empty l .rx = false from he, ← h.readTail_withDraw (State.one_le_avail hok he)]
    rfl

theorem State.Tidy.transmitReady_withDraw (h : s.Tidy) (l : LinkNo) :
    (s.withDraw d).transmitReady l = (s.transmitReady l).withDraw d := by
  unfold State.transmitReady
  cases ha : (s.link l).txarm with
  | false => rw [show ((s.withDraw d).link l).txarm = false from ha]; rfl
  | true =>
    rw [show ((s.withDraw d).link l).txarm = true from ha]
    by_cases hpos : 0 < s.avail l .tx
    · rw [if_pos hpos, if_pos (show 0 < (s.withDraw d).avail l .tx from hpos), ← h.readTail_withDraw hpos]
      rfl
    · rw [if_neg hpos, if_neg (show ¬0 < (s.withDraw d).avail l .tx from hpos)]
      rfl

theorem State.Tidy.syncPass_withDraw (h : s.Tidy) (l : LinkNo) :
    (s.withDraw d).syncPass l = (s.syncPass l).withDraw d := by
  unfold State.syncPass
  by_cases h9 : s.avail l .rx < frameLen
  · rw [if_pos h9, if_pos (show (s.withDraw d).avail l .rx < frameLen from h9)]
    rfl
  · have hw : (s.withDraw d).syncWindow l = s.syncWindow l := h.syncWindow_withDraw (Nat.le_of_not_lt h9)
    have hb : (s.withDraw d).readSlot l .rx ((s.withDraw d).ring l .rx).tail =
        s.readSlot l .rx (s.ring l .rx).tail := congrArg Window.b0 hw
    rw [if_neg h9, if_neg (show ¬(s.withDraw d).avail l .rx < frameLen from h9), hw, hb]
    split
    · rfl
    · split <;> rfl

theorem State.Tidy.drainPass_withDraw (h : s.Tidy) (l : LinkNo) :
    (s.withDraw d).drainPass l = (s.drainPass l).withDraw d := by
  unfold State.drainPass
  rw [h.syncPass_withDraw l]
  by_cases hwait : (s.syncPass l).res = passCode .wait
  · rw [if_pos hwait, if_pos (show ((s.syncPass l).withDraw d).res = _ from hwait), State.advance_withDraw]
  · rw [if_neg hwait, if_neg (show ¬((s.syncPass l).withDraw d).res = _ from hwait)]

/-- While contents are written, the effect of an instruction commutes with a change of draw. -/
theorem effectOf_withDraw (h : s.Tidy) (hok : s.IndicesOk) (i : Instr) :
    effectOf i (s.withDraw d) = (effectOf i s).withDraw d := by
  cases i with
  | rinit l r => rfl
  | txw l b => exact congrArg State.advance (s.pushByte_withDraw l .tx b)
  | rxrd l => exact congrArg State.advance (h.readIntoRes_withDraw (hok l .rx))
  | avl l r => rfl
  | rxpk l k =>
    exact congrArg (fun b => ((s.withDraw d).setRes (zext16 b)).advance) (h.peek_withDraw l (countOperand k))
  | rxds l n => rfl
  | arm l => rfl
  | sstep l => exact congrArg State.advance (h.syncPass_withDraw l)
  | drain l => exact h.drainPass_withDraw l
  | chk l =>
    exact congrArg (fun w => ((s.withDraw d).setRes (chkWord (cks w) w.syncOk w.cksOk)).advance)
      (h.peekWindow_withDraw l)
  | stat l => rfl
  | req l =>
    by_cases h0 : l = 0
    · rw [h0, effectOf_req_zero, effectOf_req_zero, State.requestAll_withDraw, State.advance_withDraw]
    · rw [effectOf_req_of_ne _ h0, effectOf_req_of_ne _ h0, State.sendRequest_withDraw, State.advance_withDraw]
  | rxev l b => exact congrArg State.advance (s.pushByte_withDraw l .rx b)
  | txrdy l => exact congrArg State.advance (h.transmitReady_withDraw l)
  | txdone l => rfl

/-- Settles O59: a legal instruction is its effect, and the effect commutes with a change of draw. -/
theorem storageDrawIsUnobservable : Obligations.StorageDrawIsUnobservable := by
  intro s t i d h hok hx
  obtain ⟨hlegal, rfl⟩ := exec_inv hx
  have heff : effectOf i (s.withDraw d) = (effectOf i s).withDraw d := effectOf_withDraw h hok i
  exact (exec_next (s := s.withDraw d) hlegal).trans (congrArg _ heff)

end Sys2Proof.Machine
end

section
/-! Which instructions can change which component (R26, R28 to R33): frames of `effectOf`, carried to words and moves by `Takes.eq_effect`. -/

namespace Sys2Proof.Machine

/-- What does not look at tp cannot tell the state i takes s to, as a word or as a move, from the effect of i. -/
theorem Takes.eq_effect {α : Type} {f : State → α} {s t : State} {i : Instr} (h : Takes i s t)
    (hf : ∀ u : State, f u.advance = f u) : f t = f (effectOf i s) := by
  rcases h.cases with ⟨_, rfl⟩ | ⟨_, e⟩
  · rfl
  · rw [e, hf]

/-- The instructions that may move the head of a receive or transmit ring, but for RINIT (R24, R26). -/
def Produces (i : Instr) : Dir → Prop
  | .rx => i.op = .rxev
  | .tx => i.op = .txw ∨ i.op = .req

/-- The instructions that may move the tail of a receive or transmit ring, but for RINIT (R25, R26). -/
def Consumes (i : Instr) : Dir → Prop
  | .rx => i.op = .rxrd ∨ i.op = .rxds ∨ i.op = .sstep ∨ i.op = .drain
  | .tx => i.op = .txrdy

variable (s : State)

/-! Frames of a consume, of RINIT and of a transmit-ready event. -/

@[simp] theorem State.consume_head (l k : LinkNo) (r d : Dir) (n : Nat) :
    ((s.consume l r n).ring k d).head = (s.ring k d).head := by
  rw [State.consume_ring]
  split
  · next e => obtain ⟨rfl, rfl⟩ := e; rfl
  · rfl

theorem State.consume_ring_ne {l k : LinkNo} {r d : Dir} (n : Nat) (h : ¬(k = l ∧ d = r)) :
    (s.consume l r n).ring k d = s.ring k d := s.setRing_ring_ne _ h

theorem State.initRing_ring_ne {l k : LinkNo} {r d : Dir} (h : ¬(k = l ∧ d = r)) :
    (s.initRing l r).ring k d = s.ring k d := s.setRing_ring_ne _ h

@[simp] theorem State.transmitReady_head (l k : LinkNo) (d : Dir) :
    ((s.transmitReady l).ring k d).head = (s.ring k d).head := by
  rcases s.transmitReady_cases l with ⟨_, h⟩ | ⟨_, _, h⟩ | ⟨_, _, h⟩ <;> rw [h] <;> simp

/-! RXRD's read touches res and one tail alone (R102). -/

@[simp] theorem State.readIntoRes_head (l k : LinkNo) (d : Dir) :
    ((s.readIntoRes l).ring k d).head = (s.ring k d).head := by
  rcases s.readIntoRes_cases l with ⟨_, h⟩ | ⟨_, h⟩ <;> rw [h] <;> simp

theorem State.readIntoRes_ring_ne {l k : LinkNo} {d : Dir} (hk : ¬(k = l ∧ d = .rx)) :
    (s.readIntoRes l).ring k d = s.ring k d := by
  rcases s.readIntoRes_cases l with ⟨_, h⟩ | ⟨_, h⟩ <;> rw [h]
  · rfl
  · exact s.consume_ring_ne 1 hk

@[simp] theorem State.readIntoRes_readByte (l : LinkNo) (a : Nat) :
    (s.readIntoRes l).readByte a = s.readByte a := by
  rcases s.readIntoRes_cases l with ⟨_, h⟩ | ⟨_, h⟩ <;> rw [h] <;> rfl

@[simp] theorem State.readIntoRes_readings (l : LinkNo) : (s.readIntoRes l).readings = s.readings := by
  rcases s.readIntoRes_cases l with ⟨_, h⟩ | ⟨_, h⟩ <;> rw [h] <;> rfl

@[simp] theorem State.readIntoRes_txarm (l k : LinkNo) : ((s.readIntoRes l).link k).txarm = (s.link k).txarm := by
  rcases s.readIntoRes_cases l with ⟨_, h⟩ | ⟨_, h⟩ <;> rw [h] <;> simp

@[simp] theorem State.readIntoRes_txc (l k : LinkNo) : ((s.readIntoRes l).link k).txc = (s.link k).txc := by
  rcases s.readIntoRes_cases l with ⟨_, h⟩ | ⟨_, h⟩ <;> rw [h] <;> simp

@[simp] theorem State.readIntoRes_wire (l k : LinkNo) : ((s.readIntoRes l).link k).wire = (s.link k).wire := by
  rcases s.readIntoRes_cases l with ⟨_, h⟩ | ⟨_, h⟩ <;> rw [h] <;> simp

/-- What does not look at tp cannot tell an iteration of DRAIN from its pass (R171). -/
theorem State.drainPass_eq_syncPass {α : Type} {f : State → α} (hf : ∀ u : State, f u.advance = f u) (l : LinkNo) :
    f (s.drainPass l) = f (s.syncPass l) := by
  rcases s.drainPass_cases l with ⟨_, h⟩ | ⟨_, h⟩ <;> rw [h]
  exact hf _

/-! Indices and storage (R24 to R26, R51). -/

/-- A head stands under every effect but a producer's and its own RINIT. -/
theorem effectOf_head {i : Instr} {l : LinkNo} {r : Dir} (hinit : i ≠ .rinit l r) (hp : ¬Produces i r) :
    ((effectOf i s).ring l r).head = (s.ring l r).head := by
  cases i with
  | rinit k d => exact congrArg Ring.head (s.initRing_ring_ne fun ⟨hl, hd⟩ => hinit (by rw [hl, hd]))
  | txw k b =>
    cases r with
    | rx => exact congrArg Ring.head (s.pushByte_ring_ne b (by simp))
    | tx => exact absurd (.inl rfl) hp
  | rxrd k => exact s.readIntoRes_head k l r
  | avl k d => rfl
  | rxpk k n => rfl
  | rxds k n => exact s.consume_head k l .rx r _
  | arm k => exact congrArg Ring.head (s.armLink_ring k l r)
  | sstep k => exact s.syncPass_head k l r
  | drain k =>
    exact (s.drainPass_eq_syncPass (f := fun u => (u.ring l r).head) (fun _ => rfl) k).trans (s.syncPass_head k l r)
  | chk k => rfl
  | stat k => rfl
  | req k =>
    cases r with
    | rx =>
      by_cases h0 : k = 0
      · rw [h0, effectOf_req_zero, State.advance_ring, State.requestAll_rx]
      · rw [effectOf_req_of_ne _ h0, State.advance_ring, State.sendRequest_ring, s.pushBytes_ring_ne _ (by simp)]
    | tx => exact absurd (.inr rfl) hp
  | rxev k b =>
    cases r with
    | rx => exact absurd rfl hp
    | tx => exact congrArg Ring.head (s.pushByte_ring_ne b (by simp))
  | txrdy k => exact s.transmitReady_head k l r
  | txdone k => exact congrArg Ring.head (s.completeLink_ring k l r)

/-- A tail stands under every effect but a consumer's and its own RINIT. -/
theorem effectOf_tail {i : Instr} {l : LinkNo} {r : Dir} (hinit : i ≠ .rinit l r) (hc : ¬Consumes i r) :
    ((effectOf i s).ring l r).tail = (s.ring l r).tail := by
  cases i with
  | rinit k d => exact congrArg Ring.tail (s.initRing_ring_ne fun ⟨hl, hd⟩ => hinit (by rw [hl, hd]))
  | txw k b => exact s.pushByte_tail k l .tx r b
  | rxrd k =>
    cases r with
    | rx => exact absurd (.inl rfl) hc
    | tx => exact congrArg Ring.tail (s.readIntoRes_ring_ne (by simp))
  | avl k d => rfl
  | rxpk k n => rfl
  | rxds k n =>
    cases r with
    | rx => exact absurd (.inr (.inl rfl)) hc
    | tx => exact congrArg Ring.tail (s.consume_ring_ne _ (by simp))
  | arm k => exact congrArg Ring.tail (s.armLink_ring k l r)
  | sstep k =>
    cases r with
    | rx => exact absurd (.inr (.inr (.inl rfl))) hc
    | tx => exact congrArg Ring.tail (s.syncPass_ring_ne (by simp))
  | drain k =>
    cases r with
    | rx => exact absurd (.inr (.inr (.inr rfl))) hc
    | tx =>
      exact congrArg Ring.tail ((s.drainPass_eq_syncPass (f := fun u => u.ring l .tx) (fun _ => rfl) k).trans
        (s.syncPass_ring_ne (by simp)))
  | chk k => rfl
  | stat k => rfl
  | req k =>
    by_cases h0 : k = 0
    · rw [h0, effectOf_req_zero, State.advance_ring, State.requestAll_tail]
    · rw [effectOf_req_of_ne _ h0, State.advance_ring, State.sendRequest_ring, State.pushBytes_tail]
  | rxev k b => exact s.pushByte_tail k l .rx r b
  | txrdy k =>
    cases r with
    | rx => exact congrArg Ring.tail (s.transmitReady_ring_ne (by simp))
    | tx => exact absurd rfl hc
  | txdone k => exact congrArg Ring.tail (s.completeLink_ring k l r)

/-- Storage stands under every effect but RXEV, TXW and REQ. -/
theorem effectOf_readByte {i : Instr} (hw : ¬(i.op = .rxev ∨ i.op = .txw ∨ i.op = .req)) (a : Nat) :
    (effectOf i s).readByte a = s.readByte a := by
  cases i with
  | rxrd l => exact s.readIntoRes_readByte l a
  | sstep l => exact s.syncPass_readByte l a
  | drain l =>
    exact (s.drainPass_eq_syncPass (f := fun u => u.readByte a) (fun _ => rfl) l).trans (s.syncPass_readByte l a)
  | txrdy l => exact s.transmitReady_readByte l a
  | txw | req | rxev => exact absurd (by simp [Instr.op]) hw
  | rinit | avl | rxpk | rxds | arm | chk | stat | txdone => rfl

theorem Takes.head_cause {s t : State} {i : Instr} {l : LinkNo} {r : Dir} (h : Takes i s t)
    (hne : (t.ring l r).head ≠ (s.ring l r).head) : Produces i r ∨ i = .rinit l r := by
  by_contra hno
  obtain ⟨hp, hinit⟩ := not_or.1 hno
  exact hne ((h.eq_effect (f := fun u => (u.ring l r).head) fun _ => rfl).trans (effectOf_head s hinit hp))

theorem Takes.tail_cause {s t : State} {i : Instr} {l : LinkNo} {r : Dir} (h : Takes i s t)
    (hne : (t.ring l r).tail ≠ (s.ring l r).tail) : Consumes i r ∨ i = .rinit l r := by
  by_contra hno
  obtain ⟨hc, hinit⟩ := not_or.1 hno
  exact hne ((h.eq_effect (f := fun u => (u.ring l r).tail) fun _ => rfl).trans (effectOf_tail s hinit hc))

theorem Takes.readByte_cause {s t : State} {i : Instr} {a : Nat} (h : Takes i s t)
    (hne : t.readByte a ≠ s.readByte a) : i.op = .rxev ∨ i.op = .txw ∨ i.op = .req := by
  by_contra hno
  exact hne ((h.eq_effect (f := fun u => u.readByte a) fun _ => rfl).trans (effectOf_readByte s hno a))

/-- Settles O44: the causes of a moved head, a moved tail and a changed byte, read off for each direction. -/
theorem producerConsumerDiscipline : Obligations.ProducerConsumerDiscipline := fun _ _ _ h =>
  ⟨fun _ hne => h.head_cause hne,
    fun _ hne => by simpa [Consumes, or_assoc] using h.tail_cause hne,
    fun _ hne => by simpa [Produces, or_assoc] using h.head_cause hne,
    fun _ hne => h.tail_cause hne,
    fun _ hne => h.readByte_cause hne⟩

/-! The result register (R28). -/

theorem effectOf_res {i : Instr} (hi : i.op ∉ [Op.rxrd, .avl, .rxpk, .sstep, .drain, .chk, .stat]) :
    (effectOf i s).res = s.res := by
  cases i with
  | txw l b => exact s.pushByte_res l .tx b
  | req l =>
    by_cases h0 : l = 0
    · rw [h0, effectOf_req_zero, State.advance_res, State.requestAll_res]
    · rw [effectOf_req_of_ne _ h0, State.advance_res, State.sendRequest_res]
  | rxev l b => exact s.pushByte_res l .rx b
  | txrdy l => exact s.transmitReady_res l
  | rinit | rxds | arm | txdone => rfl
  | rxrd | avl | rxpk | sstep | drain | chk | stat => exact absurd (by simp [Instr.op]) hi

/-- Settles O43: no effect but those of the seven value commands writes res. -/
theorem resWrittenOnlyByValueCommands : Obligations.ResWrittenOnlyByValueCommands := fun s _ _ h hi =>
  (h.eq_effect fun _ => rfl).trans (effectOf_res s hi)

/-! The trace position (R33). -/

theorem effectOf_tp {i : Instr} (hi : i.op ≠ .drain) : (effectOf i s).tp = s.tp + 1 := by
  cases i with
  | drain l => exact absurd rfl hi
  | txw l b => simp [effectOf]
  | rxrd l => simp [effectOf]
  | sstep l => simp [effectOf]
  | req l =>
    by_cases h0 : l = 0
    · rw [h0, effectOf_req_zero, State.advance_tp, State.requestAll_tp]
    · rw [effectOf_req_of_ne _ h0, State.advance_tp, State.sendRequest_tp]
  | rxev l b => simp [effectOf, State.byteArrives]
  | txrdy l => simp [effectOf]
  | rinit | avl | rxpk | rxds | arm | chk | stat | txdone => rfl

theorem State.drainPass_tp_cases (l : LinkNo) :
    ((s.drainPass l).res = 0 ∧ (s.drainPass l).tp = s.tp + 1) ∨
    ((s.drainPass l).res ≠ 0 ∧ (s.drainPass l).tp = s.tp) := by
  rcases s.drainPass_cases l with ⟨hres, h⟩ | ⟨hres, h⟩ <;> rw [h]
  · exact .inl ⟨hres, by rw [State.advance_tp, State.syncPass_tp]⟩
  · exact .inr ⟨hres, s.syncPass_tp l⟩

/-- Settles O47: the effect of DRAIN is one pass, which advances exactly when it waits; every other effect advances. -/
theorem tracePositionAdvances : Obligations.TracePositionAdvances := by
  intro s t i hx
  obtain ⟨-, rfl⟩ := exec_inv hx
  refine ⟨effectOf_tp s, fun hi => ?_⟩
  cases i with
  | drain l => exact s.drainPass_tp_cases l
  | _ => cases hi

/-! The flags (R29, R30, R36). -/

/-- The flags of link l are as they were, or as arming leaves them (R136, R191). -/
def FlagsKeptOrArmed (s t : State) (l : LinkNo) : Prop :=
  ((t.link l).txarm = (s.link l).txarm ∧ (t.link l).txc = (s.link l).txc) ∨
  ((t.link l).txarm = true ∧ (t.link l).txc = false)

theorem State.armLink_flags (k l : LinkNo) : FlagsKeptOrArmed s (s.armLink k) l := by
  unfold FlagsKeptOrArmed State.armLink
  rw [State.modifyLink_link]
  split
  · exact .inr ⟨rfl, rfl⟩
  · exact .inl ⟨rfl, rfl⟩

theorem State.sendRequest_flags (k l : LinkNo) : FlagsKeptOrArmed s (s.sendRequest k) l := by
  have h := (s.pushBytes k reqFrame).armLink_flags k l
  unfold FlagsKeptOrArmed at h ⊢
  rwa [State.pushBytes_txarm, State.pushBytes_txc, ← State.sendRequest_eq] at h

theorem FlagsKeptOrArmed.trans {s t u : State} {l : LinkNo} (h : FlagsKeptOrArmed s t l)
    (h' : FlagsKeptOrArmed t u l) : FlagsKeptOrArmed s u l := by
  rcases h' with ⟨ha, hc⟩ | h'
  · unfold FlagsKeptOrArmed
    rw [ha, hc]
    exact h
  · exact .inr h'

theorem State.requestAll_flags (l : LinkNo) : FlagsKeptOrArmed s s.requestAll l :=
  s.requestAll_induction (P := fun t => FlagsKeptOrArmed s t l) (.inl ⟨rfl, rfl⟩) fun t k _ _ h =>
    h.trans (t.sendRequest_flags k l)

theorem State.transmitReady_flags (l : LinkNo) :
    (((s.transmitReady l).link l).txarm = (s.link l).txarm ∧ ((s.transmitReady l).link l).txc = (s.link l).txc) ∨
    (s.avail l .tx = 0 ∧ ((s.transmitReady l).link l).txarm = false ∧
      ((s.transmitReady l).link l).txc = (s.link l).txc) := by
  rcases s.transmitReady_cases l with ⟨_, h⟩ | ⟨_, _, h⟩ | ⟨_, hz, h⟩ <;> rw [h]
  · exact .inl ⟨rfl, rfl⟩
  · exact .inl (by simp [State.send])
  · exact .inr ⟨hz, by simp [State.disarmLink]⟩

/-- What an effect can do to the flags of a link: nothing, arm it, disarm it when its transmit ring is empty, or mark it
complete. -/
theorem effectOf_flags_cases (i : Instr) (l : LinkNo) :
    (((effectOf i s).link l).txarm = (s.link l).txarm ∧ ((effectOf i s).link l).txc = (s.link l).txc) ∨
    ((i.op = .arm ∨ i.op = .req) ∧ ((effectOf i s).link l).txarm = true ∧ ((effectOf i s).link l).txc = false) ∨
    (i = .txrdy l ∧ s.avail l .tx = 0 ∧ ((effectOf i s).link l).txarm = false ∧
      ((effectOf i s).link l).txc = (s.link l).txc) ∨
    (i = .txdone l ∧ ((effectOf i s).link l).txarm = (s.link l).txarm ∧ ((effectOf i s).link l).txc = true) := by
  cases i with
  | rinit k r => exact .inl ⟨s.setRing_txarm k l r _, s.setRing_txc k l r _⟩
  | txw k b => exact .inl ⟨s.pushByte_txarm k l .tx b, s.pushByte_txc k l .tx b⟩
  | rxrd k => exact .inl ⟨s.readIntoRes_txarm k l, s.readIntoRes_txc k l⟩
  | rxds k n => exact .inl ⟨s.consume_txarm k l .rx _, s.consume_txc k l .rx _⟩
  | arm k => exact (s.armLink_flags k l).imp id fun h => .inl ⟨.inl rfl, h⟩
  | sstep k => exact .inl ⟨s.syncPass_txarm k l, s.syncPass_txc k l⟩
  | drain k =>
    have hlink : (s.drainPass k).link l = (s.syncPass k).link l :=
      s.drainPass_eq_syncPass (f := fun u => u.link l) (fun _ => rfl) k
    refine .inl ⟨?_, ?_⟩
    · exact (congrArg Link.txarm hlink).trans (s.syncPass_txarm k l)
    · exact (congrArg Link.txc hlink).trans (s.syncPass_txc k l)
  | req k =>
    by_cases h0 : k = 0
    · rw [h0, effectOf_req_zero, State.advance_link]
      exact (s.requestAll_flags l).imp id fun h => .inl ⟨.inr rfl, h⟩
    · rw [effectOf_req_of_ne _ h0, State.advance_link]
      exact (s.sendRequest_flags k l).imp id fun h => .inl ⟨.inr rfl, h⟩
  | rxev k b => exact .inl ⟨s.pushByte_txarm k l .rx b, s.pushByte_txc k l .rx b⟩
  | txrdy k =>
    by_cases hk : l = k
    · subst hk
      exact (s.transmitReady_flags l).imp id fun h => .inr (.inl ⟨rfl, h⟩)
    · have hlink : (s.transmitReady k).link l = s.link l := s.transmitReady_link_ne hk
      exact .inl ⟨congrArg Link.txarm hlink, congrArg Link.txc hlink⟩
  | txdone k =>
    by_cases hk : l = k
    · subst hk
      exact .inr (.inr (.inr ⟨rfl, by simp [effectOf, State.transmitComplete, State.completeLink]⟩))
    · have hlink : (s.completeLink k).link l = s.link l := s.modifyLink_link_ne _ hk
      exact .inl ⟨congrArg Link.txarm hlink, congrArg Link.txc hlink⟩
  | avl | rxpk | chk | stat => exact .inl ⟨rfl, rfl⟩

/-- Settles O45: each change of a flag is one of the cases of `effectOf_flags_cases`. -/
theorem flagsChangeOnlyByRule : Obligations.FlagsChangeOnlyByRule := by
  intro s t i l h
  rw [h.eq_effect (f := fun u => u.link l) fun _ => rfl]
  rcases effectOf_flags_cases s i l with ⟨ha, hc⟩ | ⟨hi, ha, hc⟩ | ⟨hi, he, ha, hc⟩ | ⟨hi, ha, hc⟩ <;> rw [ha, hc]
  · simp +contextual
  · simp [hi]
  · simp +contextual [hi, he]
  · simp +contextual [hi]

/-! The outputs (R31, R32). -/

theorem State.syncPass_readings_cases (l : LinkNo) :
    (s.syncPass l).readings = s.readings ∨ ∃ x, (s.syncPass l).readings = s.readings ++ [x] := by
  rcases s.syncPass_cases l with ⟨_, h⟩ | ⟨_, _, h⟩ | ⟨_, _, _, h⟩ | ⟨_, _, _, h⟩ <;> rw [h]
  · exact .inl rfl
  · exact .inl rfl
  · exact .inl rfl
  · exact .inr ⟨_, rfl⟩

theorem effectOf_readings_cases (i : Instr) :
    (effectOf i s).readings = s.readings ∨
    ((i.op = .sstep ∨ i.op = .drain) ∧ ∃ x, (effectOf i s).readings = s.readings ++ [x]) := by
  cases i with
  | txw l b => exact .inl (s.pushByte_readings l .tx b)
  | rxrd l => exact .inl (s.readIntoRes_readings l)
  | sstep l => exact (s.syncPass_readings_cases l).imp id fun h => ⟨.inl rfl, h⟩
  | drain l =>
    have hpass : (s.drainPass l).readings = (s.syncPass l).readings :=
      s.drainPass_eq_syncPass (f := State.readings) (fun _ => rfl) l
    unfold effectOf
    simp only [hpass]
    exact (s.syncPass_readings_cases l).imp id fun h => ⟨.inr rfl, h⟩
  | req l =>
    by_cases h0 : l = 0
    · rw [h0, effectOf_req_zero, State.advance_readings]; exact .inl s.requestAll_readings
    · rw [effectOf_req_of_ne _ h0, State.advance_readings]; exact .inl (s.sendRequest_readings l)
  | rxev l b => exact .inl (s.pushByte_readings l .rx b)
  | txrdy l => exact .inl (s.transmitReady_readings l)
  | rinit | avl | rxpk | rxds | arm | chk | stat | txdone => exact .inl rfl

@[simp] theorem State.completeLink_wire (k l : LinkNo) : ((s.completeLink k).link l).wire = (s.link l).wire := by
  unfold State.completeLink
  rw [State.modifyLink_link]
  split
  · next h => subst h; rfl
  · rfl

theorem State.transmitReady_wire_cases (l : LinkNo) :
    ((s.transmitReady l).link l).wire = (s.link l).wire ∨
    ∃ b, ((s.transmitReady l).link l).wire = (s.link l).wire ++ [b] := by
  rcases s.transmitReady_cases l with ⟨_, h⟩ | ⟨_, _, h⟩ | ⟨_, _, h⟩ <;> rw [h]
  · exact .inl rfl
  · exact .inr ⟨s.readSlot l .tx (s.ring l .tx).tail, by simp [State.send]⟩
  · exact .inl (by simp [State.disarmLink])

theorem effectOf_wire_cases (i : Instr) (l : LinkNo) :
    ((effectOf i s).link l).wire = (s.link l).wire ∨
    (i = .txrdy l ∧ ∃ b, ((effectOf i s).link l).wire = (s.link l).wire ++ [b]) := by
  cases i with
  | rinit k r => exact .inl (s.setRing_wire k l r _)
  | txw k b => exact .inl (s.pushByte_wire k l .tx b)
  | rxrd k => exact .inl (s.readIntoRes_wire k l)
  | rxds k n => exact .inl (s.consume_wire k l .rx _)
  | arm k => exact .inl (s.armLink_wire k l)
  | sstep k => exact .inl (s.syncPass_wire k l)
  | drain k =>
    exact .inl ((s.drainPass_eq_syncPass (f := fun u => (u.link l).wire) (fun _ => rfl) k).trans (s.syncPass_wire k l))
  | req k =>
    by_cases h0 : k = 0
    · rw [h0, effectOf_req_zero, State.advance_link]; exact .inl (s.requestAll_wire l)
    · rw [effectOf_req_of_ne _ h0, State.advance_link]; exact .inl (s.sendRequest_wire k l)
  | rxev k b => exact .inl (s.pushByte_wire k l .rx b)
  | txrdy k =>
    by_cases hk : l = k
    · subst hk
      exact (s.transmitReady_wire_cases l).imp id fun h => ⟨rfl, h⟩
    · exact .inl (congrArg Link.wire (s.transmitReady_link_ne hk))
  | txdone k => exact .inl (s.completeLink_wire k l)
  | avl | rxpk | chk | stat => exact .inl rfl

/-- Settles O46: readings and wires of the next state are those of the effect. -/
theorem outputsOnlyGrow : Obligations.OutputsOnlyGrow := by
  intro s t i h
  rw [h.eq_effect (f := State.readings) fun _ => rfl]
  refine ⟨effectOf_readings_cases s i, fun l => ?_⟩
  rw [h.eq_effect (f := fun u => u.link l) fun _ => rfl]
  exact effectOf_wire_cases s i l

end Sys2Proof.Machine
end

section
/-! Reset (R39, R230, R231), the fetch (R33) and the end of a run (R216). -/

namespace Sys2Proof.Machine

/-! The reset state. -/

variable (cfg : Config) (trace : List Word) (env : List Move) (draw : Nat)

@[simp] theorem State.resetWith_link (l : LinkNo) : (State.resetWith cfg trace env draw).link l = Link.init := by
  simp [State.resetWith, State.link]

@[simp] theorem State.resetWith_ring (l : LinkNo) (r : Dir) :
    (State.resetWith cfg trace env draw).ring l r = Ring.init := by
  cases r <;> simp [State.ring] <;> rfl

@[simp] theorem State.resetWith_avail (l : LinkNo) (r : Dir) :
    (State.resetWith cfg trace env draw).avail l r = 0 := by
  simp [State.avail]

theorem State.resetWith_inv : (State.resetWith cfg trace env draw).Inv where
  indices l r := by rw [State.resetWith_ring]; exact Ring.init_ok (Config.N_pos _)
  absent l _ := State.resetWith_link cfg trace env draw l
  canonical := rfl
  inside := nofun
  position := Nat.zero_le _
  emitted := nofun

theorem State.resetWith_tidy : (State.resetWith cfg trace env draw).Tidy := by
  intro l r k hk
  rw [State.resetWith_avail] at hk
  exact absurd hk (Nat.not_lt_zero k)

/-- Settles O2: at reset every ring is empty with both indices 0, storage and readings are empty, and tp is 0. -/
theorem resetMeetsInvariants : Obligations.ResetMeetsInvariants := fun cfg trace env draw =>
  ⟨State.resetWith_inv cfg trace env draw, State.resetWith_tidy cfg trace env draw⟩

/-- Every reset state, reset as a step included, is `State.resetWith` of some parameters (R230). -/
theorem exists_resetWith {s : State}
    (h : (∃ cfg trace env draw, s = State.resetWith cfg trace env draw) ∨ ∃ u, s = resetStep u) :
    ∃ cfg trace env draw, s = State.resetWith cfg trace env draw := by
  rcases h with h | ⟨u, h⟩
  · exact h
  · exact ⟨_, _, _, _, h⟩

/-- Settles O1: every link of a reset state is `Link.init`, and no byte of storage is listed. -/
theorem resetLeavesRuleValues : Obligations.ResetLeavesRuleValues := by
  intro s h
  obtain ⟨cfg, trace, env, draw, rfl⟩ := exists_resetWith h
  refine ⟨fun l r _ => ?_, fun l _ => ?_, rfl, rfl, rfl, fun a _ => rfl, fun l b => ?_, fun l => ?_⟩
  · rw [State.resetWith_ring]
    exact ⟨rfl, rfl⟩
  · rw [State.resetWith_link]
    exact ⟨rfl, rfl, rfl, rfl⟩
  · exact decide_eq_true_iff
  · simp [Move.enabled, Link.init]

/-! The next word (R33, R206). -/

theorem openStep_host {s : State} {ms : List Move} (henv : s.env = .host :: ms)
    (hword : s.tp < s.trace.length) : openStep s = hostStep { s with env := ms } := by
  simp [openStep, henv, nextMove, Move.enabled, hword, performMove]

/-- Settles O11: the host's step runs the decoded word, and is the step where the host moves first. -/
theorem stepRunsDecodedWord : Obligations.StepRunsDecodedWord := by
  intro s w i hw hi
  refine ⟨fun hs => ?_, fun ms hs henv => ?_⟩
  · rw [step, hs]
    exact hostStep_eq_exec s hw hi
  · rw [step, hs]
    exact (openStep_host henv (List.getElem?_eq_some_iff.1 hw).1).trans
      (hostStep_eq_exec { s with env := ms } hw hi)

/-! The end of a run (R216). -/

theorem exec_ne_fault (i : Instr) (s : State) (f : Fault) : exec i s ≠ .fault f := by
  rw [exec_eq]
  unfold whenLegal
  cases i.refusal s.cfg <;> nofun

theorem hostStep_fault_iff (s : State) : hostStep s = .fault .runEnded ↔ s.trace.length ≤ s.tp := by
  rw [← List.getElem?_eq_none_iff]
  cases hw : s.trace[s.tp]? with
  | none => simp [hostStep, hw]
  | some w =>
    cases hi : decode s.cfg w with
    | error why => simp [hostStep, hw, hi, raiseIllegal]
    | ok i => simp [hostStep_eq_exec s hw hi, exec_ne_fault]

theorem performMove_fault_iff (m : Move) (s : State) :
    performMove m s = .fault .runEnded ↔ m = .host ∧ s.trace.length ≤ s.tp := by
  cases m with
  | host => simpa [performMove] using hostStep_fault_iff s
  | _ => simp [performMove]

/-- With no word left, the host moves exactly when no listed move is enabled. -/
theorem nextMove_eq_host_iff {s : State} (hend : s.trace.length ≤ s.tp) (ms : List Move) :
    (nextMove s ms).1 = .host ↔ ∀ m ∈ ms, m.enabled s = false := by
  induction ms with
  | nil => simp [nextMove]
  | cons m ms ih =>
    unfold nextMove
    cases hm : m.enabled s with
    | false => simpa [hm] using ih
    | true =>
      have hne : m ≠ .host := by
        rintro rfl
        exact Nat.not_lt.2 hend (of_decide_eq_true hm)
      simp [hm, hne]

/-- Settles O13: a move ends the run only if it is the host's with no word left, and then it was chosen for want of an event. -/
theorem runEndsWithTheTrace : Obligations.RunEndsWithTheTrace := by
  intro s
  unfold step
  cases hs : s.cfg.semantics with
  | closed => simp [hostStep_fault_iff]
  | concurrent =>
    simp only [openStep, performMove_fault_iff, reduceCtorEq, false_or]
    rw [and_comm]
    exact and_congr_right fun hend => nextMove_eq_host_iff hend s.env

end Sys2Proof.Machine
end

section
/-! Ring storage (R50, R23): the addresses of the slots. -/

namespace Sys2Proof.Machine

theorem slotAddr_eq_of_lt {cfg : Config} (l : LinkNo) (r : Dir) {i : Nat} (h : i < cfg.N) :
    slotAddr cfg l r i = (2 * l.val + dirIndex r) * cfg.N + i := by
  rw [slotAddr, rbaddr, Nat.mod_eq_of_lt h]

/-- Settles O48: an index below N is its own remainder, so `slotAddr_lt` and `slotAddr_inj` speak of the index itself. -/
theorem ringStorageIsDisjoint : Obligations.RingStorageIsDisjoint := by
  intro cfg l k r d i j hi hj
  refine ⟨slotAddr_eq_of_lt l r hi, fun hl => slotAddr_lt hl r i, fun h => ?_⟩
  obtain ⟨hlink, hdir, hindex⟩ := slotAddr_inj h
  rw [Nat.mod_eq_of_lt hi, Nat.mod_eq_of_lt hj] at hindex
  exact ⟨hlink, hdir, hindex⟩

end Sys2Proof.Machine
end

section
/-! Encoding (R75 to R79): the decoder and the encoder undo each other, and what a word decodes as. -/

namespace Sys2Proof

variable {cfg : Config} {w : Word} {i : Instr} {op : Op}

/-! A word of a row decodes to the instruction of its fields; the word of an instruction is packed from the same fields. -/

theorem decode_eq_assemble (hfit : w &&& op.mask = op.pattern)
    (hwf : (assemble op (linkField w) (dirField w) (immField w)).WellFormed cfg) :
    decode cfg w = .ok (assemble op (linkField w) (dirField w) (immField w)) := by
  rw [decode_of_fits hfit, (Machine.refusal_none_iff _ _).2 hwf]

theorem assemble_fields_encode (i : Instr) :
    assemble i.op (linkField (encode i)) (dirField (encode i)) (immField (encode i)) = i := by
  rw [encode, linkField_packWord, dirField_packWord, immField_packWord, assemble_encode]

theorem decode_encode (h : i.WellFormed cfg) : decode cfg (encode i) = .ok i := by
  have hdec := decode_eq_assemble (cfg := cfg) (encode_fits i)
  rw [assemble_fields_encode] at hdec
  exact hdec h

/-- Settles O5: the fields unpacked from the word of an instruction assemble to that instruction. -/
theorem decodeOfEncode : Obligations.DecodeOfEncode := fun _ _ => decode_encode

/-- Row by row, the bits an operation ignores are bits its mask fixes, so no bit of the word is lost (R78). -/
theorem encode_assemble (hfit : w &&& op.mask = op.pattern) :
    encode (assemble op (linkField w) (dirField w) (immField w)) = w := by
  obtain ⟨hop, hdir, himm⟩ := (fits_iff op w).1 hfit
  rw [encode, assemble_op, assemble_link, assemble_dirBit hdir, assemble_imm himm, ← hop, packWord_fields]

/-- Settles O6: a word that decodes fits the row of its instruction, which is assembled from the word's fields. -/
theorem encodeOfDecode : Obligations.EncodeOfDecode := by
  intro cfg w i h
  obtain ⟨hfit, hi, hwf⟩ := decode_inv h
  refine ⟨?_, hwf⟩
  rw [hi]
  exact encode_assemble hfit

/-! The word as shifts and ors (R75). -/

theorem setWidth_append_eq_or {m n : Nat} (k : Nat) (x : BitVec m) (y : BitVec n) :
    (x ++ y).setWidth k = (x.setWidth k <<< n) ||| y.setWidth k := by
  ext j hj
  by_cases hn : j < n
  · simp [BitVec.getLsbD_append, hn]
  · have hy : y.getLsbD j = false := BitVec.getLsbD_of_ge y j (Nat.le_of_not_lt hn)
    simp [BitVec.getLsbD_append, hn, hy]

theorem packWord_eq_or (o : BitVec 4) (l : LinkNo) (r : BitVec 1) (imm : BitVec 9) :
    packWord o l r imm = (o.setWidth 16 <<< 12) ||| (BitVec.ofNat 16 l.val <<< 10) |||
      (r.setWidth 16 <<< 9) ||| imm.setWidth 16 := by
  have hl : (BitVec.ofNat 2 l.val).setWidth 16 = BitVec.ofNat 16 l.val := by revert l; decide
  calc packWord o l r imm = (o ++ (BitVec.ofNat 2 l.val ++ (r ++ imm))).setWidth 16 := (BitVec.setWidth_eq _).symm
    _ = _ := by
      rw [setWidth_append_eq_or, setWidth_append_eq_or, setWidth_append_eq_or, hl, BitVec.or_assoc, BitVec.or_assoc]

/-- Settles O7: the word of an instruction is its four fields packed. -/
theorem wordPacksItsFields : Obligations.WordPacksItsFields := fun i =>
  packWord_eq_or i.op.code i.link i.dirBit i.imm

/-! What a word decodes as (R78, R79). -/

theorem exists_decode_iff :
    (∃ i, decode cfg w = .ok i ∧ i.op = op) ↔ w &&& op.mask = op.pattern ∧
      (assemble op (linkField w) (dirField w) (immField w)).WellFormed cfg := by
  constructor
  · rintro ⟨i, hdec, rfl⟩
    obtain ⟨hfit, hi, hwf⟩ := decode_inv hdec
    exact ⟨hfit, hi ▸ hwf⟩
  · rintro ⟨hfit, hwf⟩
    exact ⟨_, decode_eq_assemble hfit hwf, assemble_op ..⟩

/-- Settles O8: a word of the row decodes when the instruction of its fields is well-formed, which its operation and link decide. -/
theorem matchMaskDecidesLegality : Obligations.MatchMaskDecidesLegality := by
  intro cfg w op
  rw [exists_decode_iff, Instr.WellFormed, assemble_op, assemble_link, linkBits]
  simp only [ne_eq, Fin.val_eq_zero_iff]

/-- Settles O10: six words are those of well-formed instructions; 0x2300 has its direction bit set, and 0x8000 is SSTEP on link 0. -/
theorem sampleWordsDecode : Obligations.SampleWordsDecode :=
  ⟨decode_encode (i := .rinit 1 .tx) (by decide), decode_encode (i := .txw 0 0x35) (by decide),
    decode_encode (i := .rxpk 1 511) (by decide), decode_encode (i := .req 0) (by decide),
    decode_encode (i := .rxev 1 0xFF) (by decide), decode_encode (i := .txrdy 2) (by decide),
    rfl, decode_of_fits (op := .sstep) (by decide)⟩

/-! The first check of R79 that fails. -/

theorem refusal_linkNotConfigured (h : cfg.K < i.link.val) : i.refusal cfg = some .linkNotConfigured := by
  simp [Instr.refusal, h]

theorem refusal_linkNotSensor (hop : i.op.needsSensor = true) (h0 : i.link = 0) :
    i.refusal cfg = some .linkNotSensor := by
  simp [Instr.refusal, hop, h0]

theorem Op.needsSensor_eq_false_of_isEvent (h : op.isEvent = true) : op.needsSensor = false := by
  cases op with
  | sstep | drain => cases h
  | _ => rfl

theorem refusal_eventInHostProgram (hlink : i.link.val ≤ cfg.K) (hop : i.op.isEvent = true)
    (hsem : cfg.semantics = .concurrent) : i.refusal cfg = some .eventInHostProgram := by
  simp [Instr.refusal, hlink, Op.needsSensor_eq_false_of_isEvent hop, hop, hsem]

end Sys2Proof

namespace Sys2Proof.Machine

theorem exec_refused {i : Instr} {s : State} {why : RefusalReason} (h : i.refusal s.cfg = some why) :
    exec i s = .refused (.illegalCommand (encode i) s.tp why) := by
  simp [exec_eq, whenLegal, h, raiseIllegal]

/-- Settles O14: a meaning raises the first check that fails; an event is never one of the operations that need a sensor link. -/
theorem execRefusesInadmissible : Obligations.ExecRefusesInadmissible := fun _ _ =>
  ⟨fun hK => exec_refused (refusal_linkNotConfigured hK),
    fun _ hop h0 => exec_refused (refusal_linkNotSensor hop h0),
    fun hlink hop hsem => exec_refused (refusal_eventInHostProgram hlink hop hsem)⟩

end Sys2Proof.Machine
end

section
/-! The transmit stream of a link (R107, R60 (a)): the bytes it has sent followed by those it holds. A word or event leaves it, or appends the bytes it queues that fit. -/

namespace Sys2Proof.Machine

/-! Contents as a list (R27): what a bound of N - 1 leaves of them, their oldest byte, and when an effect leaves them. -/

theorem State.contents_append_take (s : State) (l : LinkNo) (r : Dir) (bs : List Byte) :
    (s.contents l r ++ bs).take (s.cfg.N - 1) = s.contents l r ++ bs.take (s.free l r) := by
  have hlt := s.avail_lt l r
  rw [List.take_append, s.contents_length, List.take_of_length_le (by rw [s.contents_length]; omega)]
  rfl

theorem State.contents_eq_cons {s : State} {l : LinkNo} {r : Dir} (h : 0 < s.avail l r) :
    s.contents l r = s.readSlot l r (s.ring l r).tail :: (s.contents l r).drop 1 := by
  have hlen : 0 < (s.contents l r).length := by rwa [s.contents_length]
  calc s.contents l r = (s.contents l r)[0] :: (s.contents l r).drop 1 := List.drop_eq_getElem_cons hlen
    _ = _ := by rw [State.contents_getElem, Nat.add_zero]

theorem Ring.eq_of_indices {q p : Ring} (hh : q.head = p.head) (ht : q.tail = p.tail) : q = p := by
  cases q; cases p; cases hh; cases ht; rfl

/-- An instruction that moves neither index of a ring and writes no storage leaves its contents. -/
theorem effectOf_contents {s : State} {i : Instr} {l : LinkNo} {r : Dir} (hinit : i ≠ .rinit l r)
    (hp : ¬Produces i r) (hc : ¬Consumes i r) (hw : ¬(i.op = .rxev ∨ i.op = .txw ∨ i.op = .req)) :
    (effectOf i s).contents l r = s.contents l r := by
  have hring : (effectOf i s).ring l r = s.ring l r :=
    Ring.eq_of_indices (effectOf_head s hinit hp) (effectOf_tail s hinit hc)
  exact State.contents_congr (effectOf_sameParams s i).1 hring fun _ => effectOf_readByte s hw _

theorem State.sendRequest_contents_ne (s : State) {l k : LinkNo} {d : Dir} (h : ¬(k = l ∧ d = .tx)) :
    (s.sendRequest l).contents k d = s.contents k d := by
  rw [State.sendRequest_contents, State.pushBytes_contents_ne _ _ h]

theorem State.sendRequest_contents_same {s : State} {l : LinkNo} (h : (s.ring l .tx).Ok s.cfg.N) :
    (s.sendRequest l).contents l .tx = s.contents l .tx ++ reqFrame.take (s.free l .tx) := by
  rw [State.sendRequest_contents, State.pushBytes_contents _ _ h, State.contents_append_take]

/-- Requests on links that are all different bring each of those links one frame (R192). -/
theorem State.requests_contents {s : State} {l : LinkNo} (h : (s.ring l .tx).Ok s.cfg.N) {ls : List LinkNo}
    (hls : ls.Nodup) :
    (ls.foldl (fun t k => t.sendRequest k) s).contents l .tx =
      s.contents l .tx ++ (if l ∈ ls then reqFrame.take (s.free l .tx) else []) := by
  induction ls generalizing s with
  | nil => simp
  | cons k ls ih =>
    obtain ⟨hk, hls⟩ := List.nodup_cons.1 hls
    have hok : ((s.sendRequest k).ring l .tx).Ok (s.sendRequest k).cfg.N := by
      rw [State.sendRequest_cfg, State.sendRequest_ring]
      exact s.pushBytes_ok _ h
    rw [List.foldl_cons, ih hok hls]
    by_cases hlk : l = k
    · subst hlk
      simp [hk, State.sendRequest_contents_same h]
    · have hkeep : (s.sendRequest k).contents l .tx = s.contents l .tx := s.sendRequest_contents_ne (by simp [hlk])
      have hfree : (s.sendRequest k).free l .tx = s.free l .tx := by
        unfold State.free
        rw [← State.contents_length, hkeep, State.contents_length, State.sendRequest_cfg]
      simp [hlk, hkeep, hfree]

theorem State.requestAll_contents {s : State} {l : LinkNo} (h : (s.ring l .tx).Ok s.cfg.N) :
    s.requestAll.contents l .tx =
      s.contents l .tx ++ (if l ≠ 0 ∧ l.val ≤ s.cfg.K then reqFrame.take (s.free l .tx) else []) := by
  simp only [← mem_sensorLinksOf]
  exact State.requests_contents h (nodup_sensorLinksOf s.cfg)

/-! The stream. -/

/-- wire[l] followed by contents(l, TX) (R107). -/
def State.stream (s : State) (l : LinkNo) : List Byte := (s.link l).wire ++ s.contents l .tx

@[simp] theorem State.advance_stream (s : State) (l : LinkNo) : s.advance.stream l = s.stream l := by
  simp [State.stream]

theorem State.stream_congr {s t : State} {l : LinkNo} (hw : (t.link l).wire = (s.link l).wire)
    (hc : t.contents l .tx = s.contents l .tx) : t.stream l = s.stream l := by
  rw [State.stream, State.stream, hw, hc]

theorem State.stream_append {s t : State} {l : LinkNo} {bs : List Byte} (hw : (t.link l).wire = (s.link l).wire)
    (hc : t.contents l .tx = s.contents l .tx ++ bs) : t.stream l = s.stream l ++ bs := by
  rw [State.stream, State.stream, hw, hc, List.append_assoc]

/-- A transmit-ready event moves at most the oldest byte of the contents to the end of the wire (R132). -/
theorem State.transmitReady_stream {s : State} {l : LinkNo} (h : (s.ring l .tx).Ok s.cfg.N) :
    (s.transmitReady l).stream l = s.stream l := by
  rcases s.transmitReady_cases l with ⟨_, e⟩ | ⟨_, hpos, e⟩ | ⟨_, _, e⟩ <;> rw [e]
  · have hwire : (((s.consume l .tx 1).send l (s.readSlot l .tx (s.ring l .tx).tail)).link l).wire =
        (s.link l).wire ++ [s.readSlot l .tx (s.ring l .tx).tail] := by simp [State.send]
    rw [State.stream, hwire, State.send_contents, State.consume_contents h hpos, List.append_assoc,
      List.singleton_append, ← State.contents_eq_cons hpos, State.stream]
  · exact State.stream_congr (by simp [State.disarmLink]) (s.disarmLink_contents l l .tx)

theorem State.transmitReady_stream_ne (s : State) {l k : LinkNo} (hk : k ≠ l) :
    (s.transmitReady l).stream k = s.stream k :=
  State.stream_congr (congrArg Link.wire (s.transmitReady_link_ne hk))
    (State.contents_congr (s.transmitReady_cfg l) (s.transmitReady_ring_ne (by simp [hk]))
      fun _ => s.transmitReady_readByte l _)

theorem offeredBytes_eq_nil {i : Instr} (l : LinkNo) (hp : ¬Produces i .tx) : offeredBytes l i = [] := by
  cases i with
  | txw k b => exact absurd (.inl rfl) hp
  | req k => exact absurd (.inr rfl) hp
  | _ => rfl

/-- An instruction that queues nothing and is not RINIT of the ring leaves the stream as it was. -/
theorem effectOf_stream_of_not_produces {s : State} {i : Instr} {l : LinkNo} (h : (s.ring l .tx).Ok s.cfg.N)
    (hinit : i ≠ .rinit l .tx) (hp : ¬Produces i .tx) : (effectOf i s).stream l = s.stream l := by
  cases i with
  | txrdy k =>
    by_cases hk : l = k
    · subst hk
      exact (State.advance_stream _ l).trans (State.transmitReady_stream h)
    · exact (State.advance_stream _ l).trans (s.transmitReady_stream_ne hk)
  | rxev k b =>
    exact (State.advance_stream _ l).trans
      (State.stream_congr (s.pushByte_wire k l .rx b) (State.pushByte_contents_ne b (by simp)))
  | txw k b => exact absurd (.inl rfl) hp
  | req k => exact absurd (.inr rfl) hp
  | _ =>
    refine State.stream_congr ((effectOf_wire_cases s _ l).resolve_right (by simp)) ?_
    exact effectOf_contents hinit hp (by simp [Consumes, Instr.op]) (by simp [Instr.op])

theorem effectOf_txw_stream {s : State} {k l : LinkNo} (b : Byte) (h : (s.ring l .tx).Ok s.cfg.N) :
    (effectOf (.txw k b) s).stream l = s.stream l ++ (offeredBytes l (.txw k b)).take (s.free l .tx) := by
  refine State.stream_append (s.pushByte_wire k l .tx b) ((State.advance_contents _ l .tx).trans ?_)
  by_cases hk : k = l
  · subst hk
    rw [State.pushByte_contents b h, State.contents_append_take]
    simp [offeredBytes]
  · rw [State.pushByte_contents_ne b (by simp [Ne.symm hk])]
    simp [offeredBytes, hk]

theorem effectOf_req_stream {s : State} {k l : LinkNo} (hlegal : k.val ≤ s.cfg.K) (h : (s.ring l .tx).Ok s.cfg.N) :
    (effectOf (.req k) s).stream l =
      s.stream l ++ (if l.val ≤ s.cfg.K then (offeredBytes l (.req k)).take (s.free l .tx) else []) := by
  by_cases h0 : k = 0
  · subst h0
    refine State.stream_append (s.requestAll_wire l) ?_
    rw [effectOf_req_zero, State.advance_contents, State.requestAll_contents h]
    by_cases hl0 : l = 0 <;> simp [offeredBytes, hl0]
  · rw [effectOf_req_of_ne s h0, State.advance_stream]
    refine State.stream_append (s.sendRequest_wire k l) ?_
    by_cases hk : k = l
    · subst hk
      rw [State.sendRequest_contents_same h]
      simp [offeredBytes, h0, hlegal]
    · rw [s.sendRequest_contents_ne (by simp [Ne.symm hk])]
      simp [offeredBytes, h0, hk]

/-- The effect of an instruction on the stream: the bytes it offers, as many as are free. An event offers none, so it needs no
configured link. -/
theorem effectOf_stream {s : State} {i : Instr} {l : LinkNo} (hlegal : i.WellFormed s.cfg ∨ i.op.isEvent = true)
    (h : (s.ring l .tx).Ok s.cfg.N) (hinit : i ≠ .rinit l .tx) :
    (effectOf i s).stream l =
      s.stream l ++ (if l.val ≤ s.cfg.K then (offeredBytes l i).take (s.free l .tx) else []) := by
  by_cases hp : Produces i .tx
  · cases i with
    | txw k b =>
      obtain ⟨hk, -⟩ := hlegal.resolve_right nofun
      rw [effectOf_txw_stream b h]
      by_cases hkl : k = l
      · rw [if_pos (hkl ▸ hk)]
      · simp [offeredBytes, hkl]
    | req k => exact effectOf_req_stream (hlegal.resolve_right nofun).1 h
    | _ => simp [Produces, Instr.op] at hp
  · rw [effectOf_stream_of_not_produces h hinit hp, offeredBytes_eq_nil l hp, List.take_nil, ite_self,
      List.append_nil]

/-- Settles O52: the stream does not see tp, so a word and a move alike give that of the effect. -/
theorem transmitStreamIsQueuedBytes : Obligations.TransmitStreamIsQueuedBytes := by
  intro s t i l h hinit ht
  have hlegal : i.WellFormed s.cfg ∨ i.op.isEvent = true := ht.cases.imp And.left And.left
  exact (ht.eq_effect (f := fun u => u.stream l) fun u => u.advance_stream l).trans (effectOf_stream hlegal h hinit)

end Sys2Proof.Machine
end

section
/-! The ring buffer commands (spec/40_ring_buffer.md): for each shared operation the frame of its effect, said once, then the commands. -/

namespace Sys2Proof.Machine

variable (s : State)

/-! Frames of the shared operations, with tp moved to the next word (R33). -/

theorem State.setRing_advance_frame (l : LinkNo) (r : Dir) (q : Ring) :
    SameRingsBut l r s (s.setRing l r q).advance ∧ SameBytes s (s.setRing l r q).advance ∧
      SameFlags s (s.setRing l r q).advance ∧ SameWires s (s.setRing l r q).advance ∧
      SameReadings s (s.setRing l r q).advance ∧ SameRes s (s.setRing l r q).advance ∧
      NextPosition s (s.setRing l r q).advance ∧ SameParams s (s.setRing l r q).advance :=
  ⟨fun _ _ h => s.setRing_ring_ne q h, fun _ => rfl, fun k => ⟨s.setRing_txarm l k r q, s.setRing_txc l k r q⟩,
    fun k => s.setRing_wire l k r q, rfl, rfl, rfl, .refl s⟩

theorem State.setRes_advance_frame (v : Word) :
    SameRings s (s.setRes v).advance ∧ SameBytes s (s.setRes v).advance ∧ SameFlags s (s.setRes v).advance ∧
      SameWires s (s.setRes v).advance ∧ SameReadings s (s.setRes v).advance ∧
      NextPosition s (s.setRes v).advance ∧ SameParams s (s.setRes v).advance :=
  ⟨fun _ _ => rfl, fun _ => rfl, fun _ => ⟨rfl, rfl⟩, fun _ => rfl, rfl, rfl, .refl s⟩

theorem State.pushByte_advance_frame (l : LinkNo) (r : Dir) (b : Byte) :
    SameFlags s (s.pushByte l r b).advance ∧ SameWires s (s.pushByte l r b).advance ∧
      SameReadings s (s.pushByte l r b).advance ∧ SameRes s (s.pushByte l r b).advance ∧
      NextPosition s (s.pushByte l r b).advance ∧ SameParams s (s.pushByte l r b).advance :=
  ⟨fun k => ⟨s.pushByte_txarm l k r b, s.pushByte_txc l k r b⟩, fun k => s.pushByte_wire l k r b,
    s.pushByte_readings l r b, s.pushByte_res l r b, congrArg (· + 1) (s.pushByte_tp l r b),
    (s.pushByte_sameParams l r b).advance⟩

theorem State.readIntoRes_advance_frame (l : LinkNo) :
    SameBytes s (s.readIntoRes l).advance ∧ SameFlags s (s.readIntoRes l).advance ∧
      SameWires s (s.readIntoRes l).advance ∧ SameReadings s (s.readIntoRes l).advance ∧
      NextPosition s (s.readIntoRes l).advance ∧ SameParams s (s.readIntoRes l).advance :=
  ⟨s.readIntoRes_readByte l, fun k => ⟨s.readIntoRes_txarm l k, s.readIntoRes_txc l k⟩, s.readIntoRes_wire l,
    s.readIntoRes_readings l, congrArg (· + 1) (s.readIntoRes_tp l), (s.readIntoRes_sameParams l).advance⟩

/-! Full, empty and avail as the rules write them (R13). -/

theorem State.full_eq_true_iff (l : LinkNo) (r : Dir) :
    s.full l r = true ↔ ((s.ring l r).head + 1) % s.cfg.N = (s.ring l r).tail := beq_iff_eq

theorem State.empty_eq_true_iff (l : LinkNo) (r : Dir) :
    s.empty l r = true ↔ (s.ring l r).head = (s.ring l r).tail := beq_iff_eq

theorem State.avail_cast (l : LinkNo) (r : Dir) :
    (s.avail l r : Int) = (((s.ring l r).head : Int) - (s.ring l r).tail) % s.cfg.N :=
  Int.toNat_of_nonneg (Int.emod_nonneg _ (Int.natCast_ne_zero.2 s.cfg.N_pos.ne'))

/-! What a push, a read and a peek do, as the rules write them. -/

/-- A push stores at head and advances head, or drops the byte when the ring is full (R101, R130). -/
theorem State.pushByte_stores_or_drops (l : LinkNo) (r : Dir) (b : Byte) :
    if ((s.ring l r).head + 1) % s.cfg.N = (s.ring l r).tail then
      SameRings s (s.pushByte l r b) ∧ SameBytes s (s.pushByte l r b)
    else
      ((s.pushByte l r b).ring l r).head = ((s.ring l r).head + 1) % s.cfg.N ∧
      ((s.pushByte l r b).ring l r).tail = (s.ring l r).tail ∧ SameRingsBut l r s (s.pushByte l r b) ∧
      (s.pushByte l r b).readByte (slotAddr s.cfg l r (s.ring l r).head) = b ∧
      SameBytesBut [slotAddr s.cfg l r (s.ring l r).head] s (s.pushByte l r b) := by
  split
  · next hfull =>
    rw [s.pushByte_full b ((s.full_eq_true_iff l r).2 hfull)]
    exact ⟨fun _ _ => rfl, fun _ => rfl⟩
  · next hroom =>
    have hpush := s.pushByte_room b (Bool.eq_false_iff.2 (mt (s.full_eq_true_iff l r).1 hroom))
    refine ⟨?_, s.pushByte_tail l l r r b, fun _ _ h => s.pushByte_ring_ne b h, ?_, fun a ha => ?_⟩
    · rw [hpush, State.setRing_ring_same]; rfl
    · rw [hpush, State.setRing_readByte, State.writeByte_readByte_same]
    · exact s.pushByte_readByte_ne b (List.ne_of_not_mem_cons ha)

/-- A read delivers the byte at tail and consumes it, or the sentinel zero when the ring is empty (R102). -/
theorem State.readIntoRes_reads_or_sentinel (l : LinkNo) :
    if (s.ring l .rx).head = (s.ring l .rx).tail then (s.readIntoRes l).res = 0 ∧ SameRings s (s.readIntoRes l)
    else
      (s.readIntoRes l).res = (s.readByte (slotAddr s.cfg l .rx (s.ring l .rx).tail)).setWidth 16 ∧
      ((s.readIntoRes l).ring l .rx).head = (s.ring l .rx).head ∧
      ((s.readIntoRes l).ring l .rx).tail = ((s.ring l .rx).tail + 1) % s.cfg.N ∧
      SameRingsBut l .rx s (s.readIntoRes l) := by
  rcases s.readIntoRes_cases l with ⟨he, h⟩ | ⟨he, h⟩
  · rw [if_pos ((s.empty_eq_true_iff l .rx).1 he), h]
    exact ⟨rfl, fun _ _ => rfl⟩
  · rw [if_neg (mt (s.empty_eq_true_iff l .rx).2 (Bool.eq_false_iff.1 he))]
    refine ⟨?_, s.readIntoRes_head l l .rx, ?_, fun _ _ hk => s.readIntoRes_ring_ne hk⟩
    · rw [h]; rfl
    · rw [h, State.setRes_ring, State.consume_ring_same]; rfl

/-- A peek is the byte d places after tail, or zero when d is at least avail (R104). -/
theorem State.zext16_peek (l : LinkNo) (d : Nat) :
    zext16 (s.peek l d) =
      if (((s.ring l .rx).head : Int) - (s.ring l .rx).tail) % s.cfg.N ≤ d then 0
      else (s.readByte (slotAddr s.cfg l .rx ((s.ring l .rx).tail + d))).setWidth 16 := by
  rw [← s.avail_cast l .rx]
  simp only [State.peek, Int.ofNat_le]
  split <;> rfl

/-! Operands in the word (R75, R76). -/

theorem encode_imm_field (i : Instr) : (encode i).extractLsb' 0 9 = i.imm := immField_packWord _ _ _ _

theorem extract_byte_eq_byteOperand (w : Word) : w.extractLsb' 0 8 = byteOperand (immField w) := by
  apply BitVec.eq_of_toNat_eq
  simp only [byteOperand, BitVec.extractLsb'_toNat, Nat.shiftRight_zero, immField_toNat]
  exact (Nat.mod_mod_of_dvd w.toNat (by decide)).symm

/-- The byte operand of TXW and of RXEV stands in bits 7:0 of the word. -/
theorem encode_byte_field {i : Instr} {b : Byte} (hi : i.imm = b.setWidth 9) : (encode i).extractLsb' 0 8 = b := by
  rw [extract_byte_eq_byteOperand, encode, immField_packWord, hi, byteOperand_setWidth]

/-! The commands. -/

/-- Settles O16: RINIT replaces one ring by the initial one, which holds nothing. -/
theorem rinitResetsIndices : Obligations.RinitResetsIndices := by
  intro s l r
  refine ⟨encode_fits (.rinit l r), fun hlegal => ⟨_, exec_next hlegal, ?_⟩⟩
  have hring : (effectOf (.rinit l r) s).ring l r = Ring.init := s.setRing_ring_same l r Ring.init
  have havail : (effectOf (.rinit l r) s).avail l r = 0 := by rw [State.avail, hring, Ring.avail_init]
  refine ⟨congrArg Ring.head hring, congrArg Ring.tail hring, ?_, s.setRing_advance_frame l r Ring.init⟩
  rw [← List.length_eq_zero_iff, State.contents_length, havail]

/-- Settles O17: TXW is a push on the transmit ring. -/
theorem txwStoresOrDrops : Obligations.TxwStoresOrDrops := by
  intro s l b
  refine ⟨encode_fits (.txw l b), encode_byte_field rfl, fun hlegal => ⟨_, exec_next hlegal, ?_⟩⟩
  exact ⟨s.pushByte_stores_or_drops l .tx b, s.pushByte_advance_frame l .tx b⟩

/-- Settles O18: RXRD is a read into res. -/
theorem rxrdReadsOrGivesSentinel : Obligations.RxrdReadsOrGivesSentinel := by
  intro s l
  refine ⟨encode_fits (.rxrd l), fun hlegal => ⟨_, exec_next hlegal, ?_⟩⟩
  exact ⟨s.readIntoRes_reads_or_sentinel l, s.readIntoRes_advance_frame l⟩

/-- Settles O19: the count is below N, which is at most 2 ^ 16, so 16 bits hold it. -/
theorem avlCountsTheRing : Obligations.AvlCountsTheRing := by
  intro s l r
  refine ⟨encode_fits (.avl l r), fun hlegal => ⟨_, exec_next hlegal, ?_⟩⟩
  have hlt := s.avail_lt l r
  have hN := s.cfg.N_le
  have hres : (effectOf (.avl l r) s).res.toNat = s.avail l r :=
    (BitVec.toNat_ofNat ..).trans (Nat.mod_eq_of_lt (by omega))
  rw [hres]
  exact ⟨s.avail_cast l r, Nat.le_sub_one_of_lt hlt, s.setRes_advance_frame _⟩

/-- Settles O20: RXPK puts a peek into res and nothing else. -/
theorem rxpkPeeksWithoutConsuming : Obligations.RxpkPeeksWithoutConsuming := by
  intro s l d
  refine ⟨encode_fits (.rxpk l d), encode_imm_field (.rxpk l d), fun hlegal => ⟨_, exec_next hlegal, ?_⟩⟩
  exact ⟨s.zext16_peek l d.toNat, s.setRes_advance_frame _⟩

/-- Settles O21: RXDS replaces the receive ring by the same one with tail moved. -/
theorem rxdsMovesTailUnchecked : Obligations.RxdsMovesTailUnchecked := by
  intro s l n
  refine ⟨encode_fits (.rxds l n), encode_imm_field (.rxds l n), fun hlegal => ⟨_, exec_next hlegal, ?_⟩⟩
  have hring : (effectOf (.rxds l n) s).ring l .rx = (s.ring l .rx).consume s.cfg.N n.toNat :=
    s.consume_ring_same l .rx n.toNat
  exact ⟨congrArg Ring.tail hring, (congrArg Ring.head hring :), s.setRing_advance_frame l .rx _⟩

/-- Settles O51: the oldest byte is the one at tail, and consuming it drops the contents' first byte. -/
theorem readReturnsTheOldestByte : Obligations.ReadReturnsTheOldestByte := by
  intro s l b rest hlegal hok hcontents
  have hpos : 0 < s.avail l .rx := by simp [← State.contents_length, hcontents]
  have hne : s.empty l .rx ≠ true := fun he => hpos.ne' ((Ring.isEmpty_iff hok).1 he)
  obtain ⟨-, hread⟩ := (s.readIntoRes_cases l).resolve_left fun h => hne h.1
  obtain ⟨hbyte, hrest⟩ := List.cons.inj (hcontents.symm.trans (State.contents_eq_cons hpos))
  refine ⟨_, exec_next hlegal, ?_, ?_, fun k d hk => ?_⟩
  · show (s.readIntoRes l).res = _
    rw [hread, hbyte]
    rfl
  · show (s.readIntoRes l).advance.contents l .rx = rest
    rw [hread, State.advance_contents, State.setRes_contents, State.consume_contents hok hpos, ← hrest]
  · show (s.readIntoRes l).advance.contents k d = _
    rw [hread, State.advance_contents, State.setRes_contents, State.consume_contents_ne hk]

end Sys2Proof.Machine
end

section
/-! Bursts on one ring (R106, R108): the words of WRS and of RXS push their bytes one after another. -/

namespace Sys2Proof.Machine

/-- The same state at another position of the trace. -/
def State.withPosition (s : State) (n : Nat) : State := { s with tp := n }

@[simp] theorem State.withPosition_contents (s : State) (n : Nat) (l : LinkNo) (r : Dir) :
    (s.withPosition n).contents l r = s.contents l r := State.contents_congr rfl rfl fun _ => rfl

theorem State.advance_pushByte (s : State) (l : LinkNo) (r : Dir) (b : Byte) :
    s.advance.pushByte l r b = (s.pushByte l r b).advance := by
  cases hf : s.full l r with
  | true => rw [s.pushByte_full b hf, s.advance.pushByte_full b hf]
  | false => rw [s.pushByte_room b hf, s.advance.pushByte_room b hf]; rfl

theorem execAll_cons {i : Instr} {is : List Instr} {s t : State} (h : exec i s = .next t) :
    execAll (i :: is) s = execAll is t := by
  simp [execAll, h]

/-- Instructions that each push their byte, in a row: all pushes, then tp moved by their number. -/
theorem execAll_pushes {cfg : Config} {l : LinkNo} {r : Dir} {f : Byte → Instr}
    (hf : ∀ b u, u.cfg = cfg → exec (f b) u = .next (u.pushByte l r b).advance) (bs : List Byte) {s : State}
    (hs : s.cfg = cfg) :
    execAll (bs.map f) s =
      .next ((bs.foldl (fun u b => u.pushByte l r b) s).withPosition (s.tp + bs.length)) := by
  induction bs generalizing s with
  | nil => rfl
  | cons b bs ih =>
    have hfold : bs.foldl (fun u b => u.pushByte l r b) (s.pushByte l r b).advance =
        (bs.foldl (fun u b => u.pushByte l r b) (s.pushByte l r b)).advance :=
      List.foldl_hom State.advance fun u b => u.advance_pushByte l r b
    have htp : (s.pushByte l r b).advance.tp + bs.length = s.tp + (b :: bs).length := by
      simp only [State.advance_tp, State.pushByte_tp, List.length_cons]; omega
    rw [List.map_cons, execAll_cons (hf b s hs),
      ih (s := (s.pushByte l r b).advance) ((s.pushByte_cfg l r b).trans hs), hfold, htp]
    rfl

/-- Settles O49: each TXW of the expansion is legal, so the words are pushes, of which the free slots take the first. -/
theorem wrsStoresWhatFits : Obligations.WrsStoresWhatFits := by
  intro s l bs hl hok
  have hword : ∀ b u, u.cfg = s.cfg → exec (.txw l b) u = .next (u.pushByte l .tx b).advance :=
    fun b u hu => exec_next ⟨hu ▸ hl, nofun, nofun⟩
  refine ⟨_, execAll_pushes hword bs rfl, ?_, rfl, fun k => ?_, s.pushBytes_res l bs⟩
  · rw [State.withPosition_contents, State.pushes_contents bs hok, State.contents_append_take, State.free]
  · exact ⟨s.pushBytes_txarm l k bs, s.pushBytes_txc l k bs⟩

/-- Settles O50: each RXEV of the burst is legal in the closed semantics, and the ring held nothing before. -/
theorem overflowDropsTheNewest : Obligations.OverflowDropsTheNewest := by
  intro s l bs hl hclosed hok hz
  have hword : ∀ b u, u.cfg = s.cfg → exec (.rxev l b) u = .next (u.pushByte l .rx b).advance :=
    fun b u hu => exec_next ⟨hu ▸ hl, nofun, fun _ => hu ▸ hclosed⟩
  have hempty : s.contents l .rx = [] := by rw [← List.length_eq_zero_iff, State.contents_length, hz]
  have hcontents : ((bs.foldl (fun u b => u.pushByte l .rx b) s).withPosition (s.tp + bs.length)).contents l .rx =
      bs.take (s.cfg.N - 1) := by
    rw [State.withPosition_contents, State.pushes_contents bs hok, hempty, List.nil_append]
  refine ⟨_, execAll_pushes hword bs rfl, hcontents, ?_⟩
  rw [← State.contents_length, hcontents, List.length_take, Nat.min_comm]

end Sys2Proof.Machine
end

section
/-! The serial port events and link control (spec/41_serial_port.md): what an update of one link's flags or wire leaves, then the events, ARM and STAT. -/

namespace Sys2Proof.Machine

variable (s : State)

/-! Links after an update of flags (R132, R134, R136) and after a byte is sent (R32). -/

@[simp] theorem State.disarmLink_link_same (l : LinkNo) :
    (s.disarmLink l).link l = { s.link l with txarm := false } := s.modifyLink_link_same l _

@[simp] theorem State.armLink_link_same (l : LinkNo) :
    (s.armLink l).link l = { s.link l with txc := false, txarm := true } := s.modifyLink_link_same l _

@[simp] theorem State.completeLink_link_same (l : LinkNo) :
    (s.completeLink l).link l = { s.link l with txc := true } := s.modifyLink_link_same l _

@[simp] theorem State.disarmLink_wire (l k : LinkNo) : ((s.disarmLink l).link k).wire = (s.link k).wire := by
  unfold State.disarmLink
  rw [State.modifyLink_link]
  split
  · next h => subst h; rfl
  · rfl

@[simp] theorem State.send_link_same (l : LinkNo) (b : Byte) :
    (s.send l b).link l = { s.link l with wire := (s.link l).wire ++ [b] } := s.modifyLink_link_same l _

theorem State.send_sameFlags (l : LinkNo) (b : Byte) : SameFlags s (s.send l b) := by
  intro k
  unfold State.send
  rw [State.modifyLink_link]
  split
  · next h => subst h; exact ⟨rfl, rfl⟩
  · exact ⟨rfl, rfl⟩

theorem State.modifyLink_sameFlagsBut (l : LinkNo) (f : Link → Link) : SameFlagsBut l s (s.modifyLink l f) :=
  fun _ hk => ⟨congrArg Link.txarm (s.modifyLink_link_ne f hk), congrArg Link.txc (s.modifyLink_link_ne f hk)⟩

/-- An update of one link that moves no index and sends nothing, with tp moved to the next word (R33). -/
theorem State.modifyLink_advance_frame {l : LinkNo} {f : Link → Link} (hr : SameRings s (s.modifyLink l f))
    (hw : SameWires s (s.modifyLink l f)) :
    SameFlagsBut l s (s.modifyLink l f).advance ∧ SameRings s (s.modifyLink l f).advance ∧
      SameBytes s (s.modifyLink l f).advance ∧ SameWires s (s.modifyLink l f).advance ∧
      SameReadings s (s.modifyLink l f).advance ∧ SameRes s (s.modifyLink l f).advance ∧
      NextPosition s (s.modifyLink l f).advance ∧ SameParams s (s.modifyLink l f).advance :=
  ⟨s.modifyLink_sameFlagsBut l f, hr, fun _ => rfl, hw, rfl, rfl, rfl, .refl s⟩

/-! A transmit-ready event (R132). -/

theorem State.transmitReady_of_disarmed {l : LinkNo} (hoff : (s.link l).txarm = false) : s.transmitReady l = s := by
  simp [State.transmitReady, hoff]

theorem State.transmitReady_of_pos {l : LinkNo} (harm : (s.link l).txarm = true) (h : 0 < s.avail l .tx) :
    s.transmitReady l = (s.consume l .tx 1).send l (s.readSlot l .tx (s.ring l .tx).tail) := by
  simp [State.transmitReady, harm, h]

theorem State.transmitReady_of_zero {l : LinkNo} (harm : (s.link l).txarm = true) (h : s.avail l .tx = 0) :
    s.transmitReady l = s.disarmLink l := by
  simp [State.transmitReady, harm, h]

theorem State.transmitReady_masked {l : LinkNo} (hoff : (s.link l).txarm = false) :
    SameRings s (s.transmitReady l) ∧ SameFlags s (s.transmitReady l) ∧ SameWires s (s.transmitReady l) := by
  rw [s.transmitReady_of_disarmed hoff]
  exact ⟨fun _ _ => rfl, fun _ => ⟨rfl, rfl⟩, fun _ => rfl⟩

/-- While bytes are queued, an armed link sends the oldest: its wire grows, its tail moves, and no flag changes. -/
theorem State.transmitReady_sends {l : LinkNo} (harm : (s.link l).txarm = true) (h : 0 < s.avail l .tx) :
    ((s.transmitReady l).link l).wire =
        (s.link l).wire ++ [s.readByte (slotAddr s.cfg l .tx (s.ring l .tx).tail)] ∧
      ((s.transmitReady l).ring l .tx).tail = ((s.ring l .tx).tail + 1) % s.cfg.N ∧
      SameFlags s (s.transmitReady l) := by
  rw [s.transmitReady_of_pos harm h]
  refine ⟨?_, ?_, fun k => ?_⟩
  · rw [State.send_link_same, State.consume_wire]; rfl
  · rw [State.send_ring, State.consume_ring_same]; rfl
  · obtain ⟨ha, hc⟩ := State.send_sameFlags (s.consume l .tx 1) l (s.readSlot l .tx (s.ring l .tx).tail) k
    exact ⟨ha.trans (s.consume_txarm l k .tx 1), hc.trans (s.consume_txc l k .tx 1)⟩

/-- On an empty ring an armed link is disarmed, and no index, wire or other link's flag changes. -/
theorem State.transmitReady_disarms {l : LinkNo} (harm : (s.link l).txarm = true) (h : s.avail l .tx = 0) :
    ((s.transmitReady l).link l).txarm = false ∧ ((s.transmitReady l).link l).txc = (s.link l).txc ∧
      SameFlagsBut l s (s.transmitReady l) ∧ SameRings s (s.transmitReady l) ∧ SameWires s (s.transmitReady l) := by
  rw [s.transmitReady_of_zero harm h, State.disarmLink_link_same]
  exact ⟨rfl, rfl, s.modifyLink_sameFlagsBut l _, s.disarmLink_ring l, s.disarmLink_wire l⟩

theorem State.transmitReady_advance_frame (l : LinkNo) :
    SameBytes s (s.transmitReady l).advance ∧ SameReadings s (s.transmitReady l).advance ∧
      SameRes s (s.transmitReady l).advance ∧ NextPosition s (s.transmitReady l).advance ∧
      SameParams s (s.transmitReady l).advance :=
  ⟨s.transmitReady_readByte l, s.transmitReady_readings l, s.transmitReady_res l,
    congrArg (· + 1) (s.transmitReady_tp l), (s.transmitReady_sameParams l).advance⟩

/-! The link status register (R36). -/

/-- LSTAT holds txarm in bit 0, txc in bit 1 and nothing above. -/
theorem Link.lstat_bits (k : Link) :
    k.lstat.getLsbD 0 = k.txarm ∧ k.lstat.getLsbD 1 = k.txc ∧ k.lstat >>> 2 = 0 := by
  unfold Link.lstat
  generalize k.txarm = a
  generalize k.txc = c
  revert a c
  decide

/-! The events and commands. -/

/-- Settles O23: RXEV is a push on the receive ring. -/
theorem rxevStoresOrDrops : Obligations.RxevStoresOrDrops := by
  intro s l b
  refine ⟨encode_fits (.rxev l b), encode_byte_field rfl, fun hlegal => ⟨_, exec_next hlegal, ?_⟩⟩
  exact ⟨s.pushByte_stores_or_drops l .rx b, s.pushByte_advance_frame l .rx b⟩

/-- Settles O24: TXRDY is a transmit-ready event, in the three cases of `State.transmitReady_cases`. -/
theorem txrdySendsOrDisarms : Obligations.TxrdySendsOrDisarms := by
  intro s l
  refine ⟨encode_fits (.txrdy l), fun hoff => by simp [Move.enabled, hoff], fun hlegal =>
    ⟨_, exec_next hlegal, ?_, s.transmitReady_advance_frame l⟩⟩
  rw [← s.avail_cast l .tx]
  rcases s.transmitReady_cases l with ⟨hoff, -⟩ | ⟨harm, hpos, -⟩ | ⟨harm, hz, -⟩
  · rw [if_pos hoff]
    exact s.transmitReady_masked hoff
  · obtain ⟨hwire, htail, hflags⟩ := s.transmitReady_sends harm hpos
    rw [if_neg (by simp [harm]), if_pos (Int.natCast_pos.2 hpos)]
    exact ⟨hwire, htail, s.transmitReady_head l l .tx, fun _ _ hk => s.transmitReady_ring_ne hk, hflags,
      fun _ hk => congrArg Link.wire (s.transmitReady_link_ne hk)⟩
  · rw [if_neg (by simp [harm]), if_neg (by simp [hz])]
    exact s.transmitReady_disarms harm hz

/-- Settles O25: TXDONE updates the flags of one link. -/
theorem txdoneSetsTransmitComplete : Obligations.TxdoneSetsTransmitComplete := by
  intro s l
  refine ⟨encode_fits (.txdone l), fun hlegal => ⟨_, exec_next hlegal, ?_⟩⟩
  have hlink : (effectOf (.txdone l) s).link l = { s.link l with txc := true } := s.completeLink_link_same l
  exact ⟨congrArg Link.txc hlink, (congrArg Link.txarm hlink :),
    s.modifyLink_advance_frame (s.completeLink_ring l) (s.completeLink_wire l)⟩

/-- Settles O26: ARM updates the flags of one link, whatever they were. -/
theorem armClearsAndArms : Obligations.ArmClearsAndArms := by
  intro s l
  refine ⟨encode_fits (.arm l), fun hlegal => ⟨_, exec_next hlegal, ?_⟩⟩
  have hlink : (effectOf (.arm l) s).link l = { s.link l with txc := false, txarm := true } :=
    s.armLink_link_same l
  exact ⟨congrArg Link.txc hlink, congrArg Link.txarm hlink,
    s.modifyLink_advance_frame (s.armLink_ring l) (s.armLink_wire l)⟩

/-- Settles O27: STAT puts LSTAT into res and nothing else. -/
theorem statReadsLinkStatus : Obligations.StatReadsLinkStatus := by
  intro s l
  refine ⟨encode_fits (.stat l), fun hlegal => ⟨_, exec_next hlegal, ?_⟩⟩
  obtain ⟨harm, hc, hzero⟩ := (s.link l).lstat_bits
  obtain ⟨hrings, hbytes, hflags, hrest⟩ := s.setRes_advance_frame (s.link l).lstat
  exact ⟨harm, hc, hzero, hflags, hrings, hbytes, hrest⟩

end Sys2Proof.Machine
end

section
/-! A run of transmit-ready events (R132 (a)): each takes one byte from the ring, the stream of the link stands, and the event after the last byte disarms. -/

namespace Sys2Proof.Machine

/-- One byte fewer is queued after each send. -/
theorem State.transmitReady_avail {s : State} {l : LinkNo} (h : (s.ring l .tx).Ok s.cfg.N)
    (harm : (s.link l).txarm = true) (hpos : 0 < s.avail l .tx) :
    (s.transmitReady l).avail l .tx = s.avail l .tx - 1 := by
  rw [s.transmitReady_of_pos harm hpos, ← State.contents_length, State.send_contents,
    State.consume_contents h hpos, List.length_drop, State.contents_length]

/-- As many transmit-ready words as bytes are queued, and one more, leave an empty ring and a disarmed link, with the stream of the
link as it was. -/
theorem execAll_txrdy_run {k : Nat} {s : State} {l : LinkNo} (hlegal : (Instr.txrdy l).WellFormed s.cfg)
    (hok : (s.ring l .tx).Ok s.cfg.N) (harm : (s.link l).txarm = true) (hk : s.avail l .tx = k) :
    ∃ t, execAll (List.replicate (k + 1) (.txrdy l)) s = .next t ∧ t.stream l = s.stream l ∧
      t.contents l .tx = [] ∧ (t.link l).txarm = false ∧ (t.link l).txc = (s.link l).txc ∧ SameRes s t := by
  induction k generalizing s with
  | zero =>
    obtain ⟨hoff, hc, -⟩ := s.transmitReady_disarms harm hk
    refine ⟨(s.transmitReady l).advance, execAll_cons (exec_next hlegal),
      (State.advance_stream _ l).trans (State.transmitReady_stream hok), ?_, hoff, hc, s.transmitReady_res l⟩
    rw [State.advance_contents, s.transmitReady_of_zero harm hk, State.disarmLink_contents,
      ← List.length_eq_zero_iff, State.contents_length, hk]
  | succ k ih =>
    have hpos : 0 < s.avail l .tx := by omega
    have havail : (s.transmitReady l).avail l .tx = k := by
      rw [State.transmitReady_avail hok harm hpos, hk, Nat.add_sub_cancel]
    obtain ⟨-, -, hflags⟩ := s.transmitReady_sends harm hpos
    obtain ⟨harm', hc'⟩ := hflags l
    have hcfg : (s.transmitReady l).cfg = s.cfg := s.transmitReady_cfg l
    have hok' : ((s.transmitReady l).ring l .tx).Ok (s.transmitReady l).cfg.N := by
      rw [hcfg]; exact s.transmitReady_ok hok
    obtain ⟨t, hrun, hstream, hempty, hoff, hc, hres⟩ :=
      ih (s := (s.transmitReady l).advance) (hcfg ▸ hlegal) hok' (harm'.trans harm) havail
    refine ⟨t, (execAll_cons (exec_next hlegal)).trans hrun, ?_, hempty, hoff, hc.trans hc', ?_⟩
    · rw [hstream, State.advance_stream, State.transmitReady_stream hok]
    · exact hres.trans (s.transmitReady_res l)

/-- Settles O53: with the transmit ring empty at the end, the stream of the link is its wire. -/
theorem transmitReadyRunDrains : Obligations.TransmitReadyRunDrains := by
  intro s l hlegal hok harm
  obtain ⟨t, hrun, hstream, hempty, hoff, hc, hres⟩ := execAll_txrdy_run hlegal hok harm rfl
  refine ⟨t, hrun, ?_, hempty, hoff, hc, hres⟩
  rwa [State.stream, hempty, List.append_nil] at hstream

end Sys2Proof.Machine
end

section
/-! Checksum validator and frame decoder (spec/42_frame_codec.md): the checksum as a sum of bytes, whose ring laws give R155, then the decoder, and CHK. -/

namespace Sys2Proof.Machine

/-! The checksum (R150): as a number, and as the negated sum of bytes. -/

/-- Settles O28: the checksum is by definition that integer reduced to 8 bits. -/
theorem checksumIsNegatedSum : Obligations.ChecksumIsNegatedSum := by
  intro w
  rw [cks, BitVec.toNat_ofInt, Int.toNat_of_nonneg (Int.emod_nonneg _ (by decide))]
  push_cast
  rfl

/-- The bytes the checksum sums, at offsets 1 to 7 (R150). -/
def Window.summed (w : Window) : List Byte := [w.b1, w.b2, w.b3, w.b4, w.b5, w.b6, w.b7]

theorem cks_eq_neg_sum (w : Window) : cks w = -w.summed.sum := by
  rw [cks, zero_sub, BitVec.ofInt_neg, BitVec.ofInt_natCast]
  simp [BitVec.ofNat_add, Window.summed, add_assoc]

/-- Valid exactly when offsets 1 to 8 sum to zero as bytes (R151). -/
theorem cks_eq_iff_sum (w : Window) : cks w = w.b8 ↔ w.summed.sum + w.b8 = 0 := by
  rw [cks_eq_neg_sum, neg_eq_iff_add_eq_zero]

theorem windowOf_accepted_iff (f : Nat → Byte) :
    (windowOf f).accepted ↔ f 0 = 0xFF ∧ ∑ n ∈ Finset.Icc 1 8, f n = 0 := by
  have hsum : ∑ n ∈ Finset.Icc 1 8, f n = (windowOf f).summed.sum + f 8 := by
    simp [Finset.sum_Icc_succ_top, windowOf, Window.summed, add_assoc]
  rw [hsum]
  exact and_congr_right' (cks_eq_iff_sum (windowOf f))

/-! Corruption of an accepted window (R155). -/

/-- The byte at offset n of a window (R70). -/
def Window.byteAt (w : Window) (n : Nat) : Byte := w.bytes.getD n 0

theorem windowOf_byteAt (w : Window) : windowOf w.byteAt = w := rfl

/-- Two accepted windows that differ at most at one offset agree there: at 0 by the sync byte, elsewhere by the sum. -/
theorem eq_of_accepted_update {f : Nat → Byte} {j : Nat} {b : Byte} (hj : j ≤ 8) (hf : (windowOf f).accepted)
    (hb : (windowOf (Function.update f j b)).accepted) : b = f j := by
  obtain ⟨hsync, hsum⟩ := (windowOf_accepted_iff _).1 hf
  obtain ⟨hsync', hsum'⟩ := (windowOf_accepted_iff _).1 hb
  rcases Nat.eq_zero_or_pos j with rfl | hpos
  · rw [Function.update_self] at hsync'
    exact hsync'.trans hsync.symm
  · have hmem : j ∈ Finset.Icc 1 8 := Finset.mem_Icc.2 ⟨hpos, hj⟩
    rw [Finset.sum_update_of_mem hmem] at hsum'
    rw [← Function.update_eq_self j f, Finset.sum_update_of_mem hmem] at hsum
    exact add_right_cancel (hsum'.trans hsum.symm)

/-- A changed byte of an accepted window is detected, at whichever offset j it stands. -/
theorem Window.accepted.not_of_changed {w : Window} {b : Byte} (h : w.accepted) (j : Nat) (hj : j ≤ 8)
    (hb : b ≠ w.byteAt j) : ¬(windowOf (Function.update w.byteAt j b)).accepted :=
  fun hc => hb (eq_of_accepted_update hj ((windowOf_byteAt w).symm ▸ h) hc)

/-- Adding d at one of the offsets 1 to 8 and taking it from another leaves their sum. -/
theorem accepted_of_cancelling {f : Nat → Byte} {j k : Nat} (d : Byte) (hj : j ∈ Finset.Icc 1 8)
    (hk : k ∈ Finset.Icc 1 8) (hjk : j ≠ k) (h : (windowOf f).accepted) :
    (windowOf fun n => if n = j then f n + d else if n = k then f n - d else f n).accepted := by
  obtain ⟨hsync, hsum⟩ := (windowOf_accepted_iff f).1 h
  obtain ⟨hj1, -⟩ := Finset.mem_Icc.1 hj
  obtain ⟨hk1, -⟩ := Finset.mem_Icc.1 hk
  have hsplit : (fun n => if n = j then f n + d else if n = k then f n - d else f n) =
      fun n => f n + (if n = j then d else 0) - (if n = k then d else 0) := by
    funext n
    by_cases hnj : n = j
    · have hnk : n ≠ k := hnj ▸ hjk
      simp [hnj, hjk]
    · by_cases hnk : n = k <;> simp [hnj, hnk, hjk.symm]
  rw [hsplit, windowOf_accepted_iff, Finset.sum_sub_distrib, Finset.sum_add_distrib, hsum,
    Finset.sum_ite_eq_of_mem' _ _ _ hj, Finset.sum_ite_eq_of_mem' _ _ _ hk, zero_add, sub_self]
  exact ⟨by simp [hsync, Nat.ne_of_lt hj1, Nat.ne_of_lt hk1], rfl⟩

/-- Settles O31: acceptance fixes the sync byte and the sum of offsets 1 to 8; one changed byte changes the one or the other,
cancelling changes and reorderings change neither. -/
theorem singleCorruptionIsDetected : Obligations.SingleCorruptionIsDetected := by
  refine ⟨fun w b h => ?_, fun f j k d hj hj' hk hk' hjk h => ?_, fun w v h h0 h8 hperm => ?_⟩
  · have hchanged := h.not_of_changed (b := b)
    exact ⟨hchanged 0 (by decide), hchanged 1 (by decide), hchanged 2 (by decide), hchanged 3 (by decide),
      hchanged 4 (by decide), hchanged 5 (by decide), hchanged 6 (by decide), hchanged 7 (by decide),
      hchanged 8 (by decide)⟩
  · exact accepted_of_cancelling d (Finset.mem_Icc.2 ⟨hj, hj'⟩) (Finset.mem_Icc.2 ⟨hk, hk'⟩) hjk h
  · obtain ⟨hsync, hcks⟩ := h
    have hsum : v.summed.sum = w.summed.sum := hperm.sum_eq
    exact ⟨h0.trans hsync, (cks_eq_iff_sum v).2 (by rw [hsum, h8, ← cks_eq_iff_sum, hcks])⟩

/-! The decoder (R151, R152). -/

theorem decodeFrame_of_valid {w : Window} (h : cks w = w.b8) : decodeFrame w = some (w.co2, w.temp16) := by
  simp [decodeFrame, Window.cksOk, h]

theorem decodeFrame_of_invalid {w : Window} (h : cks w ≠ w.b8) : decodeFrame w = none := by
  simp [decodeFrame, Window.cksOk, h]

theorem decodeFrame_isSome_iff (w : Window) : (decodeFrame w).isSome = true ↔ cks w = w.b8 := by
  by_cases h : cks w = w.b8
  · simp [decodeFrame_of_valid h, h]
  · simp [decodeFrame_of_invalid h, h]

/-- Settles O29: the sum of the bytes is that of the numbers modulo 256, and no part of the decoder reads offset 0. -/
theorem validIffSumIsZero : Obligations.ValidIffSumIsZero := by
  intro w
  refine ⟨decodeFrame_isSome_iff w, ?_, fun _ => rfl⟩
  rw [cks_eq_iff_sum, ← BitVec.toNat_inj]
  simp [Window.summed, BitVec.toNat_add, add_assoc]

/-- The concentration is w[2] above w[3] (R152). -/
theorem Window.co2_eq_append (w : Window) : w.co2 = w.b2 ++ w.b3 :=
  BitVec.setWidth_append_eq_shiftLeft_setWidth_or.symm.trans (BitVec.setWidth_eq _)

theorem Window.co2_toNat (w : Window) : w.co2.toNat = w.b2.toNat * 256 + w.b3.toNat :=
  (congrArg BitVec.toNat w.co2_eq_append).trans (toNat_append_add w.b2 w.b3)

/-- The 16-bit pattern of a temperature is w[4] - 40 modulo 65536 (R152). -/
theorem Window.temp16_toNat (w : Window) : (w.temp16.toNat : Int) = ((w.b4.toNat : Int) - 40) % 65536 := by
  rw [Window.temp16, BitVec.toNat_ofInt, Int.toNat_of_nonneg (Int.emod_nonneg _ (by decide))]
  rfl

/-- Settles O30: a valid window decodes to its two fields, whose values the laws above give. -/
theorem decodeExtractsFields : Obligations.DecodeExtractsFields := fun w =>
  ⟨fun h => ⟨w.co2, w.temp16, decodeFrame_of_valid h, w.co2_toNat, w.temp16_toInt, w.temp16_toNat⟩,
    decodeFrame_of_invalid⟩

/-! CHK (R153). -/

/-- The two flags are the low bits of the word. -/
theorem chkWord_getLsbD_of_lt (c : Byte) (syncOk cksOk : Bool) {k : Nat} (hk : k < 2) :
    (chkWord c syncOk cksOk).getLsbD k = (BitVec.ofBool syncOk ++ BitVec.ofBool cksOk).getLsbD k :=
  calc (chkWord c syncOk cksOk).getLsbD k
    _ = ((0 : BitVec 6) ++ (BitVec.ofBool syncOk ++ BitVec.ofBool cksOk)).getLsbD k :=
      BitVec.getLsbD_append.trans (if_pos (by omega))
    _ = (BitVec.ofBool syncOk ++ BitVec.ofBool cksOk).getLsbD k := BitVec.getLsbD_append.trans (if_pos hk)

theorem ofBool_append_bits (a b : Bool) :
    (BitVec.ofBool a ++ BitVec.ofBool b).getLsbD 1 = a ∧ (BitVec.ofBool a ++ BitVec.ofBool b).getLsbD 0 = b := by
  revert a b
  decide

/-- The word CHK delivers holds the checksum in bits 15:8, the flags in bits 1 and 0, and zeros between. -/
theorem chkWord_fields (c : Byte) (syncOk cksOk : Bool) :
    (chkWord c syncOk cksOk).extractLsb' 8 8 = c ∧ (chkWord c syncOk cksOk).extractLsb' 2 6 = 0 ∧
      (chkWord c syncOk cksOk).getLsbD 1 = syncOk ∧ (chkWord c syncOk cksOk).getLsbD 0 = cksOk := by
  obtain ⟨hsync, hcks⟩ := ofBool_append_bits syncOk cksOk
  refine ⟨BitVec.extractLsb'_append_eq_left, ?_, ?_, ?_⟩
  · exact (BitVec.extractLsb'_append_eq_of_add_le (by decide)).trans BitVec.extractLsb'_append_eq_left
  · exact (chkWord_getLsbD_of_lt c syncOk cksOk (by decide)).trans hsync
  · exact (chkWord_getLsbD_of_lt c syncOk cksOk (by decide)).trans hcks

/-- A peek as the rule writes it: the byte d places after tail, or zero when d is at least avail (R104). -/
theorem State.peek_eq (s : State) (l : LinkNo) (d : Nat) :
    s.peek l d =
      if (((s.ring l .rx).head : Int) - (s.ring l .rx).tail) % s.cfg.N ≤ d then 0
      else s.readByte (slotAddr s.cfg l .rx ((s.ring l .rx).tail + d)) := by
  rw [← s.avail_cast l .rx]
  simp only [State.peek, Int.ofNat_le]
  rfl

/-- Settles O32: CHK puts the validator's word for the peeked window into res and nothing else. -/
theorem chkReportsTheValidator : Obligations.ChkReportsTheValidator := by
  intro s l
  refine ⟨encode_fits (.chk l), fun hlegal => ⟨_, s.peekWindow l, exec_next hlegal, ?_, ?_⟩⟩
  · exact windowOf_congr fun k _ => s.peek_eq l k
  · obtain ⟨hcks, hzero, hsync, hvalid⟩ :=
      chkWord_fields (cks (s.peekWindow l)) (s.peekWindow l).syncOk (s.peekWindow l).cksOk
    refine ⟨hcks, hzero, ?_, ?_, s.setRes_advance_frame _⟩
    · exact (Bool.eq_iff_iff.1 hsync).trans beq_iff_eq
    · exact (Bool.eq_iff_iff.1 hvalid).trans beq_iff_eq

end Sys2Proof.Machine
end

section
/-! The frame synchroniser (spec/43_message_sync.md): one pass as the rule writes it, then on the contents of the receive ring, where it waits, drops one byte or takes an accepted frame. -/

namespace Sys2Proof.Machine

variable (s : State)

/-! One pass: what it moves, what it leaves, and what it reads (R170, R174). -/

theorem State.consume_moves_tail (l : LinkNo) (r : Dir) (n : Nat) :
    ((s.consume l r n).ring l r).tail = ((s.ring l r).tail + n) % s.cfg.N ∧
      ((s.consume l r n).ring l r).head = (s.ring l r).head ∧ SameRingsBut l r s (s.consume l r n) := by
  rw [State.consume_ring_same]
  exact ⟨rfl, rfl, fun _ _ hk => s.consume_ring_ne n hk⟩

theorem State.syncPass_advance_frame (l : LinkNo) :
    SameBytes s (s.syncPass l).advance ∧ SameFlags s (s.syncPass l).advance ∧ SameWires s (s.syncPass l).advance ∧
      NextPosition s (s.syncPass l).advance ∧ SameParams s (s.syncPass l).advance :=
  ⟨s.syncPass_readByte l, fun k => ⟨s.syncPass_txarm l k, s.syncPass_txc l k⟩, s.syncPass_wire l,
    congrArg (· + 1) (s.syncPass_tp l), (s.syncPass_sameParams l).advance⟩

/-- Settles O33: the four cases of `State.syncPass_cases`, each with what its update of the state moves. -/
theorem sstepFollowsTheLoopBody : Obligations.SstepFollowsTheLoopBody := by
  intro s l
  refine ⟨encode_fits (.sstep l), fun hlegal =>
    ⟨(s.syncPass l).advance, s.syncWindow l, exec_next hlegal, rfl, ?_, s.syncPass_advance_frame l⟩⟩
  rw [← s.avail_cast l .rx, show (0xFF : Byte) = syncByte from rfl]
  rcases s.syncPass_cases l with ⟨h9, e⟩ | ⟨h9, hsync, e⟩ | ⟨h9, hsync, hcks, e⟩ | ⟨h9, hsync, hcks, e⟩ <;> rw [e]
  · rw [if_pos (by omega)]
    exact ⟨rfl, fun _ _ => rfl, rfl⟩
  · obtain ⟨htail, hhead, hrest⟩ := s.consume_moves_tail l .rx 1
    rw [if_neg (by omega), if_pos hsync]
    exact ⟨rfl, htail, hhead, hrest, rfl⟩
  · obtain ⟨htail, hhead, hrest⟩ := s.consume_moves_tail l .rx 1
    rw [if_neg (by omega), if_neg (not_not.2 hsync), if_pos hcks]
    exact ⟨rfl, htail, hhead, hrest, rfl⟩
  · obtain ⟨htail, hhead, hrest⟩ := s.consume_moves_tail l .rx 9
    have hchannel : (BitVec.ofNat 8 l.val).toNat = l.val :=
      (BitVec.toNat_ofNat ..).trans (Nat.mod_eq_of_lt (by omega))
    rw [if_neg (by omega), if_neg (not_not.2 hsync), if_neg (not_not.2 hcks)]
    exact ⟨rfl, htail, hhead, hrest, _, rfl, hchannel, (s.syncWindow l).co2_toNat, (s.syncWindow l).temp16_toNat⟩

/-- Settles O34: `State.drainPass_cases` says which of the two states an iteration answers. -/
theorem drainStepIsOnePass : Obligations.DrainStepIsOnePass := by
  intro s l
  refine ⟨encode_fits (.drain l), fun hlegal => ⟨(s.syncPass l).advance, exec_next hlegal, ?_⟩⟩
  rw [exec_next hlegal, effectOf, State.advance_res]
  rcases s.drainPass_cases l with ⟨hwait, e⟩ | ⟨hwait, e⟩ <;> rw [e]
  · rw [if_pos hwait]
  · rw [if_neg hwait, ← s.syncPass_tp l]
    rfl

/-- A pass takes its outcome from the configuration, the ring's indices and the window at tail. -/
theorem State.syncPass_agree {s u : State} {l : LinkNo} (hcfg : u.cfg = s.cfg)
    (hring : u.ring l .rx = s.ring l .rx) (hwindow : u.syncWindow l = s.syncWindow l) :
    (u.syncPass l).res = (s.syncPass l).res ∧ (u.syncPass l).ring l .rx = (s.syncPass l).ring l .rx ∧
      ∃ new, (s.syncPass l).readings = s.readings ++ new ∧ (u.syncPass l).readings = u.readings ++ new := by
  have havail : u.avail l .rx = s.avail l .rx := by rw [State.avail, State.avail, hcfg, hring]
  have hsync : u.readSlot l .rx (u.ring l .rx).tail = s.readSlot l .rx (s.ring l .rx).tail :=
    congrArg Window.b0 hwindow
  have htaken (n : Nat) : (u.consume l .rx n).ring l .rx = (s.consume l .rx n).ring l .rx := by
    rw [State.consume_ring_same, State.consume_ring_same, hcfg, hring]
  unfold State.syncPass
  rw [havail, hsync, hwindow]
  split
  · exact ⟨rfl, hring, [], by simp⟩
  · split
    · exact ⟨rfl, htaken 1, [], by simp⟩
    · cases decodeFrame (s.syncWindow l) with
      | none => exact ⟨rfl, htaken 1, [], by simp⟩
      | some x => exact ⟨rfl, htaken frameLen, [_], rfl, rfl⟩

/-- Settles O38: a window's slots are slots of the ring, so states that agree on the ring have the same window. -/
theorem passReadsOnlyItsOwnRing : Obligations.PassReadsOnlyItsOwnRing := by
  intro s u l hlegal hcfg hring hbytes
  have hwindow : u.syncWindow l = s.syncWindow l := windowOf_congr fun k _ => by
    unfold State.readSlot
    rw [hcfg, hring, ← slotAddr_mod]
    exact hbytes _ (Nat.mod_lt _ s.cfg.N_pos)
  obtain ⟨hres, hring', new, hs, hu⟩ := State.syncPass_agree hcfg hring hwindow
  obtain ⟨hkeep, hflags, hwires, -⟩ := u.syncPass_advance_frame l
  exact ⟨_, _, new, exec_next hlegal, exec_next (hcfg.symm ▸ hlegal), hres, hring', hs, hu,
    fun _ _ hk => u.syncPass_ring_ne hk, hkeep, hflags, hwires⟩

/-! Windows of a byte string (R71). -/

theorem windowAt_append_of_le {bs : List Byte} {k : Nat} (h : k + 9 ≤ bs.length) (cs : List Byte) :
    windowAt (bs ++ cs) k = windowAt bs k :=
  windowOf_congr fun j hj => List.getD_append bs cs 0 (k + j) (by omega)

theorem windowAt_drop (bs : List Byte) (k : Nat) : windowAt (bs.drop k) 0 = windowAt bs k :=
  windowOf_congr fun j _ => by simp [List.getD_eq_getElem?_getD]

theorem windowAt_bytes_append (w : Window) (bs : List Byte) : windowAt (w.bytes ++ bs) 0 = w := rfl

theorem bytes_windowAt_zero {bs : List Byte} (h : 9 ≤ bs.length) : (windowAt bs 0).bytes = bs.take 9 := by
  have hbytes : (windowAt bs 0).bytes = (List.range 9).map fun j => bs.getD (0 + j) 0 := rfl
  rw [hbytes]
  refine List.ext_getElem (by simp [h]) fun k hk _ => ?_
  have hlt : k < bs.length := by simp at hk; omega
  simp [hlt]

/-! One pass on the contents of the ring (R172). -/

variable {s} {l : LinkNo}

theorem State.syncWindow_eq_windowAt (h9 : 9 ≤ s.avail l .rx) : s.syncWindow l = windowAt (s.contents l .rx) 0 :=
  windowOf_congr fun k hk => by
    have hlt : k < (s.contents l .rx).length := by rw [State.contents_length]; omega
    rw [Nat.zero_add, List.getD_eq_getElem _ _ hlt, State.contents_getElem]

theorem State.syncPass_of_short (h : s.avail l .rx < 9) : s.syncPass l = s.setRes 0 := by
  rcases s.syncPass_cases l with ⟨_, e⟩ | ⟨h9, _⟩ | ⟨h9, _⟩ | ⟨h9, _⟩
  · exact e
  all_goals omega

/-- A pass on a window that is not accepted drops one byte. -/
theorem State.syncPass_of_rejected (hok : (s.ring l .rx).Ok s.cfg.N) (h9 : 9 ≤ s.avail l .rx)
    (h : ¬(windowAt (s.contents l .rx) 0).accepted) :
    (s.syncPass l).res ≠ 0 ∧ (s.syncPass l).contents l .rx = (s.contents l .rx).drop 1 ∧
      (s.syncPass l).readings = s.readings := by
  have hdrop := State.consume_contents hok (show 1 ≤ s.avail l .rx by omega)
  rw [← State.syncWindow_eq_windowAt h9] at h
  rcases s.syncPass_cases l with ⟨h', _⟩ | ⟨_, _, e⟩ | ⟨_, _, _, e⟩ | ⟨_, hsync, hcks, _⟩
  · omega
  · rw [e, State.setRes_contents, hdrop]
    exact ⟨(by decide : (1 : Word) ≠ 0), rfl, rfl⟩
  · rw [e, State.setRes_contents, hdrop]
    exact ⟨(by decide : (2 : Word) ≠ 0), rfl, rfl⟩
  · exact absurd ⟨hsync, hcks⟩ h

/-- A pass on an accepted window takes its nine bytes and appends its reading. -/
theorem State.syncPass_of_accepted (hok : (s.ring l .rx).Ok s.cfg.N) (h9 : 9 ≤ s.avail l .rx)
    (h : (windowAt (s.contents l .rx) 0).accepted) :
    (s.syncPass l).res ≠ 0 ∧ (s.syncPass l).contents l .rx = (s.contents l .rx).drop 9 ∧
      (s.syncPass l).readings = s.readings ++ [⟨BitVec.ofNat 8 l.val, (windowAt (s.contents l .rx) 0).co2,
        (windowAt (s.contents l .rx) 0).temp16⟩] := by
  rw [← State.syncWindow_eq_windowAt h9] at h ⊢
  obtain ⟨hsync, hcks⟩ := h
  rcases s.syncPass_cases l with ⟨h', _⟩ | ⟨_, hsync', _⟩ | ⟨_, _, hcks', _⟩ | ⟨_, _, _, e⟩
  · omega
  · exact absurd hsync hsync'
  · exact absurd hcks hcks'
  · rw [e, State.setRes_contents, State.emit_contents, State.consume_contents hok h9]
    exact ⟨(by decide : (3 : Word) ≠ 0), rfl, rfl⟩

/-- With nine bytes buffered a pass does not wait, and it drops at least one byte from the front. -/
theorem State.syncPass_drops (hok : (s.ring l .rx).Ok s.cfg.N) (h9 : 9 ≤ s.avail l .rx) :
    (s.syncPass l).res ≠ 0 ∧ ∃ n, 1 ≤ n ∧ (s.syncPass l).contents l .rx = (s.contents l .rx).drop n := by
  by_cases h : (windowAt (s.contents l .rx) 0).accepted
  · obtain ⟨hres, hdrop, -⟩ := State.syncPass_of_accepted hok h9 h
    exact ⟨hres, 9, by decide, hdrop⟩
  · obtain ⟨hres, hdrop, -⟩ := State.syncPass_of_rejected hok h9 h
    exact ⟨hres, 1, le_rfl, hdrop⟩

/-- Settles O36: fewer than nine bytes, or a first window that is not accepted, or one that is. -/
theorem passConsumesOneByteOrOneFrame : Obligations.PassConsumesOneByteOrOneFrame := by
  intro s l hlegal hok
  refine ⟨(s.syncPass l).advance, exec_next hlegal, s.syncPass_ok hok, ?_⟩
  rw [State.advance_contents, State.advance_readings, State.contents_length]
  rcases Nat.lt_or_ge (s.avail l .rx) 9 with h9 | h9
  · rw [State.syncPass_of_short h9, State.setRes_contents]
    exact .inl ⟨h9, rfl, rfl⟩
  have hlen : 9 ≤ (s.contents l .rx).length := by rwa [State.contents_length]
  refine .inr ?_
  by_cases h : (windowAt (s.contents l .rx) 0).accepted
  · obtain ⟨-, hdrop, hread⟩ := State.syncPass_of_accepted hok h9 h
    refine .inr ⟨_, h, ?_, hread⟩
    rw [hdrop, bytes_windowAt_zero hlen, List.take_append_drop]
  · obtain ⟨-, hdrop, hread⟩ := State.syncPass_of_rejected hok h9 h
    rw [hdrop]
    exact .inl ⟨h9, h, ⟨_, State.contents_eq_cons (by omega)⟩, hread⟩

end Sys2Proof.Machine
end

section
/-! DRAIN (R171, R173): the states from which the next host step is one of its iterations, and its runs in a closed trace. -/

namespace Sys2Proof.Machine

theorem core_run_succ {s t : State} (h : step s = .next t) (n : Nat) :
    Sys2Proof.core.run (n + 1) s = Sys2Proof.core.run n t := by
  have hstep : Sys2Proof.core.step s = .next t := h
  simp only [Host.Core.run, hstep]

/-- The word at tp is DRAIN l, and the indices of the ring it works on are in range. -/
structure State.AtDrain (s : State) (l : LinkNo) : Prop where
  word : ∃ w, s.trace[s.tp]? = some w ∧ decode s.cfg w = .ok (.drain l)
  indices : (s.ring l .rx).Ok s.cfg.N

namespace State.AtDrain

variable {s : State} {l : LinkNo}

/-- The host's step is one iteration. -/
theorem hostStep (h : s.AtDrain l) : hostStep s = .next (s.drainPass l) := by
  obtain ⟨w, hw, hi⟩ := h.word
  obtain ⟨-, -, hlegal⟩ := decode_inv hi
  rw [hostStep_eq_exec s hw hi, exec_next hlegal, effectOf]

theorem syncPass (h : s.AtDrain l) : (s.syncPass l).AtDrain l where
  word := by simpa using h.word
  indices := by rw [State.syncPass_cfg]; exact s.syncPass_ok h.indices

theorem pushByte (h : s.AtDrain l) (b : Byte) : (s.pushByte l .rx b).AtDrain l where
  word := by simpa using h.word
  indices := by rw [State.pushByte_cfg]; exact State.pushByte_ok b h.indices

/-- With nine bytes buffered the loop goes on: tp stays on the word. -/
theorem drainPass_eq (h : s.AtDrain l) (h9 : 9 ≤ s.avail l .rx) : s.drainPass l = s.syncPass l := by
  obtain ⟨hres, -⟩ := State.syncPass_drops h.indices h9
  rcases s.drainPass_cases l with ⟨hwait, -⟩ | ⟨-, e⟩
  · exact absurd hwait hres
  · exact e

/-! Runs of a closed trace. -/

theorem run_succ (h : s.AtDrain l) (hclosed : s.cfg.semantics = .closed) (n : Nat) :
    Sys2Proof.core.run (n + 1) s = Sys2Proof.core.run n (s.drainPass l) := by
  refine core_run_succ ?_ n
  rw [step, hclosed]
  exact h.hostStep

theorem run_loops (h : s.AtDrain l) (hclosed : s.cfg.semantics = .closed) (h9 : 9 ≤ s.avail l .rx) (n : Nat) :
    Sys2Proof.core.run (n + 1) s = Sys2Proof.core.run n (s.syncPass l) := by
  rw [h.run_succ hclosed, h.drainPass_eq h9]

theorem run_returns (h : s.AtDrain l) (hclosed : s.cfg.semantics = .closed) (h9 : s.avail l .rx < 9) :
    Sys2Proof.core.run 1 s = .next (s.setRes 0).advance := by
  have hwait : s.drainPass l = (s.setRes 0).advance := by
    rw [State.drainPass, State.syncPass_of_short h9]
    exact if_pos rfl
  rw [h.run_succ hclosed, hwait]
  rfl

/-- The loop returns, after at most one iteration for each byte above eight and one more. -/
theorem exists_return (h : s.AtDrain l) (hclosed : s.cfg.semantics = .closed) :
    ∃ n t, 1 ≤ n ∧ n ≤ (s.avail l .rx - 8) + 1 ∧ Sys2Proof.core.run n s = .next t ∧
      t.tp = s.tp + 1 ∧ t.res = 0 ∧ t.avail l .rx ≤ 8 ∧ t.contents l .rx <:+ s.contents l .rx := by
  induction hk : s.avail l .rx using Nat.strong_induction_on generalizing s with
  | _ k ih =>
    rcases Nat.lt_or_ge k 9 with h9 | h9
    · have hshort : s.avail l .rx < 9 := hk ▸ h9
      refine ⟨1, (s.setRes 0).advance, le_rfl, by omega, h.run_returns hclosed hshort, rfl, rfl,
        Nat.le_of_lt_succ hshort, ?_⟩
      rw [State.advance_contents, State.setRes_contents]
    · obtain ⟨-, j, hj, hdrop⟩ := State.syncPass_drops h.indices (hk ▸ h9)
      have havail : (s.syncPass l).avail l .rx = k - j := by
        rw [← State.contents_length, hdrop, List.length_drop, State.contents_length, hk]
      obtain ⟨n, t, hn, hbound, hrun, htp, hres, hleft, hend⟩ :=
        ih (k - j) (by omega) h.syncPass ((s.syncPass_cfg l).symm ▸ hclosed) havail
      refine ⟨n + 1, t, by omega, by omega, (h.run_loops hclosed (hk ▸ h9) n).trans hrun, ?_, hres, hleft, ?_⟩
      · rw [htp, State.syncPass_tp]
      · exact hend.trans (hdrop ▸ List.drop_suffix j _)

/-- While no window at the first k offsets is accepted, k iterations drop k bytes and emit nothing. -/
theorem run_rejects {k : Nat} (h : s.AtDrain l) (hclosed : s.cfg.semantics = .closed)
    (hlen : k + 8 ≤ s.avail l .rx) (hno : ∀ j, j < k → ¬(windowAt (s.contents l .rx) j).accepted) (n : Nat) :
    ∃ t : State, Sys2Proof.core.run (n + k) s = Sys2Proof.core.run n t ∧ t.AtDrain l ∧
      t.cfg.semantics = .closed ∧ t.contents l .rx = (s.contents l .rx).drop k ∧ t.readings = s.readings ∧
      t.tp = s.tp := by
  induction k generalizing s with
  | zero => exact ⟨s, rfl, h, hclosed, rfl, rfl, rfl⟩
  | succ k ih =>
    have h9 : 9 ≤ s.avail l .rx := by omega
    obtain ⟨-, hdrop, hread⟩ := State.syncPass_of_rejected h.indices h9 (hno 0 k.succ_pos)
    have havail : k + 8 ≤ (s.syncPass l).avail l .rx := by
      rw [← State.contents_length, hdrop, List.length_drop, State.contents_length]; omega
    have hno' : ∀ j, j < k → ¬(windowAt ((s.syncPass l).contents l .rx) j).accepted := fun j hj => by
      rw [hdrop, ← windowAt_drop, List.drop_drop, windowAt_drop, Nat.add_comm]
      exact hno (j + 1) (Nat.succ_lt_succ hj)
    obtain ⟨t, hrun, hat, hclosed', hcontents, hread', htp⟩ :=
      ih h.syncPass ((s.syncPass_cfg l).symm ▸ hclosed) havail hno'
    refine ⟨t, (h.run_loops hclosed h9 (n + k)).trans hrun, hat, hclosed', ?_, hread'.trans hread,
      htp.trans (s.syncPass_tp l)⟩
    rw [hcontents, hdrop, List.drop_drop, Nat.add_comm]

end State.AtDrain

/-- Settles O35: each pass that does not wait takes at least one byte of those above eight. -/
theorem drainReturnsWithinBound : Obligations.DrainReturnsWithinBound := fun _ _ w hclosed hw hi hok =>
  State.AtDrain.exists_return ⟨⟨w, hw, hi⟩, hok⟩ hclosed

/-- Settles O37: nine passes drop the corrupted frame, the tenth takes the valid one, and the eleventh waits. -/
theorem corruptedFrameIsWalkedPast : Obligations.CorruptedFrameIsWalkedPast := by
  intro s l w X V rest hclosed hw hi hok hcontents hrest hno hV
  have hat : s.AtDrain l := ⟨⟨w, hw, hi⟩, hok⟩
  have hlen : 9 + 8 ≤ s.avail l .rx := by
    rw [← State.contents_length, hcontents]
    simp [Window.bytes]
  have hno' : ∀ j, j < 9 → ¬(windowAt (s.contents l .rx) j).accepted := fun j hj => by
    rw [hcontents, windowAt_append_of_le (by simp [Window.bytes]; omega)]
    exact hno j (Nat.le_of_lt_succ hj)
  obtain ⟨t, hrun, hat', hclosed', hleft, hread, htp⟩ := hat.run_rejects hclosed hlen hno' 2
  have hfront : t.contents l .rx = V.bytes ++ rest := by rw [hleft, hcontents]; rfl
  have h9 : 9 ≤ t.avail l .rx := by
    rw [← State.contents_length, hfront]
    simp [Window.bytes]
  obtain ⟨-, hdrop, hread'⟩ := State.syncPass_of_accepted hat'.indices h9
    (by rwa [hfront, windowAt_bytes_append])
  rw [hfront, windowAt_bytes_append, hread] at hread'
  have hend : (t.syncPass l).contents l .rx = rest := by rw [hdrop, hfront]; rfl
  have hshort : (t.syncPass l).avail l .rx < 9 := by rw [← State.contents_length, hend]; omega
  refine ⟨((t.syncPass l).setRes 0).advance, ?_, ?_, rfl, ?_, hread'⟩
  · rw [hrun, hat'.run_loops hclosed' h9 1]
    exact hat'.syncPass.run_returns ((t.syncPass_cfg l).symm ▸ hclosed') hshort
  · rw [State.advance_tp, State.setRes_tp, State.syncPass_tp, htp]
  · rw [State.advance_contents, State.setRes_contents, hend]

end Sys2Proof.Machine
end

section
/-! A DRAIN that never returns (R171 (b), U6): in the open semantics nine bytes arrive before every move of the host. -/

namespace Sys2Proof.Machine

/-- The default parameters under the open semantics. -/
def openConfig : Config := { Config.default with semantics := .concurrent }

/-- Nine arrivals on link 1, then one move of the host, again and again. -/
def busyMove (n : Nat) : Move := if n % 10 = 9 then .host else .byteArrived 1 0

/-- The states of the run that makes these moves from reset, with the one word DRAIN 1. -/
def busyState : Nat → State
  | 0 => State.resetWith openConfig [encode (.drain 1)] [] 0
  | n + 1 => if n % 10 = 9 then (busyState n).drainPass 1 else (busyState n).byteArrives 1 0

/-- What holds after n moves of this run: DRAIN is at tp, and each arrival since the last move of the host has left its byte. -/
structure BusyAt (n : Nat) (s : State) : Prop where
  config : s.cfg = openConfig
  drain : s.AtDrain 1
  position : s.tp = 0
  buffered : n % 10 ≤ s.avail 1 .rx
  disarmed : ∀ l, (s.link l).txarm = false

theorem BusyAt.reset : BusyAt 0 (State.resetWith openConfig [encode (.drain 1)] [] 0) where
  config := rfl
  drain := ⟨⟨_, rfl, decode_encode (by decide)⟩, (State.resetWith_inv ..).indices 1 .rx⟩
  position := rfl
  buffered := Nat.zero_le _
  disarmed l := by rw [State.resetWith_link]; rfl

theorem BusyAt.drainPass {n : Nat} {s : State} (h : BusyAt n s) (hn : n % 10 = 9) :
    BusyAt (n + 1) (s.drainPass 1) := by
  rw [h.drain.drainPass_eq (hn ▸ h.buffered)]
  exact {
    config := (s.syncPass_cfg 1).trans h.config
    drain := h.drain.syncPass
    position := (s.syncPass_tp 1).trans h.position
    buffered := by omega
    disarmed := fun l => (s.syncPass_txarm 1 l).trans (h.disarmed l) }

theorem BusyAt.byteArrives {n : Nat} {s : State} (h : BusyAt n s) : BusyAt (n + 1) (s.byteArrives 1 0) where
  config := (s.pushByte_cfg 1 .rx 0).trans h.config
  drain := h.drain.pushByte 0
  position := (s.pushByte_tp 1 .rx 0).trans h.position
  buffered := by
    have hcount : (s.byteArrives 1 0).avail 1 .rx = min (s.cfg.N - 1) (s.avail 1 .rx + 1) := by
      rw [← State.contents_length, State.byteArrives, State.pushByte_contents 0 h.drain.indices, List.length_take,
        List.length_append, State.contents_length, List.length_singleton]
    have hbuffered := h.buffered
    have hN := s.cfg.sixteen_le_N
    omega
  disarmed l := (s.pushByte_txarm 1 l .rx 0).trans (h.disarmed l)

theorem busyAt_busyState (n : Nat) : BusyAt n (busyState n) := by
  induction n with
  | zero => exact .reset
  | succ n ih =>
    unfold busyState
    split
    · exact ih.drainPass ‹_›
    · exact ih.byteArrives

theorem busyState_isOpenRun : IsOpenRun busyState fun n => some (busyMove n) := by
  intro n
  have h := busyAt_busyState n
  refine ⟨congrArg Config.semantics h.config, ?_⟩
  show (busyMove n).enabled (busyState n) = true ∧ performMove (busyMove n) (busyState n) = .next (busyState (n + 1))
  rw [busyState]
  unfold busyMove
  split
  · obtain ⟨w, hw, -⟩ := h.drain.word
    exact ⟨decide_eq_true (List.getElem?_eq_some_iff.1 hw).1, h.drain.hostStep⟩
  · exact ⟨by rw [Move.enabled, h.config]; rfl, rfl⟩

theorem busyMove_host_later (n : Nat) : ∃ k, n ≤ k ∧ some (busyMove k) = some .host :=
  ⟨10 * n + 9, by omega, by rw [busyMove, if_pos (by omega)]⟩

/-- Settles O57: the run of `busyState` is fair, since the host moves again and again and no link is ever armed. -/
theorem drainMayNeverReturn : Obligations.DrainMayNeverReturn := by
  refine ⟨openConfig, busyState, fun n => some (busyMove n), rfl, busyState_isOpenRun,
    ⟨fun n _ => busyMove_host_later n, fun n l _ harm => ?_⟩, fun n => (busyAt_busyState n).position,
    busyMove_host_later⟩
  exact absurd ((busyAt_busyState n).disarmed l) (by simp [harm n le_rfl])

end Sys2Proof.Machine
end

section
/-! The request encoder (spec/44_request_encoder.md): one request, then the requests of a list of links, of which the broadcast and the words REQ 1, ..., REQ K are both instances. -/

namespace Sys2Proof.Machine

variable {s t : State} {l : LinkNo} {a : Nat}

/-! One request (R191). -/

theorem State.sendRequest_head (h : (s.ring l .tx).Ok s.cfg.N) :
    ((s.sendRequest l).ring l .tx).head = ((s.ring l .tx).head + min 9 (s.free l .tx)) % s.cfg.N := by
  rw [State.sendRequest_ring]
  exact s.pushBytes_head reqFrame h

theorem State.sendRequest_tail (s : State) (l : LinkNo) :
    ((s.sendRequest l).ring l .tx).tail = (s.ring l .tx).tail := by
  rw [State.sendRequest_ring, State.pushBytes_tail]

theorem State.sendRequest_ring_ne (s : State) {l k : LinkNo} {d : Dir} (h : ¬(k = l ∧ d = .tx)) :
    (s.sendRequest l).ring k d = s.ring k d := by
  rw [State.sendRequest_ring, s.pushBytes_ring_ne _ h]

/-- The addresses that a request on link l fills: as many slots from head onward as bytes of the frame fit (R191). -/
def State.requestSlots (s : State) (l : LinkNo) : List Nat := s.slotsFromHead l .tx (min 9 (s.free l .tx))

theorem State.requestSlots_congr (hc : t.cfg = s.cfg) (hr : t.ring l .tx = s.ring l .tx) :
    t.requestSlots l = s.requestSlots l := by
  simp only [State.requestSlots, State.slotsFromHead, State.free, State.avail, hc, hr]

theorem State.sendRequest_readByte_of_notMem (h : (s.ring l .tx).Ok s.cfg.N) (ha : a ∉ s.requestSlots l) :
    (s.sendRequest l).readByte a = s.readByte a := by
  rw [State.sendRequest_readByte]
  exact s.pushBytes_readByte reqFrame h ha

theorem exec_req_of_ne (h0 : l ≠ 0) (hlegal : (Instr.req l).WellFormed s.cfg) :
    exec (.req l) s = .next (s.sendRequest l).advance := by
  rw [exec_next hlegal, effectOf_req_of_ne s h0]

/-- Moving tp to the next word (R33) leaves every frame as it was. -/
theorem advance_frame {r : Dir} {as : List Nat} (hrings : SameRingsBut l r s t) (hflags : SameFlagsBut l s t)
    (hbytes : SameBytesBut as s t) (hwires : SameWires s t) (hreadings : SameReadings s t) (hres : SameRes s t)
    (htp : t.tp = s.tp) (hparams : SameParams s t) :
    SameRingsBut l r s t.advance ∧ SameFlagsBut l s t.advance ∧ SameBytesBut as s t.advance ∧
      SameWires s t.advance ∧ SameReadings s t.advance ∧ SameRes s t.advance ∧ NextPosition s t.advance ∧
      SameParams s t.advance :=
  ⟨hrings, hflags, hbytes, hwires, hreadings, hres, congrArg (· + 1) htp, hparams.advance⟩

theorem State.sendRequest_sameFlagsBut (s : State) (l : LinkNo) : SameFlagsBut l s (s.sendRequest l) :=
  fun _ hk => ⟨congrArg Link.txarm (s.sendRequest_link_ne hk), congrArg Link.txc (s.sendRequest_link_ne hk)⟩

/-- Settles O40: REQ of a sensor link is one request, which pushes the frame on the transmit ring and arms the link. -/
theorem reqQueuesFrameAndArms : Obligations.ReqQueuesFrameAndArms := by
  intro s l
  refine ⟨encode_fits (.req l), fun h0 hlegal hok => ⟨_, exec_req_of_ne h0 hlegal, ?_⟩⟩
  rw [State.advance_contents, State.advance_ring, State.advance_link]
  exact ⟨State.sendRequest_contents_same hok, State.sendRequest_head hok, s.sendRequest_tail l,
    s.sendRequest_txc_same l, s.sendRequest_txarm_same l, advance_frame (fun _ _ hk => s.sendRequest_ring_ne hk)
      (s.sendRequest_sameFlagsBut l) (fun _ ha => State.sendRequest_readByte_of_notMem hok ha)
      (s.sendRequest_wire l) (s.sendRequest_readings l) (s.sendRequest_res l) (s.sendRequest_tp l)
      (s.sendRequest_sameParams l)⟩

/-! What a request makes of its link, it takes from that link and the configuration alone. -/

theorem State.pushByte_link_congr (hc : t.cfg = s.cfg) (hl : t.link l = s.link l) (r : Dir) (b : Byte) :
    (t.pushByte l r b).link l = (s.pushByte l r b).link l := by
  have hr : t.ring l r = s.ring l r := congrArg (Link.ring · r) hl
  have hfull : t.full l r = s.full l r := by rw [State.full, State.full, hc, hr]
  cases hf : s.full l r with
  | true => rw [s.pushByte_full b hf, t.pushByte_full b (hfull.trans hf), hl]
  | false =>
    rw [s.pushByte_room b hf, t.pushByte_room b (hfull.trans hf), State.setRing, State.setRing,
      State.modifyLink_link_same, State.modifyLink_link_same, State.writeByte_link, State.writeByte_link, hl, hr, hc]

theorem State.pushBytes_link_congr (hc : t.cfg = s.cfg) (hl : t.link l = s.link l) (bs : List Byte) :
    (t.pushBytes l bs).link l = (s.pushBytes l bs).link l := by
  induction bs generalizing s t with
  | nil => exact hl
  | cons b bs ih =>
    exact ih (by rw [State.pushByte_cfg, State.pushByte_cfg, hc]) (State.pushByte_link_congr hc hl .tx b)

theorem State.sendRequest_link_congr (hc : t.cfg = s.cfg) (hl : t.link l = s.link l) :
    (t.sendRequest l).link l = (s.sendRequest l).link l := by
  rw [State.sendRequest_eq, State.sendRequest_eq, State.armLink_link_same, State.armLink_link_same,
    State.pushBytes_link_congr hc hl]

/-! The requests of a list of links that are all different (R192). -/

/-- Each link of the list ends as one request on it alone would leave it. -/
theorem State.requests_link_of_mem {ls : List LinkNo} (hls : ls.Nodup) (hl : l ∈ ls) :
    (ls.foldl (fun t k => t.sendRequest k) s).link l = (s.sendRequest l).link l := by
  induction ls generalizing s with
  | nil => cases hl
  | cons k ls ih =>
    obtain ⟨hk, hls⟩ := List.nodup_cons.1 hls
    rw [List.foldl_cons]
    by_cases hlk : l = k
    · subst hlk
      exact State.requests_link_of_notMem _ ls hk
    · rw [ih hls ((List.mem_cons.1 hl).resolve_left hlk)]
      exact State.sendRequest_link_congr (s.sendRequest_cfg k) (s.sendRequest_link_ne hlk)

/-- Only slots that some request of the list fills change: a request moves the head of no other link. -/
theorem State.requests_readByte {ls : List LinkNo} (hls : ls.Nodup) (hok : ∀ l, (s.ring l .tx).Ok s.cfg.N)
    (ha : a ∉ ls.flatMap s.requestSlots) :
    (ls.foldl (fun t k => t.sendRequest k) s).readByte a = s.readByte a := by
  induction ls generalizing s with
  | nil => rfl
  | cons k ls ih =>
    obtain ⟨hk, hls⟩ := List.nodup_cons.1 hls
    rw [List.flatMap_cons, List.mem_append, not_or] at ha
    obtain ⟨hfirst, hrest⟩ := ha
    have hok' : ∀ l, ((s.sendRequest k).ring l .tx).Ok (s.sendRequest k).cfg.N := fun l => by
      rw [State.sendRequest_cfg, State.sendRequest_ring]
      exact s.pushBytes_ok _ (hok l)
    have hslots : ls.flatMap (s.sendRequest k).requestSlots = ls.flatMap s.requestSlots :=
      List.flatMap_congr fun l hl => State.requestSlots_congr (s.sendRequest_cfg k)
        (s.sendRequest_ring_ne fun h => hk (h.1 ▸ hl))
    rw [List.foldl_cons, ih hls hok' (by rwa [hslots]), State.sendRequest_readByte_of_notMem (hok k) hfirst]

/-! The broadcast (R192). -/

theorem req_zero_wellFormed (cfg : Config) : (Instr.req 0).WellFormed cfg := ⟨Nat.zero_le _, nofun, nofun⟩

theorem exec_req_zero (s : State) : exec (.req 0) s = .next s.requestAll.advance :=
  exec_next (req_zero_wellFormed s.cfg)

theorem State.requestAll_link_of_sensor (h0 : l ≠ 0) (hK : l.val ≤ s.cfg.K) :
    s.requestAll.link l = (s.sendRequest l).link l :=
  State.requests_link_of_mem (nodup_sensorLinksOf s.cfg) (mem_sensorLinksOf.2 ⟨h0, hK⟩)

theorem State.requestAll_link_of_not_sensor (h : l = 0 ∨ s.cfg.K < l.val) : s.requestAll.link l = s.link l := by
  refine State.requests_link_of_notMem s _ fun hl => ?_
  obtain ⟨h0, hK⟩ := mem_sensorLinksOf.1 hl
  exact h.elim h0 (Nat.not_lt.2 hK)

/-- Settles O41: each sensor link ends as its own request leaves it, and the rest is what no request touches. -/
theorem reqAllBroadcasts : Obligations.ReqAllBroadcasts := by
  intro s hok
  refine ⟨_, exec_req_zero s, fun l h0 hK => ?_, fun l h => State.requestAll_link_of_not_sensor h, s.requestAll_rx,
    fun a ha => State.requests_readByte (nodup_sensorLinksOf s.cfg) hok ha, s.requestAll_wire, s.requestAll_readings,
    s.requestAll_res, congrArg (· + 1) s.requestAll_tp, s.requestAll_sameParams.advance⟩
  have hlink : s.requestAll.advance.link l = (s.sendRequest l).link l := State.requestAll_link_of_sensor h0 hK
  have hring : s.requestAll.advance.ring l .tx = (s.sendRequest l).ring l .tx := congrArg Link.tx hlink
  rw [State.advance_contents, State.requestAll_contents (hok l), if_pos ⟨h0, hK⟩, hring, hlink]
  exact ⟨rfl, State.sendRequest_head (hok l), s.sendRequest_tail l, s.sendRequest_txc_same l,
    s.sendRequest_txarm_same l⟩

/-! The words REQ 1, ..., REQ K (R192): a request neither reads nor writes tp. -/

theorem State.advance_armLink (s : State) (l : LinkNo) : s.advance.armLink l = (s.armLink l).advance := rfl

theorem State.advance_withPosition (s : State) (n : Nat) : s.advance.withPosition n = s.withPosition n := rfl

theorem State.advance_sendRequest (s : State) (l : LinkNo) :
    s.advance.sendRequest l = (s.sendRequest l).advance := by
  have hpush : s.advance.pushBytes l reqFrame = (s.pushBytes l reqFrame).advance :=
    List.foldl_hom State.advance fun u b => u.advance_pushByte l .tx b
  rw [State.sendRequest_eq, State.sendRequest_eq, hpush, State.advance_armLink]

/-- Words REQ of sensor links, in a row: all their requests, then tp moved by their number. -/
theorem execAll_requests {ls : List LinkNo} (hls : ∀ l ∈ ls, l ≠ 0 ∧ l.val ≤ s.cfg.K) :
    execAll (ls.map .req) s =
      .next ((ls.foldl (fun t k => t.sendRequest k) s).withPosition (s.tp + ls.length)) := by
  induction ls generalizing s with
  | nil => rfl
  | cons l ls ih =>
    obtain ⟨⟨h0, hK⟩, hls⟩ := List.forall_mem_cons.1 hls
    have hexec := exec_req_of_ne h0 ⟨hK, nofun, nofun⟩
    have hfold : ls.foldl (fun t k => t.sendRequest k) (s.sendRequest l).advance =
        (ls.foldl (fun t k => t.sendRequest k) (s.sendRequest l)).advance :=
      List.foldl_hom State.advance fun u k => u.advance_sendRequest k
    have htp : (s.sendRequest l).advance.tp + ls.length = s.tp + (l :: ls).length := by
      simp only [State.advance_tp, State.sendRequest_tp, List.length_cons]; omega
    rw [List.map_cons, execAll_cons hexec,
      ih (s := (s.sendRequest l).advance) (by rwa [State.advance_cfg, State.sendRequest_cfg]), hfold, htp,
      State.advance_withPosition, List.foldl_cons]

/-- Settles O42: the words and the broadcast make the same requests, and differ in tp alone. -/
theorem reqAllIsEachRequestInTurn : Obligations.ReqAllIsEachRequestInTurn := by
  intro s u h
  rw [execAll_requests fun _ => mem_sensorLinksOf.1] at h
  cases h
  rw [exec_req_zero, State.advance, State.requestAll_tp]
  rfl

/-! The frame (R190). -/

/-- Settles O39: the checksum of the one constant frame is evaluated. -/
theorem requestFrameIsValid : Obligations.RequestFrameIsValid := by
  have hcks : cks (windowAt reqFrame 0) = 0x79 := by decide
  exact ⟨rfl, hcks, rfl, hcks⟩

end Sys2Proof.Machine
end

section
/-! Refusal of command words (R79, R200 to R202): a word that fits no row is refused for its format, a word that fits one by the configuration, and a word that decodes is never refused. -/

namespace Sys2Proof

variable {cfg : Config} {w : Word} {op : Op} {why : RefusalReason}

/-! The format of a word that fits no row. -/

/-- The rows with a byte operand, TXW and RXEV, with bit 8 set where the direction bit is 0 (R202). -/
abbrev ByteTooWide (w : Word) : Prop := w &&& 0xF300 = 0x2100 ∨ w &&& 0xF300 = 0xD100

/-- The first check of R79 that a word fails when it fits no row. -/
def formatReason (w : Word) : RefusalReason :=
  if w.toNat < 0x1000 then .reservedOpcode
  else if ByteTooWide w then .byteOperandTooWide
  else .nonzeroReservedField

theorem Op.code_ne_zero (op : Op) : op.code ≠ 0 := by cases op <;> decide

theorem Op.takesByte_iff : op.takesByte = true ↔ op.code = 0x2 ∨ op.code = 0xD := by cases op <;> decide

theorem Op.ofCode_eq_none {c : BitVec 4} (h : Op.ofCode c = none) : c = 0 := by revert c; decide

theorem opField_eq_zero_iff : opField w = 0 ↔ w.toNat < 0x1000 := by
  have hzero : (0 : BitVec 4).toNat = 0 := rfl
  rw [← BitVec.toNat_inj, opField_toNat, hzero]
  omega

theorem immField_bit_eight (w : Word) : immField w &&& 0x100 = 0x100 ↔ w.extractLsb' 8 1 = 1 := by
  have hbit : w.extractLsb' 8 1 = (immField w).extractLsb' 8 1 := by
    apply BitVec.eq_of_toNat_eq
    simp only [BitVec.extractLsb'_toNat, Nat.shiftRight_eq_div_pow, immField_toNat]
    omega
  rw [hbit]
  generalize immField w = i
  revert i
  decide

theorem and_byteMask_eq_iff (o : BitVec 4) :
    w &&& 0xF300 = packWord o 0 0 0x100 ↔ opField w = o ∧ dirField w = 0 ∧ w.extractLsb' 8 1 = 1 := by
  have hmask : w &&& 0xF300 = packWord (opField w &&& 0xF) 0 (dirField w &&& 1) (immField w &&& 0x100) := by
    conv_lhs => rw [← packWord_fields w]
    exact packWord_and _ 0xF _ _ 1 _ 0x100
  have hop : opField w &&& 0xF = opField w := BitVec.and_allOnes
  have hdir : dirField w &&& 1 = dirField w := BitVec.and_allOnes
  rw [hmask, hop, hdir, ← immField_bit_eight]
  exact ⟨fun h => ⟨(packWord_inj h).1, (packWord_inj h).2.2⟩, fun ⟨h1, h2, h3⟩ => by rw [h1, h2, h3]⟩

theorem byteTooWide_iff :
    ByteTooWide w ↔ (opField w = 0x2 ∨ opField w = 0xD) ∧ dirField w = 0 ∧ w.extractLsb' 8 1 = 1 := by
  rw [or_and_right]
  exact or_congr (and_byteMask_eq_iff 0x2) (and_byteMask_eq_iff 0xD)

theorem decode_of_not_fits (h : ∀ op : Op, w &&& op.mask ≠ op.pattern) : decode cfg w = .error (formatReason w) := by
  unfold decode formatReason
  cases hop : Op.ofCode (opField w) with
  | none => rw [if_pos (opField_eq_zero_iff.1 (Op.ofCode_eq_none hop))]
  | some op =>
    have hcode : op.code = opField w := code_ofCode hop
    have hlow : ¬w.toNat < 0x1000 := fun hlt => op.code_ne_zero (hcode.trans (opField_eq_zero_iff.2 hlt))
    have hwide : (op.takesByte && dirField w == 0 && w.extractLsb' 8 1 == 1) = true ↔ ByteTooWide w := by
      simp [byteTooWide_iff, Op.takesByte_iff, hcode, and_assoc]
    simp only [if_neg hlow, if_pos (h op), hwide]
    split <;> rfl

/-! A word that fits a row: its format is right, so one of the last three checks refuses it, or none. -/

theorem not_lt_of_fits (h : w &&& op.mask = op.pattern) : ¬w.toNat < 0x1000 := fun hlt =>
  op.code_ne_zero (((fits_iff op w).1 h).1.symm.trans (opField_eq_zero_iff.2 hlt))

theorem maskImm_of_takesByte (h : op.takesByte = true) : maskImm op = 0x100 := by
  cases op with
  | txw | rxev => rfl
  | _ => cases h

theorem not_byteTooWide_of_fits (h : w &&& op.mask = op.pattern) : ¬ByteTooWide w := by
  intro hwide
  obtain ⟨hop, -, himm⟩ := (fits_iff op w).1 h
  obtain ⟨hcode, -, hbit⟩ := byteTooWide_iff.1 hwide
  rw [hop] at hcode
  rw [maskImm_of_takesByte (Op.takesByte_iff.2 hcode), (immField_bit_eight w).2 hbit] at himm
  exact absurd himm (by decide)

theorem decode_eq_error_iff_of_fits (h : w &&& op.mask = op.pattern) :
    decode cfg w = .error why ↔ (assemble op (linkField w) (dirField w) (immField w)).refusal cfg = some why := by
  rw [decode_of_fits h]
  cases (assemble op (linkField w) (dirField w) (immField w)).refusal cfg <;> simp

/-! Which check fails, by the reason's code (R202): the first three are of the format, the others of the configuration. -/

theorem formatReason_code_le (w : Word) : (formatReason w).code ≤ 3 := by
  unfold formatReason
  split
  · decide
  · split <;> decide

/-- Which of the last three checks of R79 an instruction fails. -/
theorem refusal_cases {i : Instr} (h : i.refusal cfg = some why) :
    (why = .linkNotConfigured ∧ cfg.K < i.link.val) ∨
    (why = .linkNotSensor ∧ i.op.needsSensor = true ∧ i.link = 0) ∨
    (why = .eventInHostProgram ∧ i.link.val ≤ cfg.K ∧ i.op.isEvent = true ∧ cfg.semantics = .concurrent) := by
  unfold Instr.refusal at h
  split at h
  · next hK => cases h; exact .inl ⟨rfl, hK⟩
  · next hK =>
    split at h
    · next hs => cases h; exact .inr (.inl ⟨rfl, by simpa using hs⟩)
    · split at h
      · next he => cases h; exact .inr (.inr ⟨rfl, Nat.le_of_not_lt hK, by simpa using he⟩)
      · cases h

theorem code_of_refusal {i : Instr} (h : i.refusal cfg = some why) : 3 < why.code := by
  rcases refusal_cases h with ⟨rfl, -⟩ | ⟨rfl, -⟩ | ⟨rfl, -⟩ <;> decide

theorem decode_eq_format_error_iff (hwhy : why.code ≤ 3) :
    decode cfg w = .error why ↔ (∀ op : Op, w &&& op.mask ≠ op.pattern) ∧ formatReason w = why := by
  by_cases hfit : ∃ op : Op, w &&& op.mask = op.pattern
  · obtain ⟨op, h⟩ := hfit
    rw [decode_eq_error_iff_of_fits h]
    exact ⟨fun hr => absurd (code_of_refusal hr) (Nat.not_lt.2 hwhy), fun hno => absurd h (hno.1 op)⟩
  · have hno := not_exists.1 hfit
    rw [decode_of_not_fits hno, Except.error.injEq]
    exact (and_iff_right hno).symm

theorem decode_eq_config_error_iff (hwhy : 3 < why.code) :
    decode cfg w = .error why ↔ ∃ op : Op, w &&& op.mask = op.pattern ∧
      (assemble op (linkField w) (dirField w) (immField w)).refusal cfg = some why := by
  by_cases hfit : ∃ op : Op, w &&& op.mask = op.pattern
  · obtain ⟨op, h⟩ := hfit
    exact ⟨fun hd => ⟨op, h, (decode_eq_error_iff_of_fits h).1 hd⟩,
      fun ⟨_, hp, hr⟩ => (decode_eq_error_iff_of_fits hp).2 hr⟩
  · rw [decode_of_not_fits (not_exists.1 hfit), Except.error.injEq]
    refine ⟨fun he => absurd hwhy (Nat.not_lt.2 (he ▸ formatReason_code_le w)), fun ⟨op, h, _⟩ => absurd ⟨op, h⟩ hfit⟩

/-! The words of each reason (R202). -/

theorem decode_reservedOpcode_iff : decode cfg w = .error .reservedOpcode ↔ w.toNat < 0x1000 := by
  rw [decode_eq_format_error_iff (by decide)]
  refine ⟨fun ⟨_, hr⟩ => ?_, fun hlt => ⟨fun op hfit => not_lt_of_fits hfit hlt, if_pos hlt⟩⟩
  by_contra hlow
  rw [formatReason, if_neg hlow] at hr
  split at hr <;> cases hr

theorem not_lt_of_byteTooWide (h : ByteTooWide w) : ¬w.toNat < 0x1000 := by
  obtain ⟨hop, -, -⟩ := byteTooWide_iff.1 h
  rw [← opField_eq_zero_iff]
  intro hz
  rw [hz] at hop
  exact absurd hop (by decide)

theorem decode_byteOperandTooWide_iff : decode cfg w = .error .byteOperandTooWide ↔ ByteTooWide w := by
  rw [decode_eq_format_error_iff (by decide)]
  refine ⟨fun ⟨_, hr⟩ => ?_, fun hwide => ⟨fun op hfit => not_byteTooWide_of_fits hfit hwide, ?_⟩⟩
  · by_contra hno
    rw [formatReason, if_neg hno] at hr
    split at hr <;> cases hr
  · rw [formatReason, if_neg (not_lt_of_byteTooWide hwide), if_pos hwide]

theorem decode_nonzeroReservedField_iff : decode cfg w = .error .nonzeroReservedField ↔
    0x1000 ≤ w.toNat ∧ (∀ op : Op, w &&& op.mask ≠ op.pattern) ∧ ¬ByteTooWide w := by
  rw [decode_eq_format_error_iff (by decide), and_left_comm, ← Nat.not_lt]
  refine and_congr_right fun _ => ?_
  unfold formatReason
  split
  · simp [*]
  · split <;> simp [*]

theorem decode_linkNotConfigured_iff : decode cfg w = .error .linkNotConfigured ↔
    (∃ op : Op, w &&& op.mask = op.pattern) ∧ cfg.K < (linkField w).val := by
  rw [decode_eq_config_error_iff (by decide), ← exists_and_right]
  refine exists_congr fun op => and_congr_right fun _ => ⟨fun hr => ?_, fun hK => ?_⟩
  · rcases refusal_cases hr with ⟨-, hK⟩ | ⟨h, -⟩ | ⟨h, -⟩
    · rwa [assemble_link] at hK
    · cases h
    · cases h
  · exact refusal_linkNotConfigured (by rwa [assemble_link])

theorem decode_eventInHostProgram_iff : decode cfg w = .error .eventInHostProgram ↔
    cfg.semantics = .concurrent ∧ (linkField w).val ≤ cfg.K ∧
      ∃ op : Op, op.isEvent = true ∧ w &&& op.mask = op.pattern := by
  rw [decode_eq_config_error_iff (by decide)]
  constructor
  · rintro ⟨op, hfit, hr⟩
    rcases refusal_cases hr with ⟨h, -⟩ | ⟨h, -⟩ | ⟨-, hK, hop, hsem⟩
    · cases h
    · cases h
    · rw [assemble_link] at hK
      rw [assemble_op] at hop
      exact ⟨hsem, hK, op, hop, hfit⟩
  · rintro ⟨hsem, hK, op, hop, hfit⟩
    exact ⟨op, hfit, refusal_eventInHostProgram (by rwa [assemble_link]) (by rwa [assemble_op]) hsem⟩

/-- SSTEP and DRAIN have no operand but their link, so link 0 leaves one word of each. -/
theorem sensor_row_link_zero_iff :
    (∃ op : Op, w &&& op.mask = op.pattern ∧ op.needsSensor = true ∧ linkField w = 0) ↔ w = 0x8000 ∨ w = 0x9000 := by
  constructor
  · rintro ⟨op, hfit, hop, h0⟩
    have hw := encode_assemble hfit
    rw [h0] at hw
    cases op with
    | sstep => exact .inl (hw.symm.trans (show encode (.sstep 0) = 0x8000 by decide))
    | drain => exact .inr (hw.symm.trans (show encode (.drain 0) = 0x9000 by decide))
    | _ => cases hop
  · rintro (rfl | rfl)
    · exact ⟨.sstep, by decide⟩
    · exact ⟨.drain, by decide⟩

theorem decode_linkNotSensor_iff : decode cfg w = .error .linkNotSensor ↔ w = 0x8000 ∨ w = 0x9000 := by
  rw [decode_eq_config_error_iff (by decide), ← sensor_row_link_zero_iff]
  refine exists_congr fun op => and_congr_right fun _ => ⟨fun hr => ?_, fun ⟨hop, h0⟩ => ?_⟩
  · rcases refusal_cases hr with ⟨h, -⟩ | ⟨-, hop, h0⟩ | ⟨h, -⟩
    · cases h
    · rw [assemble_op] at hop
      rw [assemble_link] at h0
      exact ⟨hop, h0⟩
    · cases h
  · exact refusal_linkNotSensor (by rwa [assemble_op]) (by rwa [assemble_link])

end Sys2Proof

namespace Sys2Proof.Machine

variable {s : State} {w : Word} {why : RefusalReason}

/-! The record of a refused word, and the run it ends (R201, R202). -/

theorem hostStep_refused (hw : s.trace[s.tp]? = some w) (hwhy : decode s.cfg w = .error why) :
    hostStep s = .refused (.illegalCommand w s.tp why) := by
  simp [hostStep, hw, hwhy, raiseIllegal]

theorem core_run_refused {r : Refusal} (h : step s = .refused r) (n : Nat) :
    Sys2Proof.core.run (n + 1) s = .refused r := by
  have hstep : Sys2Proof.core.step s = .refused r := h
  simp only [Host.Core.run, hstep]

/-- Settles O9: the checks of R79 in order, each reason's words read off the fields, and the record the host's step raises. -/
theorem refusalReasonsOfWords : Obligations.RefusalReasonsOfWords := by
  refine ⟨fun cfg w => ?_, rfl, fun s w why => hostStep_refused⟩
  rw [linkBits]
  exact ⟨decode_reservedOpcode_iff, decode_nonzeroReservedField_iff, decode_byteOperandTooWide_iff,
    decode_linkNotConfigured_iff, decode_linkNotSensor_iff, decode_eventInHostProgram_iff⟩

/-- Settles O12: the first step is the host's, which refuses the word, and a run stops at the first refusal. -/
theorem illegalWordEndsTheRun : Obligations.IllegalWordEndsTheRun := by
  intro s w why hw hwhy
  refine ⟨fun hs => core_run_refused ?_, fun ms hs henv => core_run_refused ?_⟩
  · rw [step, hs]
    exact hostStep_refused hw hwhy
  · rw [step, hs]
    exact (openStep_host henv (List.getElem?_eq_some_iff.1 hw).1).trans
      (hostStep_refused (s := { s with env := ms }) hw hwhy)

/-- Settles O15: the configuration admits what a word decodes to, and a meaning completes on what the configuration admits. -/
theorem decodedWordNeverFaults : Obligations.DecodedWordNeverFaults := fun _ _ _ h =>
  ⟨_, exec_next (decode_inv h).2.2⟩

end Sys2Proof.Machine
end

section
/-! The moves of the open semantics (R204, R206): which one a step takes, and what an event does beside its trace word. -/

namespace Sys2Proof.Machine

variable {s : State}

/-! The choice of the next move (R206). -/

theorem nextMove_cons_enabled {m : Move} (h : m.enabled s = true) (ms : List Move) : nextMove s (m :: ms) = (m, ms) := by
  simp [nextMove, h]

theorem nextMove_cons_disabled {m : Move} (h : m.enabled s = false) (ms : List Move) :
    nextMove s (m :: ms) = nextMove s ms := by
  simp [nextMove, h]

theorem step_eq_openStep (hs : s.cfg.semantics = .concurrent) : step s = openStep s := by
  simp [step, hs]

theorem host_enabled_iff : Move.host.enabled s = true ↔ ∃ w, s.trace[s.tp]? = some w := by
  simp [Move.enabled, List.getElem?_eq_some_iff]

/-- Settles O54: the first enabled move of the list is found by its recursion, and each kind of move is enabled by definition. -/
theorem openStepTakesFirstEnabledMove : Obligations.OpenStepTakesFirstEnabledMove := by
  intro s
  refine ⟨fun hs => ⟨fun m ms henv hm => ?_, fun m ms henv hm => ?_, fun henv => ?_⟩, host_enabled_iff, fun l =>
    ⟨fun b => decide_eq_true_iff, by simp [Move.enabled], decide_eq_true_iff⟩⟩
  · rw [step_eq_openStep hs, openStep, henv, nextMove_cons_enabled hm]
  · have hnext : nextMove { s with env := ms } ms = nextMove s s.env := by
      rw [nextMove_env, henv, nextMove_cons_disabled hm]
    rw [step_eq_openStep hs, openStep, ← hnext]
    exact (step_eq_openStep (s := { s with env := ms }) hs).symm
  · rw [step_eq_openStep hs, openStep, henv, nextMove, performMove, ← henv]

/-! An event beside its trace word (R203, R204). -/

theorem asClosed_pushByte (s : State) (l : LinkNo) (r : Dir) (b : Byte) :
    s.asClosed.pushByte l r b = (s.pushByte l r b).asClosed := by
  cases hf : s.full l r with
  | true => rw [s.pushByte_full b hf, s.asClosed.pushByte_full b hf]
  | false => rw [s.pushByte_room b hf, s.asClosed.pushByte_room b hf]; rfl

theorem asClosed_transmitReady (s : State) (l : LinkNo) :
    s.asClosed.transmitReady l = (s.transmitReady l).asClosed := by
  rcases s.transmitReady_cases l with ⟨hoff, e⟩ | ⟨harm, hpos, e⟩ | ⟨harm, hz, e⟩ <;> rw [e]
  · exact s.asClosed.transmitReady_of_disarmed hoff
  · exact s.asClosed.transmitReady_of_pos harm hpos
  · exact s.asClosed.transmitReady_of_zero harm hz

/-- An event has the same effect under either semantics. -/
theorem effectOf_asClosed {i : Instr} (hi : i.op.isEvent = true) (s : State) :
    effectOf i s.asClosed = (effectOf i s).asClosed := by
  cases i with
  | rxev l b => exact congrArg State.advance (asClosed_pushByte s l .rx b)
  | txrdy l => exact congrArg State.advance (asClosed_transmitReady s l)
  | txdone l => rfl
  | _ => cases hi

theorem Move.isEvent_of_word {m : Move} {i : Instr} (hm : m.word = some i) : i.op.isEvent = true := by
  cases m <;> cases hm <;> rfl

/-- An event's move completes and touches neither tp nor res nor the readings. -/
theorem performMove_event {m : Move} {i : Instr} (hm : m.word = some i) (s : State) :
    ∃ t, performMove m s = .next t ∧ t.tp = s.tp ∧ SameRes s t ∧ SameReadings s t := by
  cases m with
  | host => cases hm
  | byteArrived l b =>
    exact ⟨_, rfl, s.pushByte_tp l .rx b, s.pushByte_res l .rx b, s.pushByte_readings l .rx b⟩
  | txReady l => exact ⟨_, rfl, s.transmitReady_tp l, s.transmitReady_res l, s.transmitReady_readings l⟩
  | txComplete l => exact ⟨_, rfl, rfl, rfl, rfl⟩

theorem asClosed_wellFormed {i : Instr} (hi : i.op.isEvent = true) (hl : i.link.val ≤ s.cfg.K) :
    i.WellFormed s.asClosed.cfg :=
  ⟨hl, fun hsensor => absurd hsensor (by simp [Op.needsSensor_eq_false_of_isEvent hi]), fun _ => rfl⟩

/-- Settles O55: the word's effect is the move's with tp moved, and an event has it under either semantics. -/
theorem eventLeavesTheHostWhereItStood : Obligations.EventLeavesTheHostWhereItStood := by
  intro s m i hm
  obtain ⟨t, ht, htp, hres, hreadings⟩ := performMove_event hm s
  have hi := Move.isEvent_of_word hm
  refine ⟨t, ht, htp, hres, hreadings, performMove_sameParams ht, fun hl => ?_⟩
  calc exec i s.asClosed = .next (effectOf i s.asClosed) := exec_next (asClosed_wellFormed hi hl)
    _ = .next t.advance.asClosed := by rw [effectOf_asClosed hi, performMove_effect s hm ht]

end Sys2Proof.Machine
end

section
/-! Events of different links (R206): an event replaces its link and stores at most one byte, in a slot of that link, and takes both from that link alone. So events of different links commute, and none changes whether another is enabled. -/

namespace Sys2Proof.Machine

variable {s u : State} {l k : LinkNo} {m : Move}

/-- The state with a new link l and, if there is one, a byte stored. -/
def State.putLink (s : State) (l : LinkNo) (x : Link) (c : Option Host.Cell) : State :=
  { s with
    links := s.links.set l.val x
    mem := c.elim s.mem fun p => Memory.store s.mem p.1 p.2 }

/-- A byte to store, if there is one, goes to a slot of link l. -/
def StoresOn (cfg : Config) (l : LinkNo) (c : Option Host.Cell) : Prop :=
  ∀ p ∈ c, ∃ r i, p.1 = slotAddr cfg l r i

theorem storesOn_none {cfg : Config} : StoresOn cfg l none := nofun

/-- Two states with the same link l: its indices, flags and wire, and the bytes of its slots. -/
structure SameLink (l : LinkNo) (s u : State) : Prop where
  cfg : u.cfg = s.cfg
  link : u.link l = s.link l
  slots : ∀ r i, u.readSlot l r i = s.readSlot l r i

theorem SameLink.refl (l : LinkNo) (s : State) : SameLink l s s := ⟨rfl, rfl, fun _ _ => rfl⟩

theorem SameLink.ring (h : SameLink l s u) (r : Dir) : u.ring l r = s.ring l r := congrArg (Link.ring · r) h.link

theorem SameLink.avail (h : SameLink l s u) (r : Dir) : u.avail l r = s.avail l r := by
  rw [State.avail, State.avail, h.cfg, h.ring]

theorem SameLink.full (h : SameLink l s u) (r : Dir) : u.full l r = s.full l r := by
  rw [State.full, State.full, h.cfg, h.ring]

/-! An event as a new link and a byte stored. -/

theorem State.putLink_self (s : State) (l : LinkNo) : s.putLink l (s.link l) none = s := by
  simp [State.putLink, State.link]

theorem State.modifyLink_eq_putLink (s : State) (l : LinkNo) (f : Link → Link) :
    s.modifyLink l f = s.putLink l (f (s.link l)) none := rfl

theorem State.modifyLink_modifyLink (s : State) (l : LinkNo) (f g : Link → Link) :
    (s.modifyLink l f).modifyLink l g = s.modifyLink l (g ∘ f) := by
  simp [State.modifyLink, State.link]

theorem pushByte_eq_putLink (s : State) (l : LinkNo) (r : Dir) (b : Byte) :
    ∃ x c, StoresOn s.cfg l c ∧ ∀ u, SameLink l s u → u.pushByte l r b = u.putLink l x c := by
  cases hf : s.full l r with
  | true =>
    refine ⟨s.link l, none, storesOn_none, fun u h => ?_⟩
    rw [u.pushByte_full b ((h.full r).trans hf), ← h.link, u.putLink_self]
  | false =>
    refine ⟨(s.link l).setRing r ((s.ring l r).produce s.cfg.N),
      some (slotAddr s.cfg l r (s.ring l r).head, b), ?_, fun u h => ?_⟩
    · rintro p ⟨⟩
      exact ⟨r, _, rfl⟩
    · rw [u.pushByte_room b ((h.full r).trans hf), ← h.link, ← h.ring, ← h.cfg]
      rfl

theorem transmitReady_eq_putLink (s : State) (l : LinkNo) :
    ∃ x, ∀ u, SameLink l s u → u.transmitReady l = u.putLink l x none := by
  rcases s.transmitReady_cases l with ⟨hoff, -⟩ | ⟨harm, hpos, -⟩ | ⟨harm, hz, -⟩
  · refine ⟨s.link l, fun u h => ?_⟩
    rw [u.transmitReady_of_disarmed (h.link ▸ hoff), ← h.link, u.putLink_self]
  · refine ⟨{ (s.link l).setRing .tx ((s.ring l .tx).consume s.cfg.N 1) with
      wire := (s.link l).wire ++ [s.readSlot l .tx (s.ring l .tx).tail] }, fun u h => ?_⟩
    rw [u.transmitReady_of_pos (h.link ▸ harm) (h.avail .tx ▸ hpos), State.consume, State.send, State.setRing,
      State.modifyLink_modifyLink, State.modifyLink_eq_putLink, h.link, h.ring, h.slots, h.cfg]
    rfl
  · refine ⟨{ s.link l with txarm := false }, fun u h => ?_⟩
    rw [u.transmitReady_of_zero (h.link ▸ harm) ((h.avail .tx).trans hz), State.disarmLink, State.modifyLink_eq_putLink,
      h.link]

/-- An event's move puts a new link in place of its own, and takes it and the byte it stores from that link alone. -/
theorem performMove_eq_putLink (hm : m.linkOf = some l) (s : State) :
    ∃ x c, StoresOn s.cfg l c ∧ ∀ u, SameLink l s u → performMove m u = .next (u.putLink l x c) := by
  cases m with
  | host => cases hm
  | byteArrived k b =>
    cases hm
    obtain ⟨x, c, hc, hu⟩ := pushByte_eq_putLink s l .rx b
    exact ⟨x, c, hc, fun u h => congrArg _ (hu u h)⟩
  | txReady k =>
    cases hm
    obtain ⟨x, hu⟩ := transmitReady_eq_putLink s l
    exact ⟨x, none, storesOn_none, fun u h => congrArg _ (hu u h)⟩
  | txComplete k =>
    cases hm
    refine ⟨{ s.link l with txc := true }, none, storesOn_none, fun u h => ?_⟩
    rw [performMove, State.transmitComplete, State.completeLink, State.modifyLink_eq_putLink, h.link]

/-! New links in two places. -/

theorem StoresOn.ne {cfg : Config} {c d : Option Host.Cell} (hc : StoresOn cfg l c) (hd : StoresOn cfg k d)
    (hlk : l ≠ k) : ∀ p ∈ c, ∀ q ∈ d, p.1 ≠ q.1 := by
  intro p hp q hq
  obtain ⟨r, i, hi⟩ := hc p hp
  obtain ⟨r', j, hj⟩ := hd q hq
  rw [hi, hj]
  exact slotAddr_ne (fun h => hlk h.1) _ _

/-- A new link l leaves every other link as it was. -/
theorem SameLink.of_putLink {x : Link} {c : Option Host.Cell} (hc : StoresOn s.cfg l c) (hlk : l ≠ k) :
    SameLink k s (s.putLink l x c) where
  cfg := rfl
  link := s.modifyLink_link_ne (fun _ => x) hlk.symm
  slots r i := by
    cases c with
    | none => rfl
    | some p =>
      obtain ⟨d, j, hp⟩ := hc p rfl
      exact State.writeByte_readByte_ne s p.2 (hp ▸ slotAddr_ne (fun h => hlk h.1.symm) j i)

theorem State.putLink_comm {x y : Link} {c d : Option Host.Cell} (hwf : Memory.wf s.mem = true)
    (hc : StoresOn s.cfg l c) (hd : StoresOn s.cfg k d) (hlk : l ≠ k) :
    (s.putLink l x c).putLink k y d = (s.putLink k y d).putLink l x c := by
  have hlinks : (s.links.set l.val x).set k.val y = (s.links.set k.val y).set l.val x :=
    Vector.set_comm _ _ fun h => hlk (Fin.ext h)
  have hmem : ((s.putLink l x c).putLink k y d).mem = ((s.putLink k y d).putLink l x c).mem := by
    cases c with
    | none => rfl
    | some p =>
      cases d with
      | none => rfl
      | some q => exact Memory.store_comm _ _ hwf (hc.ne hd hlk p rfl q rfl)
  calc (s.putLink l x c).putLink k y d
      = { s with links := (s.links.set l.val x).set k.val y, mem := ((s.putLink l x c).putLink k y d).mem } := rfl
    _ = (s.putLink k y d).putLink l x c := by rw [hlinks, hmem]; rfl

theorem SameLink.enabled (hm : m.linkOf = some l) (h : SameLink l s u) : m.enabled u = m.enabled s := by
  cases m with
  | host => cases hm
  | _ => cases hm; simp [Move.enabled, h.cfg, h.link]

/-- Settles O56: the event that comes second finds its link as it was before the first, so it does the same in either place. -/
theorem eventsOfDifferentLinksCommute : Obligations.EventsOfDifferentLinksCommute := by
  intro s m n l k hm hn hlk hwf
  obtain ⟨x, c, hc, hdom⟩ := performMove_eq_putLink hm s
  obtain ⟨y, d, hd, hdon⟩ := performMove_eq_putLink hn s
  have hl : SameLink k s (s.putLink l x c) := .of_putLink hc hlk
  have hk : SameLink l s (s.putLink k y d) := .of_putLink hd hlk.symm
  refine ⟨_, _, _, hdom s (.refl l s), hdon _ hl, hdon s (.refl k s), ?_, hl.enabled hn, hk.enabled hm⟩
  rw [hdom _ hk, State.putLink_comm hwf hc hd hlk]

end Sys2Proof.Machine
end

section
/-! A fair run after the host's last word (R207): until link l is ready, nothing touches what it has queued; fairness makes it ready again and again, and each time it sends one byte or, with none left, disarms. -/

namespace Sys2Proof.Machine

variable {s t : State} {l : LinkNo} {q : Nat} {bs : List Byte} {f : Nat → State} {m : Nat → Option Move} {n : Nat}

/-- The host has no word left, and the configured link l is armed with q bytes queued; bs is what it has sent and will send. -/
structure State.Sending (l : LinkNo) (q : Nat) (bs : List Byte) (s : State) : Prop where
  ended : s.trace.length ≤ s.tp
  configured : l.val ≤ s.cfg.K
  indices : (s.ring l .tx).Ok s.cfg.N
  armed : (s.link l).txarm = true
  queued : s.avail l .tx = q
  stream : s.stream l = bs

/-- With no word left, an enabled move is an event's. -/
theorem Move.exists_word (hend : s.trace.length ≤ s.tp) {x : Move} (hx : x.enabled s = true) :
    ∃ i, x.word = some i := by
  cases x with
  | host => exact absurd (of_decide_eq_true hx) (Nat.not_lt.2 hend)
  | _ => exact ⟨_, rfl⟩

theorem offeredBytes_of_isEvent {i : Instr} (l : LinkNo) (hi : i.op.isEvent = true) : offeredBytes l i = [] := by
  cases i with
  | rxev | txrdy | txdone => rfl
  | _ => cases hi

theorem performMove_indices {x : Move} {i : Instr} (hx : x.word = some i) (ht : performMove x s = .next t)
    (h : (s.ring l .tx).Ok s.cfg.N) : (t.ring l .tx).Ok t.cfg.N := by
  cases x with
  | host => cases hx
  | byteArrived k b => cases ht; rwa [State.byteArrives, State.pushByte_cfg, s.pushByte_ring_ne b (by simp)]
  | txReady k => cases ht; rw [State.transmitReady_cfg]; exact s.transmitReady_ok h
  | txComplete k => cases ht; rwa [State.transmitComplete, State.completeLink_ring]

/-- An event neither queues nor loses a byte: the stream of every link stands. -/
theorem performMove_stream {x : Move} {i : Instr} (hx : x.word = some i) (ht : performMove x s = .next t)
    (h : (s.ring l .tx).Ok s.cfg.N) : t.stream l = s.stream l := by
  have hi := Move.isEvent_of_word hx
  have hinit : i ≠ .rinit l .tx := by rintro rfl; cases hi
  have hstream := transmitStreamIsQueuedBytes s t i l h hinit (.inr ⟨x, hx, ht⟩)
  rwa [offeredBytes_of_isEvent l hi, List.take_nil, ite_self, List.append_nil] at hstream

/-- An event takes such a state to such a state, if the link stays armed. -/
theorem State.Sending.event {x : Move} {i : Instr} (h : s.Sending l q bs) (hx : x.word = some i)
    (ht : performMove x s = .next t) (harm : (t.link l).txarm = true) : t.Sending l (t.avail l .tx) bs := by
  obtain ⟨hcfg, htrace, -, -⟩ := performMove_sameParams ht
  obtain ⟨_, ht', htp, -, -⟩ := performMove_event hx s
  cases ht.symm.trans ht'
  exact {
    ended := by rw [htrace, htp]; exact h.ended
    configured := hcfg ▸ h.configured
    indices := performMove_indices hx ht h.indices
    armed := harm
    queued := rfl
    stream := (performMove_stream hx ht h.indices).trans h.stream }

theorem Move.eq_txReady_of_word {x : Move} (hx : x.word = some (.txrdy l)) : x = .txReady l := by
  cases x <;> cases hx
  rfl

/-- Any other event leaves the link armed and its wire as it was, and so, with the stream standing, what it has queued. -/
theorem State.Sending.other_event {x : Move} {i : Instr} (h : s.Sending l q bs) (hx : x.word = some i)
    (ht : performMove x s = .next t) (hne : x ≠ .txReady l) : t.Sending l q bs := by
  have htakes : Takes i s t := .inr ⟨x, hx, ht⟩
  have hi : i ≠ .txrdy l := by rintro rfl; exact hne (Move.eq_txReady_of_word hx)
  have harm : (t.link l).txarm = true := by
    by_contra hoff
    obtain ⟨-, hdisarm, -⟩ := flagsChangeOnlyByRule s t i l htakes
    exact hi (hdisarm h.armed (Bool.eq_false_iff.2 hoff)).1
  have hwire : (t.link l).wire = (s.link l).wire :=
    ((outputsOnlyGrow s t i htakes).2 l).resolve_right fun hw => hi hw.1
  have hcontents : t.contents l .tx = s.contents l .tx := by
    have hstream := performMove_stream hx ht h.indices
    rw [State.stream, State.stream, hwire] at hstream
    exact List.append_cancel_left hstream
  have hqueued : t.avail l .tx = q := by
    rw [← State.contents_length, hcontents, State.contents_length, h.queued]
  exact hqueued ▸ h.event hx ht harm

/-- Ready with bytes queued, the link sends one and stays armed. -/
theorem State.Sending.ready (h : s.Sending l (q + 1) bs) : (s.transmitReady l).Sending l q bs := by
  have hpos : 0 < s.avail l .tx := by rw [h.queued]; exact q.succ_pos
  have hqueued : (s.transmitReady l).avail l .tx = q := by
    rw [State.transmitReady_avail h.indices h.armed hpos, h.queued, Nat.add_sub_cancel]
  obtain ⟨-, -, hflags⟩ := s.transmitReady_sends h.armed hpos
  exact hqueued ▸ h.event (x := .txReady l) rfl rfl ((hflags l).1.trans h.armed)

/-- Ready with none queued, the link disarms, and all of the stream is on the wire. -/
theorem State.Sending.ready_empty (h : s.Sending l 0 bs) :
    ((s.transmitReady l).link l).wire = bs ∧ (s.transmitReady l).contents l .tx = [] ∧
      ((s.transmitReady l).link l).txarm = false := by
  obtain ⟨hoff, -, -, -, hwires⟩ := s.transmitReady_disarms h.armed h.queued
  have hempty : s.contents l .tx = [] := by rw [← List.length_eq_zero_iff, State.contents_length, h.queued]
  have hstream := h.stream
  rw [State.stream, hempty, List.append_nil] at hstream
  refine ⟨(hwires l).trans hstream, ?_, hoff⟩
  rw [s.transmitReady_of_zero h.armed h.queued, State.disarmLink_contents, hempty]

/-! The run. -/

theorem IsOpenRun.next (hrun : IsOpenRun f m) {x : Move} (hx : m n = some x) :
    x.enabled (f n) = true ∧ performMove x (f n) = .next (f (n + 1)) := by
  have h := (hrun n).2
  rwa [hx] at h

theorem IsOpenRun.rest (hrun : IsOpenRun f m) (hx : m n = none) : f (n + 1) = f n := by
  have h := (hrun n).2
  rwa [hx] at h

theorem State.Sending.run_until {k : Nat} (h : (f n).Sending l q bs) (hrun : IsOpenRun f m) (hk : n ≤ k)
    (hno : ∀ j, n ≤ j → j < k → m j ≠ some (.txReady l)) : (f k).Sending l q bs := by
  induction k, hk using Nat.le_induction with
  | base => exact h
  | succ k hk ih =>
    have hsending := ih fun j hj hlt => hno j hj (Nat.lt_succ_of_lt hlt)
    cases hx : m k with
    | none => rwa [hrun.rest hx]
    | some x =>
      obtain ⟨henabled, ht⟩ := hrun.next hx
      obtain ⟨i, hi⟩ := Move.exists_word hsending.ended henabled
      exact hsending.other_event hi ht fun hready => hno k hk k.lt_succ_self (hready ▸ hx)

/-- Were the link never ready it would stay armed for ever, against fairness; take the first time it is. -/
theorem State.Sending.exists_ready (h : (f n).Sending l q bs) (hrun : IsOpenRun f m) (hfair : IsFair f m) :
    ∃ k, n ≤ k ∧ (f k).Sending l q bs ∧ f (k + 1) = (f k).transmitReady l := by
  have hready : ∃ k, n ≤ k ∧ m k = some (.txReady l) := by
    by_contra hno
    have hnever : ∀ j, n ≤ j → m j ≠ some (.txReady l) := fun j hj hx => hno ⟨j, hj, hx⟩
    exact hno (hfair.2 n l h.configured fun k hk => (h.run_until hrun hk fun j hj _ => hnever j hj).armed)
  classical
  obtain ⟨hk, hx⟩ := Nat.find_spec hready
  refine ⟨Nat.find hready, hk, h.run_until hrun hk fun j hj hlt hx => Nat.find_min hready hlt ⟨hj, hx⟩, ?_⟩
  obtain ⟨-, ht⟩ := hrun.next hx
  exact (Host.Outcome.next.inj ht).symm

theorem State.Sending.exists_disarmed (h : (f n).Sending l q bs) (hrun : IsOpenRun f m) (hfair : IsFair f m) :
    ∃ k, n ≤ k ∧ ((f k).link l).wire = bs ∧ (f k).contents l .tx = [] ∧ ((f k).link l).txarm = false := by
  induction q generalizing n with
  | zero =>
    obtain ⟨k, hk, hsending, hnext⟩ := h.exists_ready hrun hfair
    exact ⟨k + 1, Nat.le_succ_of_le hk, hnext ▸ hsending.ready_empty⟩
  | succ q ih =>
    obtain ⟨k, hk, hsending, hnext⟩ := h.exists_ready hrun hfair
    obtain ⟨j, hj, hdone⟩ := ih (hnext ▸ hsending.ready)
    exact ⟨j, by omega, hdone⟩

/-- Settles O58: the bytes queued count down to the event that disarms; with no word left and no link armed, fairness asks nothing. -/
theorem fairRunSendsQueuedBytes : Obligations.FairRunSendsQueuedBytes := by
  refine ⟨fun f m n l hrun hfair hend hl hok harm => ?_, fun s hs hend hoff => ⟨fun _ => ⟨hs, rfl⟩, ?_, ?_⟩⟩
  · have h : (f n).Sending l ((f n).avail l .tx) ((f n).stream l) := ⟨hend, hl, hok, harm, rfl, rfl⟩
    exact h.exists_disarmed hrun hfair
  · exact fun n hword => absurd (hword n le_rfl) (Nat.not_lt.2 hend)
  · exact fun n l hl harm => absurd ((harm n le_rfl).symm.trans (hoff l hl)) nofun

end Sys2Proof.Machine
end

section
/-! A discard of any number of places (R105, R234): the count moves modulo N. -/

namespace Sys2Proof.Machine

variable {s : State}

/-- R105 on the count, for every k: both remainders are of head - tail - k. -/
theorem State.avail_consume_cast (l : LinkNo) (r : Dir) (k : Nat) :
    ((s.consume l r k).avail l r : Int) = ((s.avail l r : Int) - k) % s.cfg.N := by
  rw [State.avail_cast, State.avail_cast, State.consume_cfg, State.consume_ring_same, Int.emod_sub_emod, Int.sub_sub]
  change (((s.ring l r).head : Int) - (((s.ring l r).tail + k) % s.cfg.N : Nat)) % s.cfg.N = _
  rw [Int.natCast_emod, Int.natCast_add, Int.sub_emod_emod]

/-- A discard above the count and below N borrows one N: the count comes out N - k above what it was (R234). -/
theorem State.avail_consume_of_lt {l : LinkNo} {r : Dir} {k : Nat} (hover : s.avail l r < k) (hk : k < s.cfg.N) :
    (s.consume l r k).avail l r = s.avail l r + (s.cfg.N - k) := by
  have hcount := s.avail_consume_cast l r k
  rw [← Int.add_emod_right, Int.emod_eq_of_lt (by omega) (by omega)] at hcount
  omega

/-- Settles O22: the count moves by -n modulo N, and grows by N - n when n is above it and below N. -/
theorem overDiscardWrapsTheCount : Obligations.OverDiscardWrapsTheCount := by
  intro s l n hlegal
  refine ⟨_, exec_next hlegal, s.avail_consume_cast l .rx n.toNat, fun hover hle => ?_⟩
  rcases hle.lt_or_eq with hlt | heq
  · left
    calc s.avail l .rx < s.avail l .rx + (s.cfg.N - n.toNat) := Nat.lt_add_of_pos_right (Nat.sub_pos_of_lt hlt)
      _ = (s.consume l .rx n.toNat).avail l .rx := (State.avail_consume_of_lt hover hlt).symm
  · exact .inr heq

end Sys2Proof.Machine
end
